-- ==== Sys2Proof/Word.lean ====
section
/-! DEFINITION. The values the block moves (spec/00_scope.md R6, spec/30_encoding.md R45, R47, R51): a bit, a
run-length byte, and the two input tokens. -/

namespace Sys2Proof

/-- A bit (R6): `false` is 0 and `true` is 1, as in the source ("a single boolean value (0 or 1)"). -/
abbrev Bit := Bool

/-- A run-length value, 8 bits, unsigned (R6); bit 7 is the most significant (R35). -/
abbrev Byte := BitVec 8

/-- A token of the encoder input port, format `ENC_IN`, 2 bits (R45). -/
abbrev EncToken := BitVec 2

/-- A token of the decoder input port, format `DEC_IN`, 9 bits (R47). -/
abbrev DecToken := BitVec 9

end Sys2Proof
end

