-- ==== Sys2Proof/Config.lean ====
section
/-! DEFINITION. The implementation parameters (spec/00_scope.md R5). No value of this hardware is left free by the
spec, so there is no opaque constant here. -/

namespace Sys2Proof

/-- The overflow policy `OVF_POLICY` (R23): what the encoder does when a run reaches 256 bits. -/
inductive Policy where
  /-- Encoding 0: restart the count with no synthetic byte. The value of this hardware (R5). -/
  | literal
  /-- Encoding 1: a synthetic zero-length run follows the overflow byte. -/
  | synthZero
  deriving DecidableEq, Repr

namespace Config

/-- `RUN_W`, the width in bits of a run-length value (R5). -/
def runW : Nat := 8

/-- `MAXRUN = 2^RUN_W − 1` (R5). -/
def maxRun : Nat := 2 ^ runW - 1

/-- `ENC_IN_W`, the width of an encoder input token (R5). -/
def encInW : Nat := 2

/-- `DEC_IN_W`, the width of a decoder input token (R5). -/
def decInW : Nat := 9

/-- The level of the strap `ovf_policy` on this hardware (R5, R23). -/
def ovfPolicy : Policy := .literal

end Config

/-- The 1-bit encoding of the strap: `0` is `LITERAL`, `1` is `SYNTH_ZERO` (R23). -/
def Policy.code : Policy → Bit
  | .literal => false
  | .synthZero => true

end Sys2Proof
end

