-- ==== Sys2Proof/Syntax.lean ====
section
/-! DEFINITION. The operations of the block: one constructor for each row of spec/opcode_table.json
(spec/30_encoding.md R56: nine operations; R52: the two reserved rows). -/

namespace Sys2Proof

/-- An operation of the block. The first group is selected by the bits of an input token (R46, R48), the second by the
block's state or a handshake (R49), the third is the reserved encodings (R52). -/
inductive Instr where
  /-- `ENC_BIT b` (R60): take one bit of the uncompressed stream. -/
  | encBit (b : Bit)
  /-- `ENC_END` (R63): the uncompressed input is exhausted. -/
  | encEnd
  /-- `DEC_BYTE v` (R70): take one run-length byte. -/
  | decByte (v : Byte)
  /-- `DEC_END` (R72): the compressed input is exhausted. -/
  | decEnd
  /-- `ENC_ZDRAIN` (R62): emit the synthetic zero-length byte. -/
  | encZdrain
  /-- `ENC_OUT` (R64): the host takes a byte. -/
  | encOut
  /-- `DEC_EXPAND` (R71): write one bit of the current run. -/
  | decExpand
  /-- `DEC_OUT` (R73): the host takes a bit. -/
  | decOut
  /-- `RESET` (R120): every register takes its reset value. -/
  | reset
  /-- `ENC_IN` `0b11`, reserved (R52). -/
  | encReserved
  /-- `DEC_IN` with bit 8 set and the low byte `x` not 0, reserved (R52). -/
  | decReserved (x : Byte)
  deriving DecidableEq, Repr

namespace Instr

/-- The steps of the encoder machine and of its consumer (R110); R44 lists them as the encoder's events. -/
def isEncoder : Instr → Bool
  | encBit _ => true
  | encEnd => true
  | decByte _ => false
  | decEnd => false
  | encZdrain => true
  | encOut => true
  | decExpand => false
  | decOut => false
  | reset => false
  | encReserved => true
  | decReserved _ => false

/-- The steps of the decoder machine and of its consumer (R110). -/
def isDecoder : Instr → Bool
  | encBit _ => false
  | encEnd => false
  | decByte _ => true
  | decEnd => true
  | encZdrain => false
  | encOut => false
  | decExpand => true
  | decOut => true
  | reset => false
  | encReserved => false
  | decReserved _ => true

/-- The steps that take a token of the encoder input port. -/
def takesEncToken : Instr → Bool
  | encBit _ => true
  | encEnd => true
  | decByte _ => false
  | decEnd => false
  | encZdrain => false
  | encOut => false
  | decExpand => false
  | decOut => false
  | reset => false
  | encReserved => true
  | decReserved _ => false

/-- The steps that take a token of the decoder input port. -/
def takesDecToken : Instr → Bool
  | encBit _ => false
  | encEnd => false
  | decByte _ => true
  | decEnd => true
  | encZdrain => false
  | encOut => false
  | decExpand => false
  | decOut => false
  | reset => false
  | encReserved => false
  | decReserved _ => true

/-- The two reserved rows of the table (R52). -/
def isReserved : Instr → Bool
  | encBit _ => false
  | encEnd => false
  | decByte _ => false
  | decEnd => false
  | encZdrain => false
  | encOut => false
  | decExpand => false
  | decOut => false
  | reset => false
  | encReserved => true
  | decReserved _ => true

end Instr

end Sys2Proof
end

