-- ==== Sys2Proof/WellFormed.lean ====
section
/-! DEFINITION. Which terms of `Instr` stand for a row of the opcode table. Every operand is typed by its width, so one
check is left: the reserved `DEC_IN` values are 0x101 to 0x1FF (spec/30_encoding.md R52), since 0x100 is `DEC_END`. -/

namespace Sys2Proof

/-- The term stands for an operation or a reserved value of the table (R48, R52). -/
def Instr.wellFormed : Instr → Bool
  | .encBit _ => true
  | .encEnd => true
  | .decByte _ => true
  | .decEnd => true
  | .encZdrain => true
  | .encOut => true
  | .decExpand => true
  | .decOut => true
  | .reset => true
  | .encReserved => true
  | .decReserved x => x != 0#8

end Sys2Proof
end

