-- ==== Sys2Proof/Decode.lean ====
section
/-! DEFINITION. Decoding of the two token formats (spec/30_encoding.md R45 to R48, R50, R53) and the encoder written
from the same tables. The port alone fixes a token's length (R53), so a token is tagged with its port. -/

namespace Sys2Proof

/-- A token on one of the two input ports. -/
inductive Token where
  /-- Format `ENC_IN`, 2 bits (R45). -/
  | enc (t : EncToken)
  /-- Format `DEC_IN`, 9 bits (R47). -/
  | dec (t : DecToken)
  deriving DecidableEq, Repr

/-- Field `K` of `ENC_IN`, bit 1: 0 is a data bit, 1 is end of input (R45). -/
def encKind (t : EncToken) : Bit := t.getLsbD 1

/-- Field `D` of `ENC_IN`, bit 0: the operand `b = t[0]`, with no extension (R45, R50). -/
def encData (t : EncToken) : Bit := t.getLsbD 0

/-- Field `K` of `DEC_IN`, bit 8: 0 is a run-length byte, 1 is end of input (R47). -/
def decKind (t : DecToken) : Bit := t.getLsbD 8

/-- Field `V` of `DEC_IN`, bits 7 to 0: the operand `v`, bit 7 most significant (R47, R50). -/
def decValue (t : DecToken) : Byte := t.extractLsb' 0 8

/-- Decoding of an `ENC_IN` token (R46); all four values are covered. -/
def decodeEnc (t : EncToken) : Instr :=
  if encKind t then
    if encData t then .encReserved else .encEnd
  else .encBit (encData t)

/-- Decoding of a `DEC_IN` token (R48); the three conditions cover all 512 values. -/
def decodeDec (t : DecToken) : Instr :=
  if decKind t then
    if decValue t = 0#8 then .decEnd else .decReserved (decValue t)
  else .decByte (decValue t)

/-- Decoding of a token of either port. Total: a reserved value decodes to its reserved row (R46, R48, R52). -/
def decode : Token → Instr
  | .enc t => decodeEnc t
  | .dec t => decodeDec t

/-- Why a word is no token of either port. -/
inductive DecodeError where
  /-- The width is that of neither input port (2 or 9 bits, in whole bytes 8 or 16). -/
  | noSuchPort
  /-- A bit above the encoder token's two is set. -/
  | wideEncToken
  /-- A bit above the decoder token's nine is set. -/
  | wideDecToken
  deriving DecidableEq, Repr

/-- The token a word of `nbits` bits stands for, bit 0 the least significant bit of the token (R45, R47, R53). A 2-bit
token is laid in one byte and a 9-bit token in two, the bits above the token 0. -/
def tokenOfWord (nbits w : Nat) : Except DecodeError Token :=
  if nbits = 2 ∨ nbits = 8 then
    if w < 4 then .ok (.enc (BitVec.ofNat 2 w)) else .error .wideEncToken
  else if nbits = 9 ∨ nbits = 16 then
    if w < 512 then .ok (.dec (BitVec.ofNat 9 w)) else .error .wideDecToken
  else .error .noSuchPort

/-- The operation a word stands for, or the named reason it is no token. -/
def decodeWord (nbits w : Nat) : Except DecodeError Instr :=
  match tokenOfWord nbits w with
  | .ok t => .ok (decode t)
  | .error e => .error e

/-- The operation read from a word numbered as spec/opcode_table.json numbers it. -/
def decodeTableWord (nbits w : Nat) : Option Instr :=
  match decodeWord nbits w with
  | .ok i => some i
  | .error _ => none

/-- The bytes of a token as a host stores them, the least significant byte first; `false` is the encoder input port.
Total on any bytes, rejecting by name. -/
def decodeBytes (port : Bool) (bytes : List Byte) : Except DecodeError Instr :=
  match port, bytes with
  | false, [b0] => decodeWord 8 b0.toNat
  | true, [b0, b1] => decodeWord 16 (b0.toNat + 256 * b1.toNat)
  | _, _ => .error .noSuchPort

/-- The token of an operation, from the tables of R46, R48 and R52; the operations of R49 have none. -/
def encode : Instr → Option Token
  | .encBit b => some (.enc (if b then 0b01#2 else 0b00#2))
  | .encEnd => some (.enc 0b10#2)
  | .decByte v => some (.dec (v.setWidth 9))
  | .decEnd => some (.dec 0x100#9)
  | .encZdrain => none
  | .encOut => none
  | .decExpand => none
  | .decOut => none
  | .reset => none
  | .encReserved => some (.enc 0b11#2)
  | .decReserved x => some (.dec (0x100#9 ||| x.setWidth 9))

/-- The word of an operation and its width in bits, as spec/opcode_table.json numbers them. -/
def encodeWord (i : Instr) : Option (Nat × Nat) :=
  match encode i with
  | some (.enc t) => some (2, t.toNat)
  | some (.dec t) => some (9, t.toNat)
  | none => none

end Sys2Proof
end

