-- ==== Sys2Proof/Machine/State.lean ====
section
/-! DEFINITION. The state of the machine (spec/10_state.md R10 to R23, spec/20_memory.md R30, R31,
spec/60_exceptions.md R103, R110) and the state after reset (spec/70_reset_and_hazards.md R120). Plain data. -/

namespace Sys2Proof.Machine

/-- `ENC_PHASE`, 2 bits (R11). -/
inductive EncPhase where
  /-- `0b00`: no input bit has been taken since reset. -/
  | empty
  /-- `0b01`: at least one bit taken. -/
  | run
  /-- `0b10`: END has been taken. -/
  | done
  /-- `0b11`: never reached from reset (R25); a state holding it faults (R104). -/
  | illegal
  deriving DecidableEq, Repr

/-- `DEC_PHASE`, 1 bit (R17). -/
inductive DecPhase where
  /-- `0`: taking bytes. -/
  | active
  /-- `1`: END has been taken. -/
  | done
  deriving DecidableEq, Repr

/-- The encoder registers (R11 to R16). -/
structure Enc where
  /-- `ENC_PHASE` (R11). -/
  phase : EncPhase
  /-- `ENC_CUR` (R12): the bit of the run segment being counted. -/
  cur : Bit
  /-- `ENC_RUN` (R13): the bits counted in that segment. -/
  run : Byte
  /-- `ENC_ZPEND` (R14): a synthetic zero byte is owed. -/
  zpend : Bit
  /-- `ENC_OBUF` (R15): the byte offered on the output port. -/
  obuf : Byte
  /-- `ENC_OVALID` (R16): `ENC_OBUF` holds a byte the host has not taken. -/
  ovalid : Bit
  deriving DecidableEq, Repr

/-- The decoder registers (R17 to R21). -/
structure Dec where
  /-- `DEC_PHASE` (R17). -/
  phase : DecPhase
  /-- `DEC_BIT` (R18): the polarity of the run being written, or of the next one. -/
  bit : Bit
  /-- `DEC_REM` (R19): the repetitions still to be written. -/
  rem : Byte
  /-- `DEC_OBIT` (R20): the bit offered on the output port. -/
  obit : Bit
  /-- `DEC_OVALID` (R21): `DEC_OBIT` holds a bit the host has not taken. -/
  ovalid : Bit
  deriving DecidableEq, Repr

/-- Why a machine was refused for good (R103). -/
inductive RefuseReason where
  /-- `ENC_IN` `0b11` passed (R52). -/
  | reservedEncToken
  /-- A `DEC_IN` token 0x101 to 0x1FF passed (R52). -/
  | reservedDecToken
  /-- `OVF_POLICY` differed from its value at the last reset while `enc_done = 0` (R124). -/
  | policyChanged
  deriving DecidableEq, Repr

/-- One opportunity of one operation: a port transfer or an internal operation (R110). -/
inductive Turn where
  /-- The encoder takes the token its producer offers. -/
  | encIn
  /-- The encoder's internal operation. -/
  | encInternal
  /-- The encoder's consumer takes a byte. -/
  | encOut
  /-- The decoder takes the token its producer offers. -/
  | decIn
  /-- The decoder's internal operation. -/
  | decInternal
  /-- The decoder's consumer takes a bit. -/
  | decOut
  deriving DecidableEq, Repr

/-- What the host does at its side of the ports (R31, R110, R123). -/
inductive HostAction where
  /-- The encoder producer offers its next token. -/
  | offerEnc (t : EncToken)
  /-- The decoder producer offers its next token. -/
  | offerDec (t : DecToken)
  /-- The host drives `enc_out_ready`. -/
  | encReady (level : Bit)
  /-- The host drives `dec_out_ready`. -/
  | decReady (level : Bit)
  /-- The host drives the strap `ovf_policy`. -/
  | strap (p : Policy)
  /-- The host drives `rst`. -/
  | rst (level : Bit)
  deriving DecidableEq, Repr

/-- One entry of the schedule: who moves next (log entry 1, DESIGN CHOICE). -/
inductive Move where
  /-- A host action. -/
  | host (a : HostAction)
  /-- A turn of one operation. -/
  | turn (t : Turn)
  deriving DecidableEq, Repr

/-- The machine with its host. `enc`, `dec` and `ovfPolicy` are the block's state, all of it (R10); `rst`,
`encOutReady` and `decOutReady` are input pins (R31); the four lists are the streams as the host holds them (R30, R39);
the marks and `policyAtReset` are what R103 asks a model to keep; `sched` is the model's own. -/
structure State where
  /-- The encoder registers. -/
  enc : Enc
  /-- The decoder registers. -/
  dec : Dec
  /-- The strap `OVF_POLICY` (R23). -/
  ovfPolicy : Policy
  /-- The pin `rst` (R31). -/
  rst : Bit
  /-- The pin `enc_out_ready` (R31). -/
  encOutReady : Bit
  /-- The pin `dec_out_ready` (R31). -/
  decOutReady : Bit
  /-- The tokens offered to the encoder and not yet passed, oldest first: `enc_in_valid` and `enc_in_data`. -/
  encIn : List EncToken
  /-- The tokens offered to the decoder and not yet passed, oldest first: `dec_in_valid` and `dec_in_data`. -/
  decIn : List DecToken
  /-- The bytes the host has received from the encoder, oldest first (R64). -/
  encOut : List Byte
  /-- The bits the host has received from the decoder, oldest first (R73). -/
  decOut : List Bit
  /-- `OVF_POLICY` at the last reset (R103). -/
  policyAtReset : Policy
  /-- The encoder's refused mark (R103). -/
  encMark : Option RefuseReason
  /-- The decoder's refused mark (R103). -/
  decMark : Option RefuseReason
  /-- The moves still to come, next first; when it is empty the default host of R54 runs (log entry 1). -/
  sched : List Move
  deriving DecidableEq, Repr

/-- The one fault of the model (R104). -/
inductive Fault where
  /-- A state with `ENC_PHASE = 0b11`. Raised by `step` and by every encoder operation and `RESET`. Safe: no state
  reachable from reset has it (R25). -/
  | illegalEncoderPhase
  deriving DecidableEq, Repr

/-- Why an operation has no meaning (R103). -/
inductive Refusal where
  /-- The operation of that mnemonic is not modelled. Raised by no arm of `exec`. Safe. -/
  | notModelled (mnemonic : String)
  /-- Raised by every operation of an encoder marked by `reserved_enc_token`. Safe: D4 errs toward unprovable. -/
  | reservedEncToken
  /-- Raised by every operation of a decoder marked by `reserved_dec_token`. Safe: D4 errs toward unprovable. -/
  | reservedDecToken
  /-- Raised by every operation of an encoder marked by `policy_changed`. Safe: D24 errs toward unprovable. -/
  | policyChanged
  deriving DecidableEq, Repr

/-- The encoder registers' reset values (R120). -/
def Enc.atReset : Enc :=
  { phase := .empty, cur := false, run := 0x00#8, zpend := false, obuf := 0x00#8, ovalid := false }

/-- The decoder registers' reset values (R120). `DEC_BIT` is the source's "Initialize `bit = false`" (R18). -/
def Dec.atReset : Dec :=
  { phase := .active, bit := false, rem := 0x00#8, obit := false, ovalid := false }

/-- The machine right after a reset edge with the strap at `p`, and a host that has offered nothing, received nothing
and takes every output token (R54); the host-side values are DESIGN CHOICE, log entry 9. -/
def State.resetWith (p : Policy) : State :=
  { enc := Enc.atReset, dec := Dec.atReset, ovfPolicy := p,
    rst := false, encOutReady := true, decOutReady := true,
    encIn := [], decIn := [], encOut := [], decOut := [],
    policyAtReset := p, encMark := none, decMark := none, sched := [] }

/-- The machine right after reset, the strap at this hardware's value (R5, R120). -/
def State.reset : State := State.resetWith Config.ovfPolicy

end Sys2Proof.Machine
end

