-- ==== Sys2Proof/Machine/Flags.lean ====
section
/-! DEFINITION. The block's output signals (spec/20_memory.md R31 to R33), the selection conditions of the operations
that no token selects (spec/30_encoding.md R49), and the register encodings (spec/10_state.md R11, R17). The block has no
flags register: these are all the conditions its rules test. -/

namespace Sys2Proof.Machine

/-- The 2-bit encoding of `ENC_PHASE` (R11). -/
def encPhaseCode : EncPhase → BitVec 2
  | .empty => 0b00#2
  | .run => 0b01#2
  | .done => 0b10#2
  | .illegal => 0b11#2

/-- The 1-bit encoding of `DEC_PHASE` (R17). -/
def decPhaseCode : DecPhase → Bit
  | .active => false
  | .done => true

/-- `enc_in_ready` (R33). -/
def encInReady (s : State) : Bool :=
  !s.rst && (s.enc.phase == .empty || s.enc.phase == .run) && !s.enc.zpend && !s.enc.ovalid

/-- `enc_out_valid` (R33). -/
def encOutValid (s : State) : Bool := !s.rst && s.enc.ovalid

/-- `enc_done` (R33). -/
def encDone (s : State) : Bool := s.enc.phase == .done && !s.enc.ovalid

/-- `dec_in_ready` (R33). -/
def decInReady (s : State) : Bool := !s.rst && s.dec.phase == .active && s.dec.rem == 0#8

/-- `dec_out_valid` (R33). -/
def decOutValid (s : State) : Bool := !s.rst && s.dec.ovalid

/-- `dec_done` (R33). -/
def decDone (s : State) : Bool := s.dec.phase == .done && !s.dec.ovalid

/-- A transfer on the encoder output port: `enc_out_valid = 1 ∧ enc_out_ready = 1` (R32, R49). -/
def encOutTransfer (s : State) : Bool := encOutValid s && s.encOutReady

/-- A transfer on the decoder output port: `dec_out_valid = 1 ∧ dec_out_ready = 1` (R32, R49). -/
def decOutTransfer (s : State) : Bool := decOutValid s && s.decOutReady

/-- `ENC_ZDRAIN` is selected: `ENC_ZPEND = 1 ∧ ENC_OVALID = 0`, at an edge with `rst = 0` (R49, R62). -/
def zdrainSelected (s : State) : Bool := !s.rst && s.enc.zpend && !s.enc.ovalid

/-- `DEC_EXPAND` is selected: `DEC_REM ≠ 0 ∧ DEC_OVALID = 0`, at an edge with `rst = 0` (R49, R71). -/
def expandSelected (s : State) : Bool := !s.rst && s.dec.rem != 0#8 && !s.dec.ovalid

/-- The output ports of the block (R31). -/
structure Outputs where
  encInReady : Bit
  encOutValid : Bit
  encOutData : Byte
  encDone : Bit
  decInReady : Bit
  decOutValid : Bit
  decOutBit : Bit
  decDone : Bit
  deriving DecidableEq, Repr

/-- What the output ports show, all the host can see of the block (R24, R31 to R33). -/
def outputs (s : State) : Outputs :=
  { encInReady := encInReady s, encOutValid := encOutValid s, encOutData := s.enc.obuf, encDone := encDone s,
    decInReady := decInReady s, decOutValid := decOutValid s, decOutBit := s.dec.obit, decDone := decDone s }

end Sys2Proof.Machine
end

