-- ==== Sys2Proof/Machine/Operands.lean ====
section
/-! DEFINITION. The operands of the block's operations: the token the host offers on each input port
(spec/20_memory.md R31, R32), the number of repetitions a byte stands for (spec/30_encoding.md R50) and the order of a
byte's bits where a host serialises it (spec/20_memory.md R35). -/

namespace Sys2Proof.Machine

/-- `enc_in_valid`: the host offers an encoder input token (R31). -/
def encInValid (s : State) : Bool := !s.encIn.isEmpty

/-- `dec_in_valid`: the host offers a decoder input token (R31). -/
def decInValid (s : State) : Bool := !s.decIn.isEmpty

/-- The operation the offered encoder token selects (R46), if one is offered. -/
def offeredEncInstr (s : State) : Option Instr := s.encIn.head?.map decodeEnc

/-- The operation the offered decoder token selects (R48), if one is offered. -/
def offeredDecInstr (s : State) : Option Instr := s.decIn.head?.map decodeDec

/-- The number of bits a run-length byte stands for: its value, unsigned, with no scaling or offset (R50). -/
def repetitions (v : Byte) : Nat := v.toNat

/-- A run-length byte as a host serialises it: most significant bit first (R35). -/
def serialiseByte (v : Byte) : List Bit :=
  [v.getLsbD 7, v.getLsbD 6, v.getLsbD 5, v.getLsbD 4, v.getLsbD 3, v.getLsbD 2, v.getLsbD 1, v.getLsbD 0]

/-- Reading bits as a big-endian unsigned number (R35: "reads `width` bits as big-endian unsigned"). -/
def bigEndianValue (bits : List Bit) : Nat :=
  bits.foldl (fun acc b => 2 * acc + b.toNat) 0

end Sys2Proof.Machine
end

