-- ==== Sys2Proof/Machine/Ops.lean ====
section
/-! DEFINITION. The named operations over the registers, the streams and the marks, and the two shared forms every
meaning has: an operation of a machine that its `require` enables or makes wait (spec/00_scope.md R8), stopped by the
fault of R104 and the marks of R103. The block takes no exception (R100, R107), so there is no exception entry here. -/

namespace Sys2Proof.Machine

/-- `Emit_E(v)`: `ENC_OBUF <- v; ENC_OVALID <- 1` (R8). -/
def emitE (v : Byte) (e : Enc) : Enc := { e with obuf := v, ovalid := true }

/-- `Emit_D(b)`: `DEC_OBIT <- b; DEC_OVALID <- 1` (R8). -/
def emitD (b : Bit) (d : Dec) : Dec := { d with obit := b, ovalid := true }

/-- Write the encoder registers. -/
def withEnc (e : Enc) (s : State) : State := { s with enc := e }

/-- Write the decoder registers. -/
def withDec (d : Dec) (s : State) : State := { s with dec := d }

/-- The host receives `ENC_OBUF`: it is appended to the compressed stream (R64). -/
def receiveByte (s : State) : State := { s with encOut := s.encOut ++ [s.enc.obuf] }

/-- The host receives `DEC_OBIT`: it is appended to the expanded bit stream (R73). -/
def receiveBit (s : State) : State := { s with decOut := s.decOut ++ [s.dec.obit] }

/-- The offered encoder token passes: it is consumed exactly once (R38). -/
def popEncIn (s : State) : State := { s with encIn := s.encIn.tail }

/-- The offered decoder token passes: it is consumed exactly once (R38). -/
def popDecIn (s : State) : State := { s with decIn := s.decIn.tail }

/-- Leave the schedule at `ms`. -/
def withSched (ms : List Move) (s : State) : State := { s with sched := ms }

/-- `refuse(reason)` on the encoder (R8, R103): a mark that no later step clears, a second reason included. -/
def markEnc (r : RefuseReason) (s : State) : State := { s with encMark := s.encMark.or (some r) }

/-- `refuse(reason)` on the decoder (R8, R103). -/
def markDec (r : RefuseReason) (s : State) : State := { s with decMark := s.decMark.or (some r) }

/-- Every register of both machines takes its reset value (R120); the strap's level is the one this reset starts with
(R103). The streams, the pins and the marks are not registers: an offered token is not consumed, the tokens the host
took stay taken (R131), and a mark is never cleared (R103; log entry 6). -/
def resetRegisters (s : State) : State :=
  { s with enc := Enc.atReset, dec := Dec.atReset, policyAtReset := s.ovfPolicy }

/-- The name under which a marked machine refuses (R103). -/
def refusalOf : RefuseReason → Refusal
  | .reservedEncToken => .reservedEncToken
  | .reservedDecToken => .reservedDecToken
  | .policyChanged => .policyChanged

/-- A state with `ENC_PHASE = 0b11` faults (R104). -/
def faultIfIllegal (s : State) (k : Host.Outcome State Fault Refusal) : Host.Outcome State Fault Refusal :=
  match s.enc.phase with
  | .empty => k
  | .run => k
  | .done => k
  | .illegal => .fault .illegalEncoderPhase

/-- A step of a machine (R8): it happens when its `require` holds; when it fails nothing changes and the host waits
(R65, R74). A machine that is marked refused does not step (R103). -/
def machineOp (mark : Option RefuseReason) (enabled : Bool) (f : State → State) (s : State) :
    Host.Outcome State Fault Refusal :=
  match mark with
  | some r => .refused (refusalOf r)
  | none => .next (if enabled then f s else s)

/-- A step of the encoder, or of its output port. -/
def encoderOp (enabled : Bool) (f : State → State) (s : State) : Host.Outcome State Fault Refusal :=
  faultIfIllegal s (machineOp s.encMark enabled f s)

/-- A step of the decoder, or of its output port; it reads no encoder register (R10). -/
def decoderOp (enabled : Bool) (f : State → State) (s : State) : Host.Outcome State Fault Refusal :=
  machineOp s.decMark enabled f s

end Sys2Proof.Machine
end

