-- ==== Sys2Proof/Machine/Decoder.lean ====
section
/-! DEFINITION. The decoder operations (spec/42_decoder.md R70 to R73) and its reserved tokens
(spec/30_encoding.md R52). -/

namespace Sys2Proof.Machine

/-- The registers after `DEC_BYTE v` when its `require` holds (R70): 0 flips the polarity at once, any other value
loads the byte counter. -/
def takeByte (v : Byte) (d : Dec) : Dec :=
  if v = 0#8 then { d with bit := !d.bit } else { d with rem := v }

/-- The registers after `DEC_EXPAND` (R71): one repetition of `DEC_BIT`; the last one flips the polarity. -/
def expandBit (d : Dec) : Dec :=
  { emitD d.bit d with rem := d.rem - 1#8, bit := if d.rem = 1#8 then !d.bit else d.bit }

/-- The registers after `DEC_END` (R72): `DEC_BIT` is left unchanged. -/
def takeDecEnd (d : Dec) : Dec := { d with phase := .done }

/-- The registers after `DEC_OUT` (R73): `DEC_OBIT` keeps its value. -/
def releaseBit (d : Dec) : Dec := { d with ovalid := false }

/-- `DEC_BYTE v` (R70), whether or not `DEC_OVALID = 1` (D27); it waits while `dec_in_ready = 0` (R74). -/
def execDecByte (v : Byte) (s : State) : Host.Outcome State Fault Refusal :=
  decoderOp (decInReady s) (fun s => withDec (takeByte v s.dec) s) s

/-- `DEC_EXPAND` (R71). -/
def execDecExpand (s : State) : Host.Outcome State Fault Refusal :=
  decoderOp (expandSelected s) (fun s => withDec (expandBit s.dec) s) s

/-- `DEC_END` (R72); it waits while `dec_in_ready = 0` (R74). -/
def execDecEnd (s : State) : Host.Outcome State Fault Refusal :=
  decoderOp (decInReady s) (fun s => withDec (takeDecEnd s.dec) s) s

/-- `DEC_OUT` (R73): the host receives `DEC_OBIT`. A marked decoder hands over nothing more (log entry 5). -/
def execDecOut (s : State) : Host.Outcome State Fault Refusal :=
  decoderOp (decOutTransfer s) (fun s => withDec (releaseBit s.dec) (receiveBit s)) s

/-- A reserved token 0x100 + `x` (R52): when it passes the decoder is refused for good (R103), whatever its low byte;
while `dec_in_ready = 0` it has not passed. -/
def execDecReserved (_x : Byte) (s : State) : Host.Outcome State Fault Refusal :=
  decoderOp (decInReady s) (markDec .reservedDecToken) s

end Sys2Proof.Machine
end

