-- ==== Sys2Proof/Machine/Encoder.lean ====
section
/-! DEFINITION. The encoder operations (spec/41_encoder.md R60 to R64) and its reserved token
(spec/30_encoding.md R52). -/

namespace Sys2Proof.Machine

/-- `OverflowRestart()` (R61): emit 255, restart the count at 1, keep `ENC_CUR`; under `SYNTH_ZERO` a synthetic
zero-length byte is owed. -/
def overflowRestart (p : Policy) (e : Enc) : Enc :=
  match p with
  | .literal => { emitE 255#8 e with run := 1#8 }
  | .synthZero => { emitE 255#8 e with run := 1#8, zpend := true }

/-- `ENC_BIT` in phase EMPTY, the first bit of the stream: a first bit 1 emits the leading 0 byte (R60, C1). -/
def takeFirstBit (b : Bit) (e : Enc) : Enc :=
  { (if b then emitE 0#8 e else e) with cur := b, run := 1#8, phase := .run }

/-- `ENC_BIT` in phase RUN with the same bit: the run goes on (R60), or overflows (R61). -/
def extendRun (p : Policy) (e : Enc) : Enc :=
  if e.run = 255#8 then overflowRestart p e else { e with run := e.run + 1#8 }

/-- `ENC_BIT` in phase RUN with the other bit: the run has ended (R60). -/
def endRun (b : Bit) (e : Enc) : Enc :=
  { emitE e.run e with cur := b, run := 1#8 }

/-- The registers after `ENC_BIT b` when its `require` holds (R60). -/
def takeBit (p : Policy) (b : Bit) (e : Enc) : Enc :=
  match e.phase with
  | .empty => takeFirstBit b e
  | .run => if b = e.cur then extendRun p e else endRun b e
  | .done => e
  | .illegal => e

/-- The registers after `ENC_END` when its `require` holds (R63): the pending run, if any, is emitted; `ENC_CUR` and
`ENC_RUN` are left unchanged. -/
def takeEnd (e : Enc) : Enc :=
  match e.phase with
  | .empty => { e with phase := .done }
  | .run => { emitE e.run e with phase := .done }
  | .done => e
  | .illegal => e

/-- The registers after `ENC_ZDRAIN` (R62). -/
def drainZero (e : Enc) : Enc := { emitE 0#8 e with zpend := false }

/-- The registers after `ENC_OUT` (R64): `ENC_OBUF` keeps its value. -/
def releaseByte (e : Enc) : Enc := { e with ovalid := false }

/-- `ENC_BIT b` (R60), with the overflow restart of R61; it waits while `enc_in_ready = 0` (R65). -/
def execEncBit (b : Bit) (s : State) : Host.Outcome State Fault Refusal :=
  encoderOp (encInReady s) (fun s => withEnc (takeBit s.ovfPolicy b s.enc) s) s

/-- `ENC_END` (R63); it waits while `enc_in_ready = 0` (R65). -/
def execEncEnd (s : State) : Host.Outcome State Fault Refusal :=
  encoderOp (encInReady s) (fun s => withEnc (takeEnd s.enc) s) s

/-- `ENC_ZDRAIN` (R62). -/
def execEncZdrain (s : State) : Host.Outcome State Fault Refusal :=
  encoderOp (zdrainSelected s) (fun s => withEnc (drainZero s.enc) s) s

/-- `ENC_OUT` (R64): the host receives `ENC_OBUF`. A marked encoder hands over nothing more (log entry 5). -/
def execEncOut (s : State) : Host.Outcome State Fault Refusal :=
  encoderOp (encOutTransfer s) (fun s => withEnc (releaseByte s.enc) (receiveByte s)) s

/-- The reserved token `0b11` (R52): when it passes the encoder is refused for good (R103); while `enc_in_ready = 0` it
has not passed and is not yet refused. -/
def execEncReserved (s : State) : Host.Outcome State Fault Refusal :=
  encoderOp (encInReady s) (markEnc .reservedEncToken) s

end Sys2Proof.Machine
end

