-- ==== Sys2Proof/Machine/Reset.lean ====
section
/-! DEFINITION. The operation `RESET` (spec/70_reset_and_hazards.md R120). -/

namespace Sys2Proof.Machine

/-- `RESET` (R120): with `rst = 1` every register of both machines takes its reset value; with `rst = 0` it is not
selected (R49) and nothing happens. A faulted state is not cleared, by R104 (log entry 8). -/
def execReset (s : State) : Host.Outcome State Fault Refusal :=
  faultIfIllegal s (.next (if s.rst then resetRegisters s else s))

end Sys2Proof.Machine
end

