-- ==== Sys2Proof/Machine/Dispatch.lean ====
section
/-! DEFINITION. One arm per row of spec/opcode_table.json. -/

namespace Sys2Proof.Machine

def exec (i : Instr) (s : State) : Host.Outcome State Fault Refusal :=
  match i with
  | .encBit b => Sys2Proof.Machine.execEncBit b s
  | .encEnd => Sys2Proof.Machine.execEncEnd s
  | .decByte v => Sys2Proof.Machine.execDecByte v s
  | .decEnd => Sys2Proof.Machine.execDecEnd s
  | .encZdrain => Sys2Proof.Machine.execEncZdrain s
  | .encOut => Sys2Proof.Machine.execEncOut s
  | .decExpand => Sys2Proof.Machine.execDecExpand s
  | .decOut => Sys2Proof.Machine.execDecOut s
  | .reset => Sys2Proof.Machine.execReset s
  | .encReserved => Sys2Proof.Machine.execEncReserved s
  | .decReserved x => Sys2Proof.Machine.execDecReserved x s

end Sys2Proof.Machine
end

