-- ==== Sys2Proof/Machine/Schedule.lean ====
section
/-! DEFINITION. Which operation a step runs (spec/30_encoding.md R46, R48, R49, spec/60_exceptions.md R110), the host's
actions at its side of the ports (spec/20_memory.md R31, spec/70_reset_and_hazards.md R123, R124), and the default host of
spec/30_encoding.md R54. -/

namespace Sys2Proof.Machine

/-- The operation selected at a turn. With `rst = 1` it is `RESET` and nothing else (R106, R120). Otherwise an input
turn selects by the offered token's bits (R46, R48), and the other turns by the conditions of R49. -/
def select (t : Turn) (s : State) : Option Instr :=
  if s.rst then some .reset
  else
    match t with
    | .encIn => offeredEncInstr s
    | .encInternal => if zdrainSelected s then some .encZdrain else none
    | .encOut => if encOutTransfer s then some .encOut else none
    | .decIn => offeredDecInstr s
    | .decInternal => if expandSelected s then some .decExpand else none
    | .decOut => if decOutTransfer s then some .decOut else none

/-- The offered token is consumed exactly when it passes, that is when its port is ready (R32, R38); else it stays
offered (R34, R65, R74). -/
def consume (t : Turn) (s : State) : State :=
  match t with
  | .encIn => if encInReady s then popEncIn s else s
  | .decIn => if decInReady s then popDecIn s else s
  | .encInternal => s
  | .encOut => s
  | .decInternal => s
  | .decOut => s

/-- One turn: the selected operation runs; where none is selected nothing happens. -/
def runTurn (t : Turn) (s : State) : Host.Outcome State Fault Refusal :=
  match select t s with
  | some i => exec i (consume t s)
  | none => .next s

/-- The turns of a list one after another, to the first stop. -/
def runTurns : List Turn → State → Host.Outcome State Fault Refusal
  | [], s => .next s
  | t :: ts, s =>
    match runTurn t s with
    | .next s' => runTurns ts s'
    | .fault f => .fault f
    | .refused r => .refused r

/-- The host drives the strap to `p`; a change away from the value at the last reset while `enc_done = 0` refuses the
encoder for good (R103, R124) and leaves the decoder alone. -/
def driveStrap (p : Policy) (s : State) : State :=
  if p ≠ s.policyAtReset ∧ encDone s = false then
    markEnc .policyChanged { s with ovfPolicy := p }
  else { s with ovfPolicy := p }

/-- A host action (R31, R110). Offered tokens queue in the order they are offered (R39) and are never withdrawn
(R34). -/
def hostAction (a : HostAction) (s : State) : State :=
  match a with
  | .offerEnc t => { s with encIn := s.encIn ++ [t] }
  | .offerDec t => { s with decIn := s.decIn ++ [t] }
  | .encReady level => { s with encOutReady := level }
  | .decReady level => { s with decOutReady := level }
  | .strap p => driveStrap p s
  | .rst level => { s with rst := level }

/-- At a clock edge the turn's operation would happen: it is selected, its `require` holds, and its machine is not
refused. -/
def turnFires (t : Turn) (s : State) : Bool :=
  match t with
  | .encIn => s.encMark.isNone && encInValid s && encInReady s
  | .encInternal => s.encMark.isNone && zdrainSelected s
  | .encOut => s.encMark.isNone && encOutTransfer s
  | .decIn => s.decMark.isNone && decInValid s && decInReady s
  | .decInternal => s.decMark.isNone && expandSelected s
  | .decOut => s.decMark.isNone && decOutTransfer s

/-- The turns in the order the default host tries them (log entry 1). -/
def turnOrder : List Turn := [.encOut, .encInternal, .encIn, .decOut, .decInternal, .decIn]

/-- The turn the default host gives: the first of `turnOrder` that would happen. -/
def defaultTurn (s : State) : Option Turn := turnOrder.find? (fun t => turnFires t s)

/-- Nothing is scheduled and no operation can happen: a refused machine shows its refusal, any other state waits or is
done (R126, R130; log entries 4 and 12). -/
def idleStep (s : State) : Host.Outcome State Fault Refusal :=
  match s.encMark.or s.decMark with
  | some r => .refused (refusalOf r)
  | none => .next s

/-- A step of the default host (R54): while `rst = 1` every edge is a `RESET` (R122); else the first operation that can
happen does. -/
def defaultStep (s : State) : Host.Outcome State Fault Refusal :=
  if s.rst then exec .reset s
  else
    match defaultTurn s with
    | some t => runTurn t s
    | none => idleStep s

/-- The move at the head of the schedule, or the default host's. -/
def moveStep (s : State) : Host.Outcome State Fault Refusal :=
  match s.sched with
  | .host a :: ms => .next (hostAction a (withSched ms s))
  | .turn t :: ms => runTurn t (withSched ms s)
  | [] => defaultStep s

/-- The token of a word of `nbits` bits is offered first on its port and its port gets the next turn, with `rst = 0`; a
word that is no token changes nothing. -/
def placeWord (s : State) (nbits w : Nat) : State :=
  match tokenOfWord nbits w with
  | .ok (.enc t) => { s with rst := false, encIn := t :: s.encIn, sched := .turn .encIn :: s.sched }
  | .ok (.dec t) => { s with rst := false, decIn := t :: s.decIn, sched := .turn .decIn :: s.sched }
  | .error _ => s

end Sys2Proof.Machine
end

