-- ==== Sys2Proof/Machine/Step.lean ====
section
/-! DEFINITION. One step of the machine with its host, and the placing of a word as the next operation. -/

namespace Sys2Proof.Machine

/-- One step: a state with `ENC_PHASE = 0b11` faults (R104); else the next move happens (R110). -/
def step (s : State) : Host.Outcome State Fault Refusal :=
  faultIfIllegal s (moveStep s)

/-- The state in which the very next step runs the operation of that word (log entry 10). -/
def State.withFetchWord (s : State) (nbits w : Nat) : State :=
  placeWord s nbits w

end Sys2Proof.Machine
end

