-- ==== Sys2Proof/Machine/Cycle.lean ====
section
/-! DEFINITION. One rising edge of `clk` as a register-transfer function (spec/20_memory.md R31 to R33, R44,
spec/60_exceptions.md R106): every register's new value from the pre-edge registers and pins. It is written from the
rules of the two machines apart from `exec`, so that rule R44, which says the two agree, is a claim. -/

namespace Sys2Proof.Machine

/-- The encoder's registers, its streams and its mark after an edge with `rst = 0`. A refused encoder does not step
(R103). -/
def encEdge (s : State) : State :=
  let e := s.enc
  let live := s.encMark.isNone
  let inPass := live && encInValid s && encInReady s
  let outPass := live && encOutTransfer s
  let drain := live && zdrainSelected s
  let tok := s.encIn.headD 0#2
  let isBit := inPass && !encKind tok
  let isEnd := inPass && encKind tok && !encData tok
  let isReserved := inPass && encKind tok && encData tok
  let b := encData tok
  let running := e.phase == .run
  let first := isBit && e.phase == .empty
  let same := isBit && running && b == e.cur
  let differs := isBit && running && b != e.cur
  let overflow := same && e.run == 255#8
  let lead := first && b
  let last := isEnd && running
  let flush := differs || last
  let emit := lead || overflow || flush || drain
  { s with
    enc :=
      { phase := if isEnd then .done else if first then .run else e.phase
        cur := if first || differs then b else e.cur
        run := if first || differs || overflow then 1#8 else if same then e.run + 1#8 else e.run
        zpend := if drain then false else if overflow && s.ovfPolicy == .synthZero then true else e.zpend
        obuf := if flush then e.run else if overflow then 255#8 else if lead || drain then 0#8 else e.obuf
        ovalid := if emit then true else if outPass then false else e.ovalid }
    encIn := if inPass then s.encIn.tail else s.encIn
    encOut := if outPass then s.encOut ++ [e.obuf] else s.encOut
    encMark := if isReserved then some .reservedEncToken else s.encMark }

/-- The decoder's registers, its streams and its mark after an edge with `rst = 0`. A refused decoder does not step
(R103). -/
def decEdge (s : State) : State :=
  let d := s.dec
  let live := s.decMark.isNone
  let inPass := live && decInValid s && decInReady s
  let outPass := live && decOutTransfer s
  let expand := live && expandSelected s
  let tok := s.decIn.headD 0#9
  let v := decValue tok
  let isByte := inPass && !decKind tok
  let isEnd := inPass && decKind tok && v == 0#8
  let isReserved := inPass && decKind tok && v != 0#8
  let lastBit := expand && d.rem == 1#8
  { s with
    dec :=
      { phase := if isEnd then .done else d.phase
        bit := if lastBit || (isByte && v == 0#8) then !d.bit else d.bit
        rem := if isByte && v != 0#8 then v else if expand then d.rem - 1#8 else d.rem
        obit := if expand then d.bit else d.obit
        ovalid := if expand then true else if outPass then false else d.ovalid }
    decIn := if inPass then s.decIn.tail else s.decIn
    decOut := if outPass then s.decOut ++ [d.obit] else s.decOut
    decMark := if isReserved then some .reservedDecToken else s.decMark }

/-- One rising edge of `clk` with the pins as State holds them: with `rst = 1` only the reset takes effect (R106,
R120); with `rst = 0` both machines move at once. -/
def clockEdge (s : State) : Host.Outcome State Fault Refusal :=
  faultIfIllegal s (.next (if s.rst then resetRegisters s else decEdge (encEdge s)))

/-- The turns whose operation happens at the edge, judged on the pre-edge state (R44). -/
def edgeTurns (s : State) : List Turn := turnOrder.filter (fun t => turnFires t s)

/-- The turn is one of the encoder's three events (R44). -/
def isEncTurn : Turn → Bool
  | .encIn => true
  | .encInternal => true
  | .encOut => true
  | .decIn => false
  | .decInternal => false
  | .decOut => false

end Sys2Proof.Machine
end

