-- ==== Sys2Proof/Machine/Streams.lean ====
section
/-! DEFINITION. The stream functions the two machines compute over whole streams (spec/43_stream_functions.md R80, R81),
written from their closed forms and apart from the machines. -/

namespace Sys2Proof.Machine

/-- `runs(S)` (R80): the maximal runs of a bit sequence, each with its bit and its length. -/
def runs : List Bit → List (Bit × Nat)
  | [] => []
  | b :: bs =>
    match runs bs with
    | [] => [(b, 1)]
    | (c, n) :: rs => if b = c then (c, n + 1) :: rs else (b, 1) :: (c, n) :: rs

/-- `q(L) = (L − 1) div 255`, the overflow restarts in a run of `L ≥ 1` bits (R80). -/
def overflows (len : Nat) : Nat := (len - 1) / 255

/-- `r(L) = L − 255·q(L)`, the last segment (R80). -/
def lastSegment (len : Nat) : Nat := len - 255 * overflows len

/-- What one overflow emits: the 255, and the synthetic 0 under `SYNTH_ZERO` (R80). -/
def overflowBytes : Policy → List Byte
  | .literal => [255#8]
  | .synthZero => [255#8, 0#8]

/-- `seg_P(L)` (R80): the bytes of a run of `L` bits. -/
def segment (p : Policy) (len : Nat) : List Byte :=
  (List.replicate (overflows len) (overflowBytes p)).flatten ++ [BitVec.ofNat 8 (lastSegment len)]

/-- The leading zero-length 0-run, owed when the first bit is 1 (R80, C1). -/
def leadingZero : List Bit → List Byte
  | true :: _ => [0#8]
  | false :: _ => []
  | [] => []

/-- `lead(S)` (R86): 1 when the sequence is not empty and its first bit is 1. -/
def lead : List Bit → Nat
  | true :: _ => 1
  | false :: _ => 0
  | [] => 0

/-- `encode_P(S)` (R80). -/
def encodeStream (p : Policy) (bits : List Bit) : List Byte :=
  leadingZero bits ++ (runs bits).flatMap (fun r => segment p r.2)

/-- The polarity of byte index `i` is `i mod 2` (R81). -/
def polarity (i : Nat) : Bit := decide (i % 2 = 1)

/-- The bits of the bytes at indices `i`, `i + 1`, … (R81). -/
def decodeFrom (i : Nat) : List Byte → List Bit
  | [] => []
  | v :: vs => List.replicate v.toNat (polarity i) ++ decodeFrom (i + 1) vs

/-- `decode(B)` (R81): byte `i` stands for `B_i` copies of the bit `i mod 2`. -/
def decodeStream (bytes : List Byte) : List Bit := decodeFrom 0 bytes

/-- The sum of a byte stream's values (R85, R87). -/
def byteSum : List Byte → Nat
  | [] => 0
  | v :: vs => v.toNat + byteSum vs

end Sys2Proof.Machine
end

