-- ==== Sys2Proof/Machine/Program.lean ====
section
/-! DEFINITION. Token programs (spec/30_encoding.md R54, R55): which tokens a host presents on each stream, in order, and
the pseudo-forms with their expansions. The forms are syntax trees; the concrete text is no behaviour (D22). -/

namespace Sys2Proof.Machine

/-- `enc-token` of R54. -/
inductive EncItem where
  | bit (b : Bit)
  | stop
  deriving DecidableEq, Repr

/-- `dec-token` of R54. -/
inductive DecItem where
  | byte (v : Byte)
  | stop
  deriving DecidableEq, Repr

/-- `line` of R54: a stream's name and its tokens. -/
inductive Line where
  | enc (items : List EncItem)
  | dec (items : List DecItem)
  deriving DecidableEq, Repr

/-- The token of `BIT b` is `0b0b` and that of `END` is `0b10` (R46, R54). -/
def encItemToken : EncItem → EncToken
  | .bit b => if b then 0b01#2 else 0b00#2
  | .stop => 0b10#2

/-- The token of `BYTE n` is `n` with bit 8 clear and that of `END` is 0x100 (R48, R54). -/
def decItemToken : DecItem → DecToken
  | .byte v => v.setWidth 9
  | .stop => 0x100#9

/-- `BITS b*n` (R55). -/
def bitsForm (b : Bit) (n : Nat) : List EncItem := List.replicate n (.bit b)

/-- `BITSTR "…"` (R55). -/
def bitStrForm (bits : List Bit) : List EncItem := bits.map EncItem.bit

/-- `BYTES n₀, n₁, …` (R55). -/
def bytesForm (bytes : List Byte) : List DecItem := bytes.map DecItem.byte

/-- `ENCODE "…"` (R55): the bits, then END, on the `enc` stream. -/
def encodeForm (bits : List Bit) : Line := .enc (bitStrForm bits ++ [.stop])

/-- `DECODE n₀, n₁, …` (R55): the bytes, then END, on the `dec` stream. -/
def decodeForm (bytes : List Byte) : Line := .dec (bytesForm bytes ++ [.stop])

/-- The encoder tokens of a program, in order (R54). -/
def programEncTokens : List Line → List EncToken
  | [] => []
  | .enc items :: ls => items.map encItemToken ++ programEncTokens ls
  | .dec _ :: ls => programEncTokens ls

/-- The decoder tokens of a program, in order (R54). -/
def programDecTokens : List Line → List DecToken
  | [] => []
  | .enc _ :: ls => programDecTokens ls
  | .dec items :: ls => items.map decItemToken ++ programDecTokens ls

/-- The host offers a program's tokens on both streams (R54; log entry 10). -/
def loadProgram (pr : List Line) (s : State) : State :=
  { s with encIn := s.encIn ++ programEncTokens pr, decIn := s.decIn ++ programDecTokens pr }

/-- The encoder tokens of a bit sequence ended by one END (R66). -/
def bitTokens (bits : List Bit) : List EncToken := programEncTokens [encodeForm bits]

/-- The decoder tokens of a byte sequence ended by one END (R75). -/
def byteTokens (bytes : List Byte) : List DecToken := programDecTokens [decodeForm bytes]

end Sys2Proof.Machine
end

