-- ==== Sys2Proof/Safety.lean ====
section
/-! DEFINITION. The terms claims use: the invariants of spec/10_state.md R25 and R26, a legal state, the starts of a
stream, and the work left to a run (spec/70_reset_and_hazards.md R130, R132). -/

namespace Sys2Proof.Machine

/-- The seven clauses of R25, for the policy `p` of the stream. -/
abbrev EncInv (e : Enc) (p : Policy) : Prop :=
  e.phase ≠ .illegal ∧
  (e.phase = .empty → e.cur = false ∧ e.run = 0#8 ∧ e.zpend = false ∧ e.ovalid = false) ∧
  (e.phase = .run → 1 ≤ e.run.toNat ∧ e.run.toNat ≤ 255) ∧
  (e.zpend = true → p = .synthZero ∧ e.phase = .run ∧ e.run = 1#8) ∧
  (e.zpend = true ∧ e.ovalid = true → e.obuf = 255#8) ∧
  (e.phase = .done → e.zpend = false) ∧
  (e.phase = .run ∧ e.ovalid = true → e.run = 1#8)

/-- R26. -/
abbrev DecInv (d : Dec) : Prop :=
  (d.phase = .done → d.rem = 0#8) ∧ d.rem.toNat ≤ 255

/-- The strap holds its value from the reset until `enc_done = 1`, or the encoder is refused (R103, R124). -/
abbrev PolicyInv (s : State) : Prop :=
  s.encMark = none → encDone s = false → s.ovfPolicy = s.policyAtReset

/-- The invariant of the whole machine, which every step keeps from any state that meets it. -/
abbrev MachineInv (s : State) : Prop :=
  EncInv s.enc s.policyAtReset ∧ DecInv s.dec ∧ PolicyInv s

/-- No fault and no refusal has occurred. -/
abbrev Legal (s : State) : Prop :=
  s.enc.phase ≠ .illegal ∧ s.encMark = none ∧ s.decMark = none

/-- How many operations of the encoder (`enc = true`) or of the decoder would happen at one edge (R44, R106). -/
def firingCount (enc : Bool) (s : State) : Nat :=
  ((edgeTurns s).filter (fun t => isEncTurn t == enc)).length

/-- A move that leaves the pins `rst` and `ovf_policy` as they are: what may happen around an encoder stream (R66, R88,
R124). -/
def aroundEncStream : Move → Bool
  | .host (.offerEnc _) => true
  | .host (.offerDec _) => true
  | .host (.encReady _) => true
  | .host (.decReady _) => true
  | .host (.strap _) => false
  | .host (.rst _) => false
  | .turn _ => true

/-- The same around a decoder stream, which no strap change touches (R75, R124). -/
def aroundDecStream : Move → Bool
  | .host (.offerEnc _) => true
  | .host (.offerDec _) => true
  | .host (.encReady _) => true
  | .host (.decReady _) => true
  | .host (.strap _) => true
  | .host (.rst _) => false
  | .turn _ => true

/-- The encoder token a move offers, if it offers one. -/
def offeredEncToken : Move → Option EncToken
  | .host (.offerEnc t) => some t
  | .host (.offerDec _) => none
  | .host (.encReady _) => none
  | .host (.decReady _) => none
  | .host (.strap _) => none
  | .host (.rst _) => none
  | .turn _ => none

/-- The decoder token a move offers, if it offers one. -/
def offeredDecToken : Move → Option DecToken
  | .host (.offerEnc _) => none
  | .host (.offerDec t) => some t
  | .host (.encReady _) => none
  | .host (.decReady _) => none
  | .host (.strap _) => none
  | .host (.rst _) => none
  | .turn _ => none

/-- The encoder tokens still to pass, in order: those already offered, then those the schedule will offer. -/
def encTokensToCome (s : State) : List EncToken := s.encIn ++ s.sched.filterMap offeredEncToken

/-- The decoder tokens still to pass, in order: those already offered, then those the schedule will offer. -/
def decTokensToCome (s : State) : List DecToken := s.decIn ++ s.sched.filterMap offeredDecToken

/-- The encoder is at the start of a stream of policy `p` on the bits `bits`: registers as reset leaves them, the whole
stream offered or to be offered by the schedule at any time, nothing received yet (R66, R88, R123). The decoder side is
any. -/
abbrev EncStreamStart (p : Policy) (bits : List Bit) (s : State) : Prop :=
  s.enc = Enc.atReset ∧ s.encMark = none ∧ s.rst = false ∧ s.ovfPolicy = p ∧ s.policyAtReset = p ∧
  encTokensToCome s = bitTokens bits ∧ s.encOut = []

/-- The decoder is at the start of a stream on the bytes `bytes` (R75, R88, R123). The encoder side is any. -/
abbrev DecStreamStart (bytes : List Byte) (s : State) : Prop :=
  s.dec = Dec.atReset ∧ s.decMark = none ∧ s.rst = false ∧ decTokensToCome s = byteTokens bytes ∧ s.decOut = []

/-- The encoder is somewhere in a stream of policy `p` on the bits `bits` (R90): the bits split into those taken and
those to come; the bytes received, the byte held, the zero owed and the run being counted are together the encoding of
those taken; and the run being counted is the last segment of their last run. -/
def EncStreamAt (p : Policy) (bits : List Bit) (s : State) : Prop :=
  s.rst = false ∧ s.encMark = none ∧ s.ovfPolicy = p ∧ (∀ m ∈ s.sched, aroundEncStream m = true) ∧
  s.enc.phase ≠ .illegal ∧
  ∃ taken rest, bits = taken ++ rest ∧
    (s.enc.phase = .empty → taken = [] ∧ s.enc.zpend = false) ∧
    (s.enc.phase = .run → ∃ before len, runs taken = before ++ [(s.enc.cur, len)] ∧
      s.enc.run.toNat = lastSegment len) ∧
    (s.enc.phase ≠ .done → encTokensToCome s = bitTokens rest) ∧
    (s.enc.phase = .done → rest = [] ∧ encTokensToCome s = [] ∧ s.enc.zpend = false) ∧
    s.encOut ++ (if s.enc.ovalid then [s.enc.obuf] else []) ++ (if s.enc.zpend then [0#8] else []) ++
      (if s.enc.phase = .run then [s.enc.run] else []) = encodeStream p taken

/-- The decoder is somewhere in a stream on the bytes `bytes` (R90): the bytes split into those taken and those to come;
the bits received, the bit held and the repetitions still to be written are together the decoding of those taken; and
`DEC_BIT` is the polarity of the byte being written, or of the next. -/
def DecStreamAt (bytes : List Byte) (s : State) : Prop :=
  s.rst = false ∧ s.decMark = none ∧ (∀ m ∈ s.sched, aroundDecStream m = true) ∧
  ∃ taken rest, bytes = taken ++ rest ∧
    s.dec.bit = (if s.dec.rem = 0#8 then polarity taken.length else !polarity taken.length) ∧
    (s.dec.phase = .active → decTokensToCome s = byteTokens rest) ∧
    (s.dec.phase = .done → rest = [] ∧ decTokensToCome s = [] ∧ s.dec.rem = 0#8) ∧
    s.decOut ++ (if s.dec.ovalid then [s.dec.obit] else []) ++ List.replicate s.dec.rem.toNat s.dec.bit =
      decodeStream taken

/-- The work left to the encoder: no operation adds to it (R132). -/
def encWork (s : State) : Nat :=
  4 * s.encIn.length + 2 * s.enc.zpend.toNat + s.enc.ovalid.toNat

/-- The work left to the decoder: no operation adds to it (R132). -/
def decWork (s : State) : Nat :=
  512 * s.decIn.length + 2 * s.dec.rem.toNat + s.dec.ovalid.toNat

/-- The work left to both machines. -/
def work (s : State) : Nat := encWork s + decWork s

/-- The states a run can reach: from a reset with the strap at any level, the host's streams, pins and schedule at any
value, by steps. The host of R110 is all such schedules. -/
inductive Reachable : State → Prop where
  | start (p : Policy) (encIn : List EncToken) (decIn : List DecToken) (encReady decReady : Bit) (sched : List Move) :
      Reachable { State.resetWith p with
        encIn := encIn, decIn := decIn, encOutReady := encReady, decOutReady := decReady, sched := sched }
  | next (s t : State) : Reachable s → step s = .next t → Reachable t

end Sys2Proof.Machine
end

