-- ==== Sys2Proof/Certificates/Slice0/Obligations.lean ====
section
/-! DEFINITION. The statements about the model, for the provers. Each formalises the rules its docstring names. A result
given as an equation of whole states is its own frame: every register, pin, stream and mark it does not write is as
before. -/

open Sys2Proof
open Sys2Proof.Machine

/-! ## Decoding -/

/-- Words of the table, written out from the encodings of R46 and R48, decode to their operations. -/
def Obligations.DecodeOfSampleWords : Prop :=
  decodeTableWord 8 0b00 = some (.encBit false) ∧
  decodeTableWord 8 0b01 = some (.encBit true) ∧
  decodeTableWord 8 0b10 = some .encEnd ∧
  decodeTableWord 8 0b11 = some .encReserved ∧
  decodeTableWord 16 0x0FF = some (.decByte 255#8) ∧
  decodeTableWord 16 0x100 = some .decEnd ∧
  decodeTableWord 16 0x101 = some (.decReserved 1#8) ∧
  decodeTableWord 8 0b100 = none ∧
  decodeTableWord 16 0x200 = none

/-- R46 and R48: the decoding of every `ENC_IN` and every `DEC_IN` token; the three conditions of R48 cover all values
and exclude one another. -/
def Obligations.TokensDecodeByTheTables : Prop :=
  decodeEnc 0b00#2 = .encBit false ∧ decodeEnc 0b01#2 = .encBit true ∧
  decodeEnc 0b10#2 = .encEnd ∧ decodeEnc 0b11#2 = .encReserved ∧
  ∀ t : DecToken,
    (t.getLsbD 8 = false → decodeDec t = .decByte (BitVec.ofNat 8 (t.toNat % 256))) ∧
    (t = 0x100#9 → decodeDec t = .decEnd) ∧
    (t.getLsbD 8 = true → t.toNat % 256 ≠ 0 → decodeDec t = .decReserved (BitVec.ofNat 8 (t.toNat % 256))) ∧
    (t.getLsbD 8 = false ∨ t = 0x100#9 ∨ (t.getLsbD 8 = true ∧ t.toNat % 256 ≠ 0)) ∧
    ¬(t.getLsbD 8 = false ∧ t = 0x100#9) ∧
    ¬(t = 0x100#9 ∧ t.toNat % 256 ≠ 0)

/-- Decoding the token, or the table word, of any well-formed operation gives it back, operands whole; the operations
without a token are those of R49. -/
def Obligations.DecodeOfEncodeIsTheOperation : Prop :=
  ∀ i : Instr, i.wellFormed = true →
    (∀ tok, encode i = some tok → decode tok = i) ∧
    (∀ n w, encodeWord i = some (n, w) → decodeTableWord n w = some i) ∧
    ((encode i).isSome = true ↔ i.takesEncToken = true ∨ i.takesDecToken = true)

/-- Every token of either port has one meaning, which is well formed and encodes back to it. -/
def Obligations.EncodeOfDecodeIsTheToken : Prop :=
  ∀ tok : Token, (decode tok).wellFormed = true ∧ encode (decode tok) = some tok ∧
    (∀ tok', decode tok' = decode tok → tok' = tok)

/-! ## The signals -/

/-- R33: the output signals as functions of the registers and of `rst`; no ready signal depends on anything else. -/
def Obligations.SignalsAreTheFunctionsOfTheRegisters : Prop :=
  ∀ s : State,
    ((outputs s).encInReady = true ↔ s.rst = false ∧ (s.enc.phase = .empty ∨ s.enc.phase = .run) ∧
      s.enc.zpend = false ∧ s.enc.ovalid = false) ∧
    ((outputs s).encOutValid = true ↔ s.rst = false ∧ s.enc.ovalid = true) ∧
    ((outputs s).encDone = true ↔ s.enc.phase = .done ∧ s.enc.ovalid = false) ∧
    ((outputs s).decInReady = true ↔ s.rst = false ∧ s.dec.phase = .active ∧ s.dec.rem = 0#8) ∧
    ((outputs s).decOutValid = true ↔ s.rst = false ∧ s.dec.ovalid = true) ∧
    ((outputs s).decDone = true ↔ s.dec.phase = .done ∧ s.dec.ovalid = false) ∧
    (∀ u : State, u.enc = s.enc → u.dec = s.dec → u.rst = s.rst → outputs u = outputs s)

/-! ## The encoder operations: result, completion and frame -/

/-- R60: `ENC_BIT b`, its encoding and every case of its pseudocode; the increment never wraps. -/
def Obligations.EncBitTakesOneBit : Prop :=
  ∀ (s : State) (b : Bit), s.enc.phase ≠ .illegal → s.encMark = none →
    decodeEnc (if b then 0b01#2 else 0b00#2) = .encBit b ∧
    (s.rst = false → s.enc.zpend = false → s.enc.ovalid = false →
      (s.enc.phase = .empty → b = false →
        exec (.encBit b) s = .next { s with enc := { s.enc with cur := b, run := 1#8, phase := .run } }) ∧
      (s.enc.phase = .empty → b = true →
        exec (.encBit b) s = .next { s with
          enc := { s.enc with obuf := 0#8, ovalid := true, cur := b, run := 1#8, phase := .run } }) ∧
      (s.enc.phase = .run → b = s.enc.cur → s.enc.run ≠ 255#8 →
        exec (.encBit b) s = .next { s with enc := { s.enc with run := s.enc.run + 1#8 } } ∧
        (s.enc.run + 1#8).toNat = s.enc.run.toNat + 1) ∧
      (s.enc.phase = .run → b = s.enc.cur → s.enc.run = 255#8 →
        exec (.encBit b) s = .next { s with
          enc := { s.enc with obuf := 255#8, ovalid := true, run := 1#8,
                              zpend := if s.ovfPolicy = .synthZero then true else s.enc.zpend } }) ∧
      (s.enc.phase = .run → b ≠ s.enc.cur →
        exec (.encBit b) s = .next { s with
          enc := { s.enc with obuf := s.enc.run, ovalid := true, cur := b, run := 1#8 } })) ∧
    ((s.rst = true ∨ s.enc.phase = .done ∨ s.enc.zpend = true ∨ s.enc.ovalid = true) →
      exec (.encBit b) s = .next s)

/-- R61: the overflow restart emits 255, restarts the count at 1, leaves `ENC_CUR`, and owes a synthetic zero byte
under `SYNTH_ZERO` only. -/
def Obligations.OverflowRestartEmits255 : Prop :=
  ∀ s : State, s.encMark = none → s.rst = false → s.enc.phase = .run → s.enc.zpend = false →
    s.enc.ovalid = false → s.enc.run = 255#8 →
    (s.ovfPolicy = .literal →
      exec (.encBit s.enc.cur) s = .next { s with enc := { s.enc with obuf := 255#8, ovalid := true, run := 1#8 } }) ∧
    (s.ovfPolicy = .synthZero →
      exec (.encBit s.enc.cur) s = .next { s with
        enc := { s.enc with obuf := 255#8, ovalid := true, run := 1#8, zpend := true } })

/-- R62: `ENC_ZDRAIN`; no input passes while it is owed, and it is never owed under `LITERAL`. -/
def Obligations.EncZdrainEmitsTheOwedZero : Prop :=
  ∀ s : State, s.enc.phase ≠ .illegal → s.encMark = none →
    (s.rst = false → s.enc.zpend = true → s.enc.ovalid = false →
      exec .encZdrain s = .next { s with enc := { s.enc with obuf := 0#8, ovalid := true, zpend := false } }) ∧
    ((s.rst = true ∨ s.enc.zpend = false ∨ s.enc.ovalid = true) → exec .encZdrain s = .next s) ∧
    (s.enc.zpend = true → encInReady s = false) ∧
    (MachineInv s → s.policyAtReset = .literal → s.enc.zpend = false)

/-- R63: `ENC_END` emits the pending run, if any, and stops. -/
def Obligations.EncEndEmitsThePendingRun : Prop :=
  decodeEnc 0b10#2 = .encEnd ∧
  ∀ s : State, s.enc.phase ≠ .illegal → s.encMark = none →
    (s.rst = false → s.enc.zpend = false → s.enc.ovalid = false →
      (s.enc.phase = .empty → exec .encEnd s = .next { s with enc := { s.enc with phase := .done } }) ∧
      (s.enc.phase = .run →
        exec .encEnd s = .next { s with
          enc := { s.enc with obuf := s.enc.run, ovalid := true, phase := .done } })) ∧
    ((s.rst = true ∨ s.enc.phase = .done ∨ s.enc.zpend = true ∨ s.enc.ovalid = true) →
      exec .encEnd s = .next s)

/-- R64: `ENC_OUT` hands `ENC_OBUF` to the host. -/
def Obligations.EncOutHandsOverTheByte : Prop :=
  ∀ s : State, s.enc.phase ≠ .illegal → s.encMark = none →
    (s.rst = false → s.enc.ovalid = true → s.encOutReady = true →
      exec .encOut s = .next { s with enc := { s.enc with ovalid := false }, encOut := s.encOut ++ [s.enc.obuf] }) ∧
    ((s.rst = true ∨ s.enc.ovalid = false ∨ s.encOutReady = false) → exec .encOut s = .next s)

/-! ## The decoder operations: result, completion and frame -/

/-- R70: `DEC_BYTE v`, whether or not the output register is full. -/
def Obligations.DecByteLoadsOrFlips : Prop :=
  ∀ (s : State) (v : Byte), s.decMark = none →
    decodeDec (v.setWidth 9) = .decByte v ∧
    (s.rst = false → s.dec.phase = .active → s.dec.rem = 0#8 →
      (v = 0#8 → exec (.decByte v) s = .next { s with dec := { s.dec with bit := !s.dec.bit } }) ∧
      (v ≠ 0#8 → exec (.decByte v) s = .next { s with dec := { s.dec with rem := v } })) ∧
    ((s.rst = true ∨ s.dec.phase = .done ∨ s.dec.rem ≠ 0#8) → exec (.decByte v) s = .next s)

/-- R71: `DEC_EXPAND` writes one repetition; the last one flips the polarity. -/
def Obligations.DecExpandWritesOneBit : Prop :=
  ∀ s : State, s.decMark = none →
    (s.rst = false → s.dec.ovalid = false →
      (s.dec.rem = 1#8 →
        exec .decExpand s = .next { s with
          dec := { s.dec with obit := s.dec.bit, ovalid := true, rem := 0#8, bit := !s.dec.bit } }) ∧
      (s.dec.rem ≠ 0#8 → s.dec.rem ≠ 1#8 →
        exec .decExpand s = .next { s with
          dec := { s.dec with obit := s.dec.bit, ovalid := true, rem := s.dec.rem - 1#8 } })) ∧
    ((s.rst = true ∨ s.dec.rem = 0#8 ∨ s.dec.ovalid = true) → exec .decExpand s = .next s)

/-- R72: `DEC_END` writes the phase and nothing else. -/
def Obligations.DecEndEndsTheStream : Prop :=
  decodeDec 0x100#9 = .decEnd ∧
  ∀ s : State, s.decMark = none →
    (s.rst = false → s.dec.phase = .active → s.dec.rem = 0#8 →
      exec .decEnd s = .next { s with dec := { s.dec with phase := .done } }) ∧
    ((s.rst = true ∨ s.dec.phase = .done ∨ s.dec.rem ≠ 0#8) → exec .decEnd s = .next s)

/-- R73: `DEC_OUT` hands `DEC_OBIT` to the host. -/
def Obligations.DecOutHandsOverTheBit : Prop :=
  ∀ s : State, s.decMark = none →
    (s.rst = false → s.dec.ovalid = true → s.decOutReady = true →
      exec .decOut s = .next { s with dec := { s.dec with ovalid := false }, decOut := s.decOut ++ [s.dec.obit] }) ∧
    ((s.rst = true ∨ s.dec.ovalid = false ∨ s.decOutReady = false) → exec .decOut s = .next s)

/-! ## Reset -/

/-- R120: with `rst = 1` every register takes its reset value, no token passes, what the host holds stays, and no
other operation does anything. -/
def Obligations.ResetGivesEveryRegisterItsResetValue : Prop :=
  ∀ s : State, s.enc.phase ≠ .illegal → s.rst = true →
    (∃ t, exec .reset s = .next t ∧
      t.enc = { phase := .empty, cur := false, run := 0x00#8, zpend := false, obuf := 0x00#8, ovalid := false } ∧
      t.dec = { phase := .active, bit := false, rem := 0x00#8, obit := false, ovalid := false } ∧
      t = { s with enc := t.enc, dec := t.dec, policyAtReset := t.policyAtReset }) ∧
    (outputs s).encInReady = false ∧ (outputs s).encOutValid = false ∧
    (outputs s).decInReady = false ∧ (outputs s).decOutValid = false ∧
    (∀ i t, i ≠ .reset → exec i s = .next t → t = s)

/-- R122: another edge with `rst = 1` leaves the same state. -/
def Obligations.AnotherResetEdgeChangesNothing : Prop :=
  ∀ s t : State, s.rst = true → exec .reset s = .next t → exec .reset t = .next t

/-- R131: a reset in the middle of a stream keeps what the host took and nothing of the block's registers. -/
def Obligations.ResetAbandonsTheStream : Prop :=
  ∀ s t u v : State, s.rst = true → u.rst = true → exec .reset s = .next t → exec .reset u = .next v →
    t.encOut = s.encOut ∧ t.decOut = s.decOut ∧ t.encIn = s.encIn ∧ t.decIn = s.decIn ∧
    t.enc = v.enc ∧ t.dec = v.dec ∧ t.enc = State.reset.enc ∧ t.dec = State.reset.dec

/-- The registers of `State.reset` are the reset values of R120, with the strap at this hardware's `LITERAL` (R5).
The pins, streams and schedule beside them are the model's choice, log entry 9. -/
def Obligations.ResetStateHoldsTheResetValues : Prop :=
  State.reset.enc.phase = .empty ∧ State.reset.enc.cur = false ∧ State.reset.enc.run = 0x00#8 ∧
  State.reset.enc.zpend = false ∧ State.reset.enc.obuf = 0x00#8 ∧ State.reset.enc.ovalid = false ∧
  State.reset.dec.phase = .active ∧ State.reset.dec.bit = false ∧ State.reset.dec.rem = 0x00#8 ∧
  State.reset.dec.obit = false ∧ State.reset.dec.ovalid = false ∧ State.reset.ovfPolicy = .literal

/-! ## Waiting, refusals and the fault -/

/-- R65: an encoder token offered while `enc_in_ready = 0` stays offered and changes nothing; the wait ends by R62 and
R64, and after END it does not end before a reset. -/
def Obligations.EncoderTokenWaitsUntilReady : Prop :=
  (∀ (s : State) (ms : List Move) (tok : EncToken) (toks : List EncToken), s.enc.phase ≠ .illegal →
    s.encMark = none → s.rst = false → s.sched = .turn .encIn :: ms → s.encIn = tok :: toks → encInReady s = false →
    step s = .next { s with sched := ms }) ∧
  (∀ s : State, s.encMark = none → s.rst = false → s.enc.phase = .run → s.enc.ovalid = true → s.encOutReady = true →
    s.enc.zpend = false → ∃ t, exec .encOut s = .next t ∧ encInReady t = true) ∧
  (∀ s : State, s.encMark = none → s.rst = false → s.enc.phase = .run → s.enc.ovalid = false → s.encOutReady = true →
    s.enc.zpend = true →
    ∃ t u, exec .encZdrain s = .next t ∧ exec .encOut t = .next u ∧ encInReady u = true) ∧
  (∀ s t : State, s.rst = false → s.enc.phase = .done → step s = .next t →
    t.enc.phase = .done ∧ encInReady t = false)

/-- R74: a decoder token offered while `dec_in_ready = 0` stays offered and changes nothing; the wait ends when R71 has
counted `DEC_REM` down to 0, and after END it does not end before a reset. -/
def Obligations.DecoderTokenWaitsUntilReady : Prop :=
  (∀ (s : State) (ms : List Move) (tok : DecToken) (toks : List DecToken), s.enc.phase ≠ .illegal →
    s.decMark = none → s.rst = false → s.sched = .turn .decIn :: ms → s.decIn = tok :: toks → decInReady s = false →
    step s = .next { s with sched := ms }) ∧
  (∀ s : State, s.decMark = none → s.rst = false → s.dec.phase = .active → s.dec.rem ≠ 0#8 → s.dec.ovalid = false →
    ∃ t, exec .decExpand s = .next t ∧ t.dec.rem.toNat + 1 = s.dec.rem.toNat ∧
      (decInReady t = true ↔ s.dec.rem = 1#8)) ∧
  (∀ s t : State, s.rst = false → s.dec.phase = .done → step s = .next t →
    t.dec.phase = .done ∧ decInReady t = false)

/-- R52: a reserved token that passes refuses its machine for good, whatever the token's low byte; one offered while
its port is not ready has not passed, and nothing happens. -/
def Obligations.ReservedTokensRefuseWhenTheyPass : Prop :=
  (∀ s : State, s.enc.phase ≠ .illegal → s.encMark = none →
    (encInReady s = true → exec .encReserved s = .next { s with encMark := some .reservedEncToken }) ∧
    (encInReady s = false → exec .encReserved s = .next s)) ∧
  (∀ (s : State) (x : Byte), s.decMark = none →
    (decInReady s = true → exec (.decReserved x) s = .next { s with decMark := some .reservedDecToken }) ∧
    (decInReady s = false → exec (.decReserved x) s = .next s)) ∧
  decodeEnc 0b11#2 = .encReserved ∧
  (∀ t : DecToken, 0x101 ≤ t.toNat → ∃ x, decodeDec t = .decReserved x)

/-- R103, the mark: no later step clears a machine's refused mark or changes its reason. -/
def Obligations.RefusedMarksAreNeverCleared : Prop :=
  ∀ (s t : State) (r : RefuseReason), step s = .next t →
    (s.encMark = some r → t.encMark = some r) ∧ (s.decMark = some r → t.decMark = some r)

/-- R103, the stop: every operation of a marked machine is refused under the mark's reason, so only a reset changes its
registers, and the other machine's operations are what they are without the mark. That `ENC_OUT` and `DEC_OUT` stop too
is the model's reading, log entry 5; that a reset still writes the registers is log entry 6. -/
def Obligations.RefusedMachineStopsAlone : Prop :=
  (∀ (s : State) (i : Instr) (r : RefuseReason), s.enc.phase ≠ .illegal → s.encMark = some r →
    i.isEncoder = true → exec i s = .refused (refusalOf r)) ∧
  (∀ (s : State) (i : Instr) (r : RefuseReason), s.decMark = some r →
    i.isDecoder = true → exec i s = .refused (refusalOf r)) ∧
  (∀ (s t : State) (i : Instr) (m : Option RefuseReason), i.isDecoder = true → exec i s = .next t →
    exec i { s with encMark := m } = .next { t with encMark := m }) ∧
  (∀ (s t : State) (i : Instr) (m : Option RefuseReason), i.isEncoder = true → exec i s = .next t →
    exec i { s with decMark := m } = .next { t with decMark := m }) ∧
  (∀ (s t : State) (r : RefuseReason), s.encMark = some r → s.rst = false → step s = .next t → t.enc = s.enc) ∧
  (∀ (s t : State) (r : RefuseReason), s.decMark = some r → s.rst = false → step s = .next t → t.dec = s.dec)

/-- R124: a change of the strap away from its value at the last reset while `enc_done = 0` refuses the encoder with
`policy_changed`; once `enc_done = 1` it does not; the decoder is unaffected. A reset records the strap's value. That
the mark comes with the change itself, whatever `rst`, is the model's reading, log entry 7. -/
def Obligations.PolicyChangeMidStreamIsRefused : Prop :=
  ∀ (s : State) (p : Policy) (ms : List Move), s.enc.phase ≠ .illegal → s.encMark = none →
    s.sched = .host (.strap p) :: ms →
    (p ≠ s.policyAtReset → encDone s = false →
      step s = .next { s with ovfPolicy := p, encMark := some .policyChanged, sched := ms }) ∧
    ((p = s.policyAtReset ∨ encDone s = true) → step s = .next { s with ovfPolicy := p, sched := ms }) ∧
    (∀ (i : Instr) (t : State), i.isDecoder = true → exec i s = .next t →
      exec i { s with ovfPolicy := p, encMark := some .policyChanged } =
        .next { t with ovfPolicy := p, encMark := some .policyChanged }) ∧
    (∀ t : State, s.rst = true → exec .reset s = .next t → t.policyAtReset = s.ovfPolicy)

/-- R23: only the overflow handler reads `OVF_POLICY`. (`RESET` records it for R103, log entry 7.) -/
def Obligations.OnlyTheOverflowHandlerReadsThePolicy : Prop :=
  ∀ (s t : State) (i : Instr) (p : Policy), i ≠ .reset → exec i s = .next t →
    ¬(i = .encBit s.enc.cur ∧ s.enc.phase = .run ∧ s.enc.run = 255#8) →
    exec i { s with ovfPolicy := p } = .next { t with ovfPolicy := p }

/-- R104: the one fault is `ENC_PHASE = 0b11`, it cannot be stepped out of, and no state reachable from reset has it.
That `RESET` faults too follows "no later step clears the fault", log entry 8. -/
def Obligations.FaultIsExactlyTheIllegalPhase : Prop :=
  (∀ (s : State) (f : Fault), step s = .fault f ↔ s.enc.phase = .illegal ∧ f = .illegalEncoderPhase) ∧
  (∀ (s : State) (i : Instr), s.enc.phase = .illegal → (i.isEncoder = true ∨ i = .reset) →
    exec i s = .fault .illegalEncoderPhase) ∧
  (∀ s : State, Reachable s → s.enc.phase ≠ .illegal)

/-- R100: no operation has an error outcome, for any operand and any registers the encoding of the phase admits; the
marks are those of R103. -/
def Obligations.NoOperationHasAnErrorOutcome : Prop :=
  ∀ (s : State) (i : Instr), Legal s → ∃ t, exec i s = .next t ∧ t.enc.phase ≠ .illegal ∧
    (i.isReserved = false → t.encMark = none ∧ t.decMark = none)

/-! ## Invariants -/

/-- The invariant holds at reset, whatever the strap's level. -/
def Obligations.InvariantHoldsAtReset : Prop :=
  MachineInv State.reset ∧ ∀ p : Policy, MachineInv (State.resetWith p)

/-- R25 and R26 with the constancy of the strap: every step from any state that meets the invariant keeps it. -/
def Obligations.EveryStepKeepsTheInvariant : Prop :=
  ∀ s t : State, MachineInv s → step s = .next t → MachineInv t

/-- R25, R26: every reachable state, under every interleaving and every host, meets the encoder's seven clauses and the
decoder's. The policy of clause 4 is the one of the last reset, and the strap's own while the encoder is not refused. -/
def Obligations.EveryReachableStateMeetsTheInvariants : Prop :=
  ∀ s : State, Reachable s →
    EncInv s.enc s.policyAtReset ∧ (s.encMark = none → EncInv s.enc s.ovfPolicy) ∧ DecInv s.dec

/-- R130: when a run is over no internal operation is pending and no output is held. -/
def Obligations.EndOfRunLeavesNothingPending : Prop :=
  ∀ s : State, MachineInv s →
    (encDone s = true ↔ s.enc.phase = .done ∧ s.enc.ovalid = false) ∧
    (encDone s = true → s.enc.zpend = false ∧ zdrainSelected s = false ∧ encOutValid s = false) ∧
    (decDone s = true ↔ s.dec.phase = .done ∧ s.dec.ovalid = false) ∧
    (decDone s = true → s.dec.rem = 0#8 ∧ expandSelected s = false ∧ decOutValid s = false)

/-! ## The two machines -/

/-- R10, R40: an operation of one machine leaves the other machine's registers, streams and mark, the pins, the strap
and the schedule as they are, and takes nothing from either input stream itself. -/
def Obligations.OperationsLeaveTheOtherMachineAlone : Prop :=
  (∀ (i : Instr) (s t : State), i.isEncoder = true → exec i s = .next t →
    t = { s with enc := t.enc, encOut := t.encOut, encMark := t.encMark }) ∧
  (∀ (i : Instr) (s t : State), i.isDecoder = true → exec i s = .next t →
    t = { s with dec := t.dec, decOut := t.decOut, decMark := t.decMark })

/-- R40: operations of the two machines commute, so any interleaving of them gives the same state. -/
def Obligations.OperationsOfTheTwoMachinesCommute : Prop :=
  ∀ (i j : Instr) (s t u : State), i.isEncoder = true → j.isDecoder = true →
    exec i s = .next t → exec j s = .next u → ∃ v, exec j t = .next v ∧ exec i u = .next v

/-- R44, R106: at one edge at most one encoder event and at most two decoder events can happen. -/
def Obligations.EventsAtOneEdgeExcludeOneAnother : Prop :=
  ∀ s : State, firingCount true s ≤ 1 ∧ firingCount false s ≤ 2 ∧
    (turnFires .decInternal s = true → turnFires .decIn s = false ∧ turnFires .decOut s = false)

/-- R44: a clock edge with `rst = 0` is the interleaving of the operations enabled before it, each run as one atomic
step, in any order. (Where a reserved token passes at the edge at which the held bit is taken, the transfer comes first,
since a refused decoder hands over nothing more, log entries 5 and 18.) With `rst = 1` the edge is the operation
`RESET`, whichever turn comes (R106). The edge function is written apart from the operations. -/
def Obligations.ClockEdgeIsAnyInterleavingOfItsOperations : Prop :=
  (∀ s : State, Legal s → s.rst = false → runTurns (edgeTurns s) s = clockEdge s) ∧
  (∀ (s : State) (ts : List Turn), Legal s → s.rst = false → List.Perm ts (edgeTurns s) →
    (∀ x, offeredDecInstr s = some (.decReserved x) → decInReady s = true → decOutTransfer s = true →
      ts.idxOf .decOut < ts.idxOf .decIn) →
    runTurns ts s = clockEdge s) ∧
  (∀ (s : State) (t : Turn), s.rst = true → runTurn t s = exec .reset s ∧ clockEdge s = exec .reset s)

/-- R34: an offered token stays the next one offered until it passes, and no operation but `RESET` writes an output
holding register while its valid bit is 1. -/
def Obligations.OfferedTokensAndHeldOutputsAreStable : Prop :=
  (∀ (s t : State) (tok : EncToken), step s = .next t → s.encIn.head? = some tok →
    t.encIn.head? = some tok ∨ (encInReady s = true ∧ t.encIn = s.encIn.tail)) ∧
  (∀ (s t : State) (tok : DecToken), step s = .next t → s.decIn.head? = some tok →
    t.decIn.head? = some tok ∨ (decInReady s = true ∧ t.decIn = s.decIn.tail)) ∧
  (∀ (s t : State) (i : Instr), exec i s = .next t → i ≠ .reset →
    (s.enc.ovalid = true → t.enc.obuf = s.enc.obuf ∧ (i ≠ .encOut → t.enc.ovalid = true)) ∧
    (s.dec.ovalid = true → t.dec.obit = s.dec.obit ∧ (i ≠ .decOut → t.dec.ovalid = true)))

/-- R38, R39: in a step each input stream loses at most its oldest token or gains one at its end, and each output
stream gains at most the held token, whose valid bit clears. -/
def Obligations.StreamsAreFirstInFirstOut : Prop :=
  ∀ s t : State, step s = .next t →
    (t.encIn = s.encIn ∨ (encInReady s = true ∧ s.encIn ≠ [] ∧ t.encIn = s.encIn.tail) ∨
      (∃ tok, s.sched = .host (.offerEnc tok) :: t.sched ∧ t.encIn = s.encIn ++ [tok])) ∧
    (t.decIn = s.decIn ∨ (decInReady s = true ∧ s.decIn ≠ [] ∧ t.decIn = s.decIn.tail) ∨
      (∃ tok, s.sched = .host (.offerDec tok) :: t.sched ∧ t.decIn = s.decIn ++ [tok])) ∧
    (t.encOut = s.encOut ∨
      (encOutTransfer s = true ∧ t.encOut = s.encOut ++ [s.enc.obuf] ∧ t.enc = { s.enc with ovalid := false })) ∧
    (t.decOut = s.decOut ∨
      (decOutTransfer s = true ∧ t.decOut = s.decOut ++ [s.dec.obit] ∧ t.dec = { s.dec with ovalid := false }))

/-- R126: after END no token is taken, an output never taken stops its machine, and without END the machine does not
end. None of it becomes a fault, a refusal or a step past the wait: every legal state answers a next state, and where
the operation cannot happen that state is the same one (log entry 12). -/
def Obligations.HangsAreKept : Prop :=
  (∀ s : State, Legal s → s.rst = false →
    (∃ t, step s = .next t) ∧
    (s.sched = [] → (∀ u, turnFires u s = false) → step s = .next s) ∧
    (∀ u ms, s.sched = .turn u :: ms → turnFires u s = false → step s = .next { s with sched := ms }) ∧
    (s.enc.phase = .done → turnFires .encIn s = false) ∧
    (s.dec.phase = .done → turnFires .decIn s = false) ∧
    (s.enc.ovalid = true → turnFires .encIn s = false ∧ turnFires .encInternal s = false) ∧
    (s.dec.ovalid = true → turnFires .decInternal s = false) ∧
    (s.dec.rem ≠ 0#8 → turnFires .decIn s = false) ∧
    (s.encOutReady = false → turnFires .encOut s = false) ∧
    (s.decOutReady = false → turnFires .decOut s = false) ∧
    (s.encIn = [] → turnFires .encIn s = false) ∧
    (s.decIn = [] → turnFires .decIn s = false)) ∧
  (∀ s t : State, s.rst = false → s.enc.phase = .done → step s = .next t →
    t.enc.phase = .done ∧ (t.encIn = s.encIn ∨ ∃ tok, t.encIn = s.encIn ++ [tok])) ∧
  (∀ s t : State, s.rst = false → s.dec.phase = .done → step s = .next t →
    t.dec.phase = .done ∧ (t.decIn = s.decIn ∨ ∃ tok, t.decIn = s.decIn ++ [tok])) ∧
  (∀ s t : State, s.rst = false → s.enc.ovalid = true → s.encOutReady = false → step s = .next t → t.enc = s.enc) ∧
  (∀ s t : State, s.rst = false → s.dec.ovalid = true → s.decOutReady = false → s.dec.rem ≠ 0#8 →
    step s = .next t → t.dec = s.dec) ∧
  (∀ s t : State, step s = .next t → s.enc.phase ≠ .done → t.enc.phase = .done → s.encIn.head? = some 0b10#2) ∧
  (∀ s t : State, step s = .next t → s.dec.phase ≠ .done → t.dec.phase = .done → s.decIn.head? = some 0x100#9)

/-! ## The step -/

/-- A turn of an input port runs the operation its offered token decodes to (R46, R48), after the token is consumed if
it passes (R32); with nothing offered nothing is read (R101). -/
def Obligations.StepRunsTheOfferedOperation : Prop :=
  (∀ (s : State) (ms : List Move) (tok : EncToken) (toks : List EncToken), s.enc.phase ≠ .illegal → s.rst = false →
    s.sched = .turn .encIn :: ms → s.encIn = tok :: toks →
    (encInReady s = true → step s = exec (decodeEnc tok) { s with sched := ms, encIn := toks }) ∧
    (encInReady s = false → step s = exec (decodeEnc tok) { s with sched := ms })) ∧
  (∀ (s : State) (ms : List Move) (tok : DecToken) (toks : List DecToken), s.enc.phase ≠ .illegal → s.rst = false →
    s.sched = .turn .decIn :: ms → s.decIn = tok :: toks →
    (decInReady s = true → step s = exec (decodeDec tok) { s with sched := ms, decIn := toks }) ∧
    (decInReady s = false → step s = exec (decodeDec tok) { s with sched := ms })) ∧
  (∀ (s : State) (ms : List Move), s.enc.phase ≠ .illegal → s.rst = false →
    (s.sched = .turn .encIn :: ms → s.encIn = [] → step s = .next { s with sched := ms }) ∧
    (s.sched = .turn .decIn :: ms → s.decIn = [] → step s = .next { s with sched := ms }))

/-- R49: the operations no token selects are selected exactly by their conditions on the pre-step state: a turn whose
condition fails runs nothing. `RESET` is selected by `rst = 1` at any turn, and does nothing with `rst = 0`. -/
def Obligations.StepRunsTheSelectedOperation : Prop :=
  ∀ (s : State) (ms : List Move), s.enc.phase ≠ .illegal →
    (s.rst = true → ∀ t, s.sched = .turn t :: ms → step s = exec .reset { s with sched := ms }) ∧
    (s.rst = false →
      (s.sched = .turn .encInternal :: ms → s.enc.zpend = true → s.enc.ovalid = false →
        step s = exec .encZdrain { s with sched := ms }) ∧
      (s.sched = .turn .encOut :: ms → s.enc.ovalid = true → s.encOutReady = true →
        step s = exec .encOut { s with sched := ms }) ∧
      (s.sched = .turn .decInternal :: ms → s.dec.rem ≠ 0#8 → s.dec.ovalid = false →
        step s = exec .decExpand { s with sched := ms }) ∧
      (s.sched = .turn .decOut :: ms → s.dec.ovalid = true → s.decOutReady = true →
        step s = exec .decOut { s with sched := ms }) ∧
      (s.sched = .turn .encInternal :: ms → (s.enc.zpend = false ∨ s.enc.ovalid = true) →
        step s = .next { s with sched := ms }) ∧
      (s.sched = .turn .encOut :: ms → (s.enc.ovalid = false ∨ s.encOutReady = false) →
        step s = .next { s with sched := ms }) ∧
      (s.sched = .turn .decInternal :: ms → (s.dec.rem = 0#8 ∨ s.dec.ovalid = true) →
        step s = .next { s with sched := ms }) ∧
      (s.sched = .turn .decOut :: ms → (s.dec.ovalid = false ∨ s.decOutReady = false) →
        step s = .next { s with sched := ms }) ∧
      exec .reset s = .next s)

/-- R110: each host action writes its own pin or its own stream and no register of the block. The strap's refusal is
the statement on R124. -/
def Obligations.HostActionsWriteNoRegister : Prop :=
  ∀ (s : State) (a : HostAction) (ms : List Move), s.enc.phase ≠ .illegal → s.sched = .host a :: ms →
    ∃ t, step s = .next t ∧ t.enc = s.enc ∧ t.dec = s.dec ∧ t.encOut = s.encOut ∧ t.decOut = s.decOut ∧
      t.policyAtReset = s.policyAtReset ∧ t.decMark = s.decMark ∧ t.sched = ms ∧
      (∀ tok, a = .offerEnc tok → t = { s with encIn := s.encIn ++ [tok], sched := ms }) ∧
      (∀ tok, a = .offerDec tok → t = { s with decIn := s.decIn ++ [tok], sched := ms }) ∧
      (∀ level, a = .encReady level → t = { s with encOutReady := level, sched := ms }) ∧
      (∀ level, a = .decReady level → t = { s with decOutReady := level, sched := ms }) ∧
      (∀ level, a = .rst level → t = { s with rst := level, sched := ms })

/-- The default host of R54, with nothing scheduled: while `rst = 1` it resets, else it runs an operation that can
happen whenever one can, and otherwise nothing changes unless a machine was refused. The order it tries them in is the
model's choice, log entry 1. -/
def Obligations.DefaultHostRunsWhatCanHappen : Prop :=
  ∀ s : State, s.enc.phase ≠ .illegal → s.sched = [] →
    (s.rst = true → step s = exec .reset s) ∧
    (s.rst = false → (∃ u, turnFires u s = true) →
      ∃ u i, turnFires u s = true ∧ select u s = some i ∧ step s = exec i (consume u s)) ∧
    (s.rst = false → (∀ u, turnFires u s = false) → s.encMark = none → s.decMark = none → step s = .next s)

/-- Placing a word makes the very next step run the operation it decodes to, its token passing if the port is ready. -/
def Obligations.PlacedWordRunsNext : Prop :=
  ∀ (s : State) (nbits w : Nat), s.enc.phase ≠ .illegal →
    (∀ tok, tokenOfWord nbits w = .ok (.enc tok) →
      decodeTableWord nbits w = some (decodeEnc tok) ∧
      (encInReady { s with rst := false } = true →
        step (s.withFetchWord nbits w) = exec (decodeEnc tok) { s with rst := false }) ∧
      (encInReady { s with rst := false } = false →
        step (s.withFetchWord nbits w) = exec (decodeEnc tok) { s with rst := false, encIn := tok :: s.encIn })) ∧
    (∀ tok, tokenOfWord nbits w = .ok (.dec tok) →
      decodeTableWord nbits w = some (decodeDec tok) ∧
      (decInReady { s with rst := false } = true →
        step (s.withFetchWord nbits w) = exec (decodeDec tok) { s with rst := false }) ∧
      (decInReady { s with rst := false } = false →
        step (s.withFetchWord nbits w) = exec (decodeDec tok) { s with rst := false, decIn := tok :: s.decIn }))

/-- R132: no turn that changes anything leaves as much work as it found, so no operation can repeat for ever. -/
def Obligations.EveryOperationReducesTheWork : Prop :=
  ∀ (t : Turn) (s u : State), s.rst = false → runTurn t s = .next u → u ≠ s → work u < work s

/-- R126, R132: the default host brings every legal state, after finitely many steps, to one in which no operation can
happen. -/
def Obligations.DefaultHostComesToRest : Prop :=
  ∀ s : State, s.enc.phase ≠ .illegal → s.rst = false → s.sched = [] →
    ∃ n t, Host.Core.run Sys2Proof.core n s = .next t ∧ ∀ u, turnFires u t = false

/-- R55: the five pseudo-forms expand to their tokens, and a program loaded at reset starts both streams (log entry
10). -/
def Obligations.LoadedProgramStartsBothStreams : Prop :=
  (∀ b n, (bitsForm b n).map encItemToken = List.replicate n (if b then 0b01#2 else 0b00#2)) ∧
  (∀ bits, (bitStrForm bits).map encItemToken = bits.map (fun b => if b then 0b01#2 else 0b00#2)) ∧
  (∀ bytes : List Byte, (bytesForm bytes).map decItemToken = bytes.map (fun v => BitVec.ofNat 9 v.toNat)) ∧
  (∀ bits, bitTokens bits = bits.map (fun b => if b then 0b01#2 else 0b00#2) ++ [0b10#2]) ∧
  (∀ bytes : List Byte, byteTokens bytes = bytes.map (fun v => BitVec.ofNat 9 v.toNat) ++ [0x100#9]) ∧
  (∀ p bits bytes,
    EncStreamStart p bits (loadProgram [encodeForm bits, decodeForm bytes] (State.resetWith p)) ∧
    DecStreamStart bytes (loadProgram [encodeForm bits, decodeForm bytes] (State.resetWith p)))

/-! ## What the machines compute -/

/-- From R66, for the default host: a whole stream of bits ended by END, from reset, with the host taking every byte,
gives exactly `encode_P(S)`, and the encoder is then done. The decoder's side is any. The default host's order of turns
is the model's choice, log entry 1; the other schedules are `EncoderOutputIsTheSameUnderEverySchedule`. -/
def Obligations.EncoderEmitsTheEncodingOfItsStream : Prop :=
  ∀ (p : Policy) (bits : List Bit) (s : State), EncStreamStart p bits s → s.sched = [] → s.encOutReady = true →
    ∃ n t, Host.Core.run Sys2Proof.core n s = .next t ∧ t.encOut = encodeStream p bits ∧
      encDone t = true ∧ t.enc.phase = .done ∧ t.enc.zpend = false

/-- From R75, for the default host: a whole stream of bytes ended by END, from reset, with the host taking every bit,
gives exactly `decode(B)`, and the decoder is then done. The encoder is any that has not faulted. The default host's
order of turns is the model's choice, log entry 1; the other schedules are
`DecoderOutputIsTheSameUnderEverySchedule`. -/
def Obligations.DecoderEmitsTheDecodingOfItsStream : Prop :=
  ∀ (bytes : List Byte) (s : State), DecStreamStart bytes s → s.enc.phase ≠ .illegal → s.sched = [] →
    s.decOutReady = true →
    ∃ n t, Host.Core.run Sys2Proof.core n s = .next t ∧ t.decOut = decodeStream bytes ∧ decDone t = true

/-- R88 for the encoder: under every schedule, with the tokens offered and taken at any time and any decoder beside it,
the run stays in the stream, what the host has received is the beginning of `encode_P(S)`, and it is all of it once the
encoder is done. -/
def Obligations.EncoderOutputIsTheSameUnderEverySchedule : Prop :=
  ∀ (p : Policy) (bits : List Bit) (s t : State) (n : Nat), EncStreamStart p bits s →
    (∀ m ∈ s.sched, aroundEncStream m = true) → Host.Core.run Sys2Proof.core n s = .next t →
    EncStreamAt p bits t ∧ t.encOut <+: encodeStream p bits ∧
    (encDone t = true → t.encOut = encodeStream p bits ∧ encTokensToCome t = [])

/-- R88 for the decoder: the same, with the strap driven at any time too. -/
def Obligations.DecoderOutputIsTheSameUnderEverySchedule : Prop :=
  ∀ (bytes : List Byte) (s t : State) (n : Nat), DecStreamStart bytes s →
    (∀ m ∈ s.sched, aroundDecStream m = true) → Host.Core.run Sys2Proof.core n s = .next t →
    DecStreamAt bytes t ∧ t.decOut <+: decodeStream bytes ∧
    (decDone t = true → t.decOut = decodeStream bytes ∧ decTokensToCome t = [])

/-- R90: every step from any state in which the bytes received, the byte held, the zero owed and the run being counted
are together the encoding of the bits taken (`EncStreamAt`) keeps that relation: whatever the step takes, emits or
hands over, and whatever the host does beside `rst` and the strap. -/
def Obligations.EncoderHoldsTheEncodingOfTheBitsTaken : Prop :=
  ∀ (p : Policy) (bits : List Bit) (s t : State), EncStreamAt p bits s → step s = .next t → EncStreamAt p bits t

/-- R90: every step from any state in which the bits received, the bit held and the repetitions still to be written are
together the decoding of the bytes taken (`DecStreamAt`) keeps that relation. -/
def Obligations.DecoderHoldsTheDecodingOfTheBytesTaken : Prop :=
  ∀ (bytes : List Byte) (s t : State), DecStreamAt bytes s → step s = .next t → DecStreamAt bytes t

/-! ## The stream functions -/

/-- R80: `runs(S)` is the sequence of the maximal runs of `S`. -/
def Obligations.RunsAreTheMaximalRuns : Prop :=
  ∀ bits : List Bit,
    (runs bits).flatMap (fun r => List.replicate r.2 r.1) = bits ∧
    (∀ r ∈ runs bits, 1 ≤ r.2) ∧
    (∀ (i : Nat) (r u : Bit × Nat), (runs bits)[i]? = some r → (runs bits)[i + 1]? = some u → u.1 = !r.1)

/-- R83: under `SYNTH_ZERO` the codec is lossless. A segment has an odd number of entries, those at odd offsets are 0
and the others sum to the run's length, so every run starts at a byte index of its own polarity. -/
def Obligations.SynthZeroIsLossless : Prop :=
  (∀ bits : List Bit, decodeStream (encodeStream .synthZero bits) = bits) ∧
  (∀ len, 1 ≤ len →
    (segment .synthZero len).length = 2 * overflows len + 1 ∧ byteSum (segment .synthZero len) = len ∧
    (∀ i, i < overflows len → (segment .synthZero len)[2 * i + 1]? = some 0#8)) ∧
  (∀ (bits : List Bit) (before after : List (Bit × Nat)) (b : Bit) (len : Nat),
    runs bits = before ++ (b, len) :: after →
    (leadingZero bits ++ before.flatMap (fun r => segment .synthZero r.2)).length % 2 = b.toNat)

/-- R84: under `LITERAL` the round trip succeeds exactly when no run exceeds 255 bits, and where the first longer run
begins at bit `pos` the two sequences agree up to index `pos + 254` and differ at `pos + 255`. -/
def Obligations.LiteralIsLosslessExactlyWithoutLongRuns : Prop :=
  ∀ bits : List Bit,
    (decodeStream (encodeStream .literal bits) = bits ↔ ∀ r ∈ runs bits, r.2 ≤ 255) ∧
    (∀ (before after : List (Bit × Nat)) (b : Bit) (len : Nat), runs bits = before ++ (b, len) :: after →
      (∀ r ∈ before, r.2 ≤ 255) → 256 ≤ len →
      (∀ i, i < (before.map Prod.snd).sum + 255 →
        (decodeStream (encodeStream .literal bits))[i]? = bits[i]?) ∧
      (decodeStream (encodeStream .literal bits))[(before.map Prod.snd).sum + 255]? = some (!b) ∧
      bits[(before.map Prod.snd).sum + 255]? = some b)

/-- R85: the bytes of an encoding sum to the number of input bits, so a round trip keeps the length. -/
def Obligations.EncodingSumsToTheInputLength : Prop :=
  ∀ (p : Policy) (bits : List Bit), byteSum (encodeStream p bits) = bits.length ∧
    (decodeStream (encodeStream p bits)).length = bits.length

/-- R86: the output length of the encoder, its bound, and inputs that reach the bound. -/
def Obligations.EncodingLengthAndItsBound : Prop :=
  ∀ bits : List Bit,
    (encodeStream .literal bits).length = lead bits + ((runs bits).map (fun r => overflows r.2 + 1)).sum ∧
    (encodeStream .synthZero bits).length = lead bits + ((runs bits).map (fun r => 2 * overflows r.2 + 1)).sum ∧
    (∀ p : Policy, (encodeStream p bits).length ≤ bits.length + lead bits ∧ bits.length + lead bits ≤ bits.length + 1 ∧
      encodeStream p [true] = [0#8, 1#8] ∧
      (bits.head? = some true → (∀ r ∈ runs bits, r.2 = 1) → (encodeStream p bits).length = bits.length + 1))

/-- R87: the output length of the decoder; every byte value is accepted; `decode` is total and not injective. -/
def Obligations.DecodingLengthAndItsBound : Prop :=
  (∀ bytes : List Byte, (decodeStream bytes).length = byteSum bytes ∧ byteSum bytes ≤ 255 * bytes.length) ∧
  (∀ (s : State) (v : Byte), s.decMark = none → decInReady s = true →
    ∃ t, exec (.decByte v) s = .next t ∧ t.dec ≠ s.dec) ∧
  decodeStream [5#8] = [false, false, false, false, false] ∧
  decodeStream [3#8, 0#8, 2#8] = [false, false, false, false, false]

/-- R89: where a byte 0 can stand in an encoding. -/
def Obligations.ZeroBytesOfAnEncoding : Prop :=
  (∀ (bits : List Bit) (i : Nat), (encodeStream .literal bits)[i]? = some 0#8 → i = 0 ∧ lead bits = 1) ∧
  (∀ (bits : List Bit) (i : Nat), (encodeStream .synthZero bits)[i]? = some 0#8 →
    (i = 0 ∧ lead bits = 1) ∨ (1 ≤ i ∧ (encodeStream .synthZero bits)[i - 1]? = some 255#8)) ∧
  (∀ (p : Policy) (bits : List Bit), encodeStream p bits ≠ [3#8, 0#8, 2#8])

/-- R128: the decoder has no policy, and a stream made under `SYNTH_ZERO` decodes losslessly on it, under every
schedule. -/
def Obligations.DecoderRestoresSynthZeroStreams : Prop :=
  (∀ (i : Instr) (s t : State) (p : Policy), i.isDecoder = true → exec i s = .next t →
    exec i { s with ovfPolicy := p } = .next { t with ovfPolicy := p }) ∧
  (∀ (bits : List Bit) (s t : State) (n : Nat), DecStreamStart (encodeStream .synthZero bits) s →
    (∀ m ∈ s.sched, aroundDecStream m = true) → Host.Core.run Sys2Proof.core n s = .next t → decDone t = true →
    t.decOut = bits)
end

