-- ==== Sys2Proof/Laws/State.lean ====
section
/-! SUPPORT. One lemma per field per named update of State, so that no later proof unfolds a record update. -/

namespace Sys2Proof.Machine

variable (s : State)

/-! `withEnc` -/

@[simp] theorem withEnc_enc (e : Enc) : (withEnc e s).enc = e := rfl
@[simp] theorem withEnc_dec (e : Enc) : (withEnc e s).dec = s.dec := rfl
@[simp] theorem withEnc_ovfPolicy (e : Enc) : (withEnc e s).ovfPolicy = s.ovfPolicy := rfl
@[simp] theorem withEnc_rst (e : Enc) : (withEnc e s).rst = s.rst := rfl
@[simp] theorem withEnc_encOutReady (e : Enc) : (withEnc e s).encOutReady = s.encOutReady := rfl
@[simp] theorem withEnc_decOutReady (e : Enc) : (withEnc e s).decOutReady = s.decOutReady := rfl
@[simp] theorem withEnc_encIn (e : Enc) : (withEnc e s).encIn = s.encIn := rfl
@[simp] theorem withEnc_decIn (e : Enc) : (withEnc e s).decIn = s.decIn := rfl
@[simp] theorem withEnc_encOut (e : Enc) : (withEnc e s).encOut = s.encOut := rfl
@[simp] theorem withEnc_decOut (e : Enc) : (withEnc e s).decOut = s.decOut := rfl
@[simp] theorem withEnc_policyAtReset (e : Enc) : (withEnc e s).policyAtReset = s.policyAtReset := rfl
@[simp] theorem withEnc_encMark (e : Enc) : (withEnc e s).encMark = s.encMark := rfl
@[simp] theorem withEnc_decMark (e : Enc) : (withEnc e s).decMark = s.decMark := rfl
@[simp] theorem withEnc_sched (e : Enc) : (withEnc e s).sched = s.sched := rfl

/-! `withDec` -/

@[simp] theorem withDec_enc (d : Dec) : (withDec d s).enc = s.enc := rfl
@[simp] theorem withDec_dec (d : Dec) : (withDec d s).dec = d := rfl
@[simp] theorem withDec_ovfPolicy (d : Dec) : (withDec d s).ovfPolicy = s.ovfPolicy := rfl
@[simp] theorem withDec_rst (d : Dec) : (withDec d s).rst = s.rst := rfl
@[simp] theorem withDec_encOutReady (d : Dec) : (withDec d s).encOutReady = s.encOutReady := rfl
@[simp] theorem withDec_decOutReady (d : Dec) : (withDec d s).decOutReady = s.decOutReady := rfl
@[simp] theorem withDec_encIn (d : Dec) : (withDec d s).encIn = s.encIn := rfl
@[simp] theorem withDec_decIn (d : Dec) : (withDec d s).decIn = s.decIn := rfl
@[simp] theorem withDec_encOut (d : Dec) : (withDec d s).encOut = s.encOut := rfl
@[simp] theorem withDec_decOut (d : Dec) : (withDec d s).decOut = s.decOut := rfl
@[simp] theorem withDec_policyAtReset (d : Dec) : (withDec d s).policyAtReset = s.policyAtReset := rfl
@[simp] theorem withDec_encMark (d : Dec) : (withDec d s).encMark = s.encMark := rfl
@[simp] theorem withDec_decMark (d : Dec) : (withDec d s).decMark = s.decMark := rfl
@[simp] theorem withDec_sched (d : Dec) : (withDec d s).sched = s.sched := rfl

/-! `receiveByte` -/

@[simp] theorem receiveByte_enc : (receiveByte s).enc = s.enc := rfl
@[simp] theorem receiveByte_dec : (receiveByte s).dec = s.dec := rfl
@[simp] theorem receiveByte_ovfPolicy : (receiveByte s).ovfPolicy = s.ovfPolicy := rfl
@[simp] theorem receiveByte_rst : (receiveByte s).rst = s.rst := rfl
@[simp] theorem receiveByte_encOutReady : (receiveByte s).encOutReady = s.encOutReady := rfl
@[simp] theorem receiveByte_decOutReady : (receiveByte s).decOutReady = s.decOutReady := rfl
@[simp] theorem receiveByte_encIn : (receiveByte s).encIn = s.encIn := rfl
@[simp] theorem receiveByte_decIn : (receiveByte s).decIn = s.decIn := rfl
@[simp] theorem receiveByte_encOut : (receiveByte s).encOut = s.encOut ++ [s.enc.obuf] := rfl
@[simp] theorem receiveByte_decOut : (receiveByte s).decOut = s.decOut := rfl
@[simp] theorem receiveByte_policyAtReset : (receiveByte s).policyAtReset = s.policyAtReset := rfl
@[simp] theorem receiveByte_encMark : (receiveByte s).encMark = s.encMark := rfl
@[simp] theorem receiveByte_decMark : (receiveByte s).decMark = s.decMark := rfl
@[simp] theorem receiveByte_sched : (receiveByte s).sched = s.sched := rfl

/-! `receiveBit` -/

@[simp] theorem receiveBit_enc : (receiveBit s).enc = s.enc := rfl
@[simp] theorem receiveBit_dec : (receiveBit s).dec = s.dec := rfl
@[simp] theorem receiveBit_ovfPolicy : (receiveBit s).ovfPolicy = s.ovfPolicy := rfl
@[simp] theorem receiveBit_rst : (receiveBit s).rst = s.rst := rfl
@[simp] theorem receiveBit_encOutReady : (receiveBit s).encOutReady = s.encOutReady := rfl
@[simp] theorem receiveBit_decOutReady : (receiveBit s).decOutReady = s.decOutReady := rfl
@[simp] theorem receiveBit_encIn : (receiveBit s).encIn = s.encIn := rfl
@[simp] theorem receiveBit_decIn : (receiveBit s).decIn = s.decIn := rfl
@[simp] theorem receiveBit_encOut : (receiveBit s).encOut = s.encOut := rfl
@[simp] theorem receiveBit_decOut : (receiveBit s).decOut = s.decOut ++ [s.dec.obit] := rfl
@[simp] theorem receiveBit_policyAtReset : (receiveBit s).policyAtReset = s.policyAtReset := rfl
@[simp] theorem receiveBit_encMark : (receiveBit s).encMark = s.encMark := rfl
@[simp] theorem receiveBit_decMark : (receiveBit s).decMark = s.decMark := rfl
@[simp] theorem receiveBit_sched : (receiveBit s).sched = s.sched := rfl

/-! `popEncIn` -/

@[simp] theorem popEncIn_enc : (popEncIn s).enc = s.enc := rfl
@[simp] theorem popEncIn_dec : (popEncIn s).dec = s.dec := rfl
@[simp] theorem popEncIn_ovfPolicy : (popEncIn s).ovfPolicy = s.ovfPolicy := rfl
@[simp] theorem popEncIn_rst : (popEncIn s).rst = s.rst := rfl
@[simp] theorem popEncIn_encOutReady : (popEncIn s).encOutReady = s.encOutReady := rfl
@[simp] theorem popEncIn_decOutReady : (popEncIn s).decOutReady = s.decOutReady := rfl
@[simp] theorem popEncIn_encIn : (popEncIn s).encIn = s.encIn.tail := rfl
@[simp] theorem popEncIn_decIn : (popEncIn s).decIn = s.decIn := rfl
@[simp] theorem popEncIn_encOut : (popEncIn s).encOut = s.encOut := rfl
@[simp] theorem popEncIn_decOut : (popEncIn s).decOut = s.decOut := rfl
@[simp] theorem popEncIn_policyAtReset : (popEncIn s).policyAtReset = s.policyAtReset := rfl
@[simp] theorem popEncIn_encMark : (popEncIn s).encMark = s.encMark := rfl
@[simp] theorem popEncIn_decMark : (popEncIn s).decMark = s.decMark := rfl
@[simp] theorem popEncIn_sched : (popEncIn s).sched = s.sched := rfl

/-! `popDecIn` -/

@[simp] theorem popDecIn_enc : (popDecIn s).enc = s.enc := rfl
@[simp] theorem popDecIn_dec : (popDecIn s).dec = s.dec := rfl
@[simp] theorem popDecIn_ovfPolicy : (popDecIn s).ovfPolicy = s.ovfPolicy := rfl
@[simp] theorem popDecIn_rst : (popDecIn s).rst = s.rst := rfl
@[simp] theorem popDecIn_encOutReady : (popDecIn s).encOutReady = s.encOutReady := rfl
@[simp] theorem popDecIn_decOutReady : (popDecIn s).decOutReady = s.decOutReady := rfl
@[simp] theorem popDecIn_encIn : (popDecIn s).encIn = s.encIn := rfl
@[simp] theorem popDecIn_decIn : (popDecIn s).decIn = s.decIn.tail := rfl
@[simp] theorem popDecIn_encOut : (popDecIn s).encOut = s.encOut := rfl
@[simp] theorem popDecIn_decOut : (popDecIn s).decOut = s.decOut := rfl
@[simp] theorem popDecIn_policyAtReset : (popDecIn s).policyAtReset = s.policyAtReset := rfl
@[simp] theorem popDecIn_encMark : (popDecIn s).encMark = s.encMark := rfl
@[simp] theorem popDecIn_decMark : (popDecIn s).decMark = s.decMark := rfl
@[simp] theorem popDecIn_sched : (popDecIn s).sched = s.sched := rfl

/-! `withSched` -/

@[simp] theorem withSched_enc (ms : List Move) : (withSched ms s).enc = s.enc := rfl
@[simp] theorem withSched_dec (ms : List Move) : (withSched ms s).dec = s.dec := rfl
@[simp] theorem withSched_ovfPolicy (ms : List Move) : (withSched ms s).ovfPolicy = s.ovfPolicy := rfl
@[simp] theorem withSched_rst (ms : List Move) : (withSched ms s).rst = s.rst := rfl
@[simp] theorem withSched_encOutReady (ms : List Move) : (withSched ms s).encOutReady = s.encOutReady := rfl
@[simp] theorem withSched_decOutReady (ms : List Move) : (withSched ms s).decOutReady = s.decOutReady := rfl
@[simp] theorem withSched_encIn (ms : List Move) : (withSched ms s).encIn = s.encIn := rfl
@[simp] theorem withSched_decIn (ms : List Move) : (withSched ms s).decIn = s.decIn := rfl
@[simp] theorem withSched_encOut (ms : List Move) : (withSched ms s).encOut = s.encOut := rfl
@[simp] theorem withSched_decOut (ms : List Move) : (withSched ms s).decOut = s.decOut := rfl
@[simp] theorem withSched_policyAtReset (ms : List Move) : (withSched ms s).policyAtReset = s.policyAtReset := rfl
@[simp] theorem withSched_encMark (ms : List Move) : (withSched ms s).encMark = s.encMark := rfl
@[simp] theorem withSched_decMark (ms : List Move) : (withSched ms s).decMark = s.decMark := rfl
@[simp] theorem withSched_sched (ms : List Move) : (withSched ms s).sched = ms := rfl

/-! `markEnc` -/

@[simp] theorem markEnc_enc (r : RefuseReason) : (markEnc r s).enc = s.enc := rfl
@[simp] theorem markEnc_dec (r : RefuseReason) : (markEnc r s).dec = s.dec := rfl
@[simp] theorem markEnc_ovfPolicy (r : RefuseReason) : (markEnc r s).ovfPolicy = s.ovfPolicy := rfl
@[simp] theorem markEnc_rst (r : RefuseReason) : (markEnc r s).rst = s.rst := rfl
@[simp] theorem markEnc_encOutReady (r : RefuseReason) : (markEnc r s).encOutReady = s.encOutReady := rfl
@[simp] theorem markEnc_decOutReady (r : RefuseReason) : (markEnc r s).decOutReady = s.decOutReady := rfl
@[simp] theorem markEnc_encIn (r : RefuseReason) : (markEnc r s).encIn = s.encIn := rfl
@[simp] theorem markEnc_decIn (r : RefuseReason) : (markEnc r s).decIn = s.decIn := rfl
@[simp] theorem markEnc_encOut (r : RefuseReason) : (markEnc r s).encOut = s.encOut := rfl
@[simp] theorem markEnc_decOut (r : RefuseReason) : (markEnc r s).decOut = s.decOut := rfl
@[simp] theorem markEnc_policyAtReset (r : RefuseReason) : (markEnc r s).policyAtReset = s.policyAtReset := rfl
@[simp] theorem markEnc_encMark (r : RefuseReason) : (markEnc r s).encMark = s.encMark.or (some r) := rfl
@[simp] theorem markEnc_decMark (r : RefuseReason) : (markEnc r s).decMark = s.decMark := rfl
@[simp] theorem markEnc_sched (r : RefuseReason) : (markEnc r s).sched = s.sched := rfl

/-! `markDec` -/

@[simp] theorem markDec_enc (r : RefuseReason) : (markDec r s).enc = s.enc := rfl
@[simp] theorem markDec_dec (r : RefuseReason) : (markDec r s).dec = s.dec := rfl
@[simp] theorem markDec_ovfPolicy (r : RefuseReason) : (markDec r s).ovfPolicy = s.ovfPolicy := rfl
@[simp] theorem markDec_rst (r : RefuseReason) : (markDec r s).rst = s.rst := rfl
@[simp] theorem markDec_encOutReady (r : RefuseReason) : (markDec r s).encOutReady = s.encOutReady := rfl
@[simp] theorem markDec_decOutReady (r : RefuseReason) : (markDec r s).decOutReady = s.decOutReady := rfl
@[simp] theorem markDec_encIn (r : RefuseReason) : (markDec r s).encIn = s.encIn := rfl
@[simp] theorem markDec_decIn (r : RefuseReason) : (markDec r s).decIn = s.decIn := rfl
@[simp] theorem markDec_encOut (r : RefuseReason) : (markDec r s).encOut = s.encOut := rfl
@[simp] theorem markDec_decOut (r : RefuseReason) : (markDec r s).decOut = s.decOut := rfl
@[simp] theorem markDec_policyAtReset (r : RefuseReason) : (markDec r s).policyAtReset = s.policyAtReset := rfl
@[simp] theorem markDec_encMark (r : RefuseReason) : (markDec r s).encMark = s.encMark := rfl
@[simp] theorem markDec_decMark (r : RefuseReason) : (markDec r s).decMark = s.decMark.or (some r) := rfl
@[simp] theorem markDec_sched (r : RefuseReason) : (markDec r s).sched = s.sched := rfl

/-! `resetRegisters` -/

@[simp] theorem resetRegisters_enc : (resetRegisters s).enc = Enc.atReset := rfl
@[simp] theorem resetRegisters_dec : (resetRegisters s).dec = Dec.atReset := rfl
@[simp] theorem resetRegisters_ovfPolicy : (resetRegisters s).ovfPolicy = s.ovfPolicy := rfl
@[simp] theorem resetRegisters_rst : (resetRegisters s).rst = s.rst := rfl
@[simp] theorem resetRegisters_encOutReady : (resetRegisters s).encOutReady = s.encOutReady := rfl
@[simp] theorem resetRegisters_decOutReady : (resetRegisters s).decOutReady = s.decOutReady := rfl
@[simp] theorem resetRegisters_encIn : (resetRegisters s).encIn = s.encIn := rfl
@[simp] theorem resetRegisters_decIn : (resetRegisters s).decIn = s.decIn := rfl
@[simp] theorem resetRegisters_encOut : (resetRegisters s).encOut = s.encOut := rfl
@[simp] theorem resetRegisters_decOut : (resetRegisters s).decOut = s.decOut := rfl
@[simp] theorem resetRegisters_policyAtReset : (resetRegisters s).policyAtReset = s.ovfPolicy := rfl
@[simp] theorem resetRegisters_encMark : (resetRegisters s).encMark = s.encMark := rfl
@[simp] theorem resetRegisters_decMark : (resetRegisters s).decMark = s.decMark := rfl
@[simp] theorem resetRegisters_sched : (resetRegisters s).sched = s.sched := rfl

/-! `emitE` -/

@[simp] theorem emitE_phase (v : Byte) (e : Enc) : (emitE v e).phase = e.phase := rfl
@[simp] theorem emitE_cur (v : Byte) (e : Enc) : (emitE v e).cur = e.cur := rfl
@[simp] theorem emitE_run (v : Byte) (e : Enc) : (emitE v e).run = e.run := rfl
@[simp] theorem emitE_zpend (v : Byte) (e : Enc) : (emitE v e).zpend = e.zpend := rfl
@[simp] theorem emitE_obuf (v : Byte) (e : Enc) : (emitE v e).obuf = v := rfl
@[simp] theorem emitE_ovalid (v : Byte) (e : Enc) : (emitE v e).ovalid = true := rfl

/-! `emitD` -/

@[simp] theorem emitD_phase (b : Bit) (d : Dec) : (emitD b d).phase = d.phase := rfl
@[simp] theorem emitD_bit (b : Bit) (d : Dec) : (emitD b d).bit = d.bit := rfl
@[simp] theorem emitD_rem (b : Bit) (d : Dec) : (emitD b d).rem = d.rem := rfl
@[simp] theorem emitD_obit (b : Bit) (d : Dec) : (emitD b d).obit = b := rfl
@[simp] theorem emitD_ovalid (b : Bit) (d : Dec) : (emitD b d).ovalid = true := rfl

end Sys2Proof.Machine
end

