-- ==== Sys2Proof/Laws/Ops.lean ====
section
/-! SUPPORT. One lemma for each shared operation that says everything it can do, and the reading of each signal. -/

namespace Sys2Proof.Machine

/-! The signals of R33, as the register conditions they stand for. -/

theorem encInReady_iff (s : State) :
    encInReady s = true ↔
      s.rst = false ∧ (s.enc.phase = .empty ∨ s.enc.phase = .run) ∧ s.enc.zpend = false ∧ s.enc.ovalid = false := by
  simp [encInReady, and_assoc]

theorem encOutTransfer_iff (s : State) :
    encOutTransfer s = true ↔ s.rst = false ∧ s.enc.ovalid = true ∧ s.encOutReady = true := by
  simp [encOutTransfer, encOutValid, and_assoc]

theorem encDone_iff (s : State) : encDone s = true ↔ s.enc.phase = .done ∧ s.enc.ovalid = false := by
  simp [encDone]

theorem zdrainSelected_iff (s : State) :
    zdrainSelected s = true ↔ s.rst = false ∧ s.enc.zpend = true ∧ s.enc.ovalid = false := by
  simp [zdrainSelected, and_assoc]

theorem decInReady_iff (s : State) :
    decInReady s = true ↔ s.rst = false ∧ s.dec.phase = .active ∧ s.dec.rem = 0#8 := by
  simp [decInReady, and_assoc]

theorem decOutTransfer_iff (s : State) :
    decOutTransfer s = true ↔ s.rst = false ∧ s.dec.ovalid = true ∧ s.decOutReady = true := by
  simp [decOutTransfer, decOutValid, and_assoc]

theorem decDone_iff (s : State) : decDone s = true ↔ s.dec.phase = .done ∧ s.dec.ovalid = false := by
  simp [decDone]

theorem expandSelected_iff (s : State) :
    expandSelected s = true ↔ s.rst = false ∧ s.dec.rem ≠ 0#8 ∧ s.dec.ovalid = false := by
  simp [expandSelected, and_assoc]

/-! The shared forms of a meaning. -/

theorem faultIfIllegal_of_legal {s : State} (h : s.enc.phase ≠ .illegal) (k : Host.Outcome State Fault Refusal) :
    faultIfIllegal s k = k := by
  unfold faultIfIllegal
  cases hp : s.enc.phase <;> simp_all

theorem faultIfIllegal_of_illegal {s : State} (h : s.enc.phase = .illegal) (k : Host.Outcome State Fault Refusal) :
    faultIfIllegal s k = .fault .illegalEncoderPhase := by
  simp [faultIfIllegal, h]

theorem faultIfIllegal_next {s t : State} {k : Host.Outcome State Fault Refusal} :
    faultIfIllegal s k = .next t ↔ s.enc.phase ≠ .illegal ∧ k = .next t := by
  unfold faultIfIllegal
  cases hp : s.enc.phase <;> simp

theorem machineOp_next {m : Option RefuseReason} {en : Bool} {f : State → State} {s t : State} :
    machineOp m en f s = .next t ↔ m = none ∧ ((en = true ∧ t = f s) ∨ (en = false ∧ t = s)) := by
  cases m <;> cases en <;> simp [machineOp, eq_comm]

/-- Everything an encoder operation can do when it answers a next state. -/
theorem encoderOp_next {en : Bool} {f : State → State} {s t : State} :
    encoderOp en f s = .next t ↔
      s.enc.phase ≠ .illegal ∧ s.encMark = none ∧ ((en = true ∧ t = f s) ∨ (en = false ∧ t = s)) := by
  rw [encoderOp, faultIfIllegal_next, machineOp_next]

/-- Everything a decoder operation can do when it answers a next state. -/
theorem decoderOp_next {en : Bool} {f : State → State} {s t : State} :
    decoderOp en f s = .next t ↔ s.decMark = none ∧ ((en = true ∧ t = f s) ∨ (en = false ∧ t = s)) := by
  rw [decoderOp, machineOp_next]

theorem encoderOp_of_legal {en : Bool} {f : State → State} {s : State} (hp : s.enc.phase ≠ .illegal)
    (hm : s.encMark = none) : encoderOp en f s = .next (if en then f s else s) := by
  rw [encoderOp, faultIfIllegal_of_legal hp, hm, machineOp]

theorem decoderOp_of_unmarked {en : Bool} {f : State → State} {s : State} (hm : s.decMark = none) :
    decoderOp en f s = .next (if en then f s else s) := by
  rw [decoderOp, hm, machineOp]

theorem encoderOp_of_marked {en : Bool} {f : State → State} {s : State} {r : RefuseReason}
    (hp : s.enc.phase ≠ .illegal) (hm : s.encMark = some r) : encoderOp en f s = .refused (refusalOf r) := by
  rw [encoderOp, faultIfIllegal_of_legal hp, hm, machineOp]

theorem decoderOp_of_marked {en : Bool} {f : State → State} {s : State} {r : RefuseReason}
    (hm : s.decMark = some r) : decoderOp en f s = .refused (refusalOf r) := by
  rw [decoderOp, hm, machineOp]

theorem execReset_next {s t : State} :
    execReset s = .next t ↔ s.enc.phase ≠ .illegal ∧ t = (if s.rst then resetRegisters s else s) := by
  rw [execReset, faultIfIllegal_next, Host.Outcome.next.injEq, @eq_comm State _ t]

/-! What the encoder's register functions leave and write. -/

@[simp] theorem takeFirstBit_phase (b : Bit) (e : Enc) : (takeFirstBit b e).phase = .run := rfl
@[simp] theorem takeFirstBit_cur (b : Bit) (e : Enc) : (takeFirstBit b e).cur = b := rfl
@[simp] theorem takeFirstBit_run (b : Bit) (e : Enc) : (takeFirstBit b e).run = 1#8 := rfl
@[simp] theorem takeFirstBit_zpend (b : Bit) (e : Enc) : (takeFirstBit b e).zpend = e.zpend := by
  cases b <;> rfl
@[simp] theorem endRun_phase (b : Bit) (e : Enc) : (endRun b e).phase = e.phase := rfl
@[simp] theorem endRun_cur (b : Bit) (e : Enc) : (endRun b e).cur = b := rfl
@[simp] theorem endRun_run (b : Bit) (e : Enc) : (endRun b e).run = 1#8 := rfl
@[simp] theorem endRun_zpend (b : Bit) (e : Enc) : (endRun b e).zpend = e.zpend := rfl
@[simp] theorem endRun_obuf (b : Bit) (e : Enc) : (endRun b e).obuf = e.run := rfl
@[simp] theorem endRun_ovalid (b : Bit) (e : Enc) : (endRun b e).ovalid = true := rfl
@[simp] theorem overflowRestart_phase (p : Policy) (e : Enc) : (overflowRestart p e).phase = e.phase := by
  cases p <;> rfl
@[simp] theorem overflowRestart_cur (p : Policy) (e : Enc) : (overflowRestart p e).cur = e.cur := by
  cases p <;> rfl
@[simp] theorem overflowRestart_run (p : Policy) (e : Enc) : (overflowRestart p e).run = 1#8 := by
  cases p <;> rfl
@[simp] theorem overflowRestart_obuf (p : Policy) (e : Enc) : (overflowRestart p e).obuf = 255#8 := by
  cases p <;> rfl
@[simp] theorem overflowRestart_ovalid (p : Policy) (e : Enc) : (overflowRestart p e).ovalid = true := by
  cases p <;> rfl
@[simp] theorem overflowRestart_zpend (p : Policy) (e : Enc) :
    (overflowRestart p e).zpend = (p.code || e.zpend) := by
  cases p <;> rfl

/-- `ENC_BIT` never leaves the legal phases and never ends the stream. -/
theorem takeBit_phase (p : Policy) (b : Bit) (e : Enc) :
    (takeBit p b e).phase = if e.phase = .empty then .run else e.phase := by
  unfold takeBit extendRun
  cases hp : e.phase <;> simp only [reduceCtorEq, if_true, if_false, takeFirstBit_phase] <;> try exact hp
  split
  · split <;> simp [hp]
  · simp [hp]

/-- The polarity of the segment after `ENC_BIT b` is `b`, in the phases that take a bit. -/
theorem takeBit_cur (p : Policy) (b : Bit) (e : Enc) (h : e.phase = .empty ∨ e.phase = .run) :
    (takeBit p b e).cur = b := by
  unfold takeBit extendRun
  rcases h with h | h <;> simp only [h, takeFirstBit_cur]
  split
  · rename_i hb
    split <;> simp [hb]
  · simp

/-! Decoding: the token of each operation, and the operation of each token. -/

theorem decodeEnc_takes (t : EncToken) : (decodeEnc t).takesEncToken = true := by
  unfold decodeEnc
  split
  · split <;> rfl
  · rfl

theorem decodeDec_takes (t : DecToken) : (decodeDec t).takesDecToken = true := by
  unfold decodeDec
  split
  · split <;> rfl
  · rfl

theorem decodeEnc_isEncoder (t : EncToken) : (decodeEnc t).isEncoder = true := by
  unfold decodeEnc
  split
  · split <;> rfl
  · rfl

theorem decodeDec_isDecoder (t : DecToken) : (decodeDec t).isDecoder = true := by
  unfold decodeDec
  split
  · split <;> rfl
  · rfl

/-! The scheduler. -/

theorem step_of_legal {s : State} (h : s.enc.phase ≠ .illegal) : step s = moveStep s :=
  faultIfIllegal_of_legal h _

theorem step_host {s : State} {a : HostAction} {ms : List Move} (h : s.enc.phase ≠ .illegal)
    (hs : s.sched = .host a :: ms) : step s = .next (hostAction a (withSched ms s)) := by
  rw [step_of_legal h, moveStep, hs]

theorem step_turn {s : State} {t : Turn} {ms : List Move} (h : s.enc.phase ≠ .illegal)
    (hs : s.sched = .turn t :: ms) : step s = runTurn t (withSched ms s) := by
  rw [step_of_legal h, moveStep, hs]

theorem step_default {s : State} (h : s.enc.phase ≠ .illegal) (hs : s.sched = []) : step s = defaultStep s := by
  rw [step_of_legal h, moveStep, hs]

theorem runTurn_some {t : Turn} {s : State} {i : Instr} (h : select t s = some i) :
    runTurn t s = exec i (consume t s) := by
  rw [runTurn, h]

theorem runTurn_none {t : Turn} {s : State} (h : select t s = none) : runTurn t s = .next s := by
  rw [runTurn, h]

theorem idleStep_next {s t : State} :
    idleStep s = .next t ↔ s.encMark = none ∧ s.decMark = none ∧ t = s := by
  unfold idleStep
  cases s.encMark <;> cases s.decMark <;> simp [eq_comm]

/-- Everything a step can do when it answers a next state: a host action, a turn of the schedule, or with an empty
schedule a reset, a turn of the default host, or nothing. -/
theorem step_next_cases {s t : State} (h : step s = .next t) :
    s.enc.phase ≠ .illegal ∧
      ((∃ a ms, s.sched = .host a :: ms ∧ t = hostAction a (withSched ms s)) ∨
       (∃ u ms, s.sched = .turn u :: ms ∧ runTurn u (withSched ms s) = .next t) ∨
       (s.sched = [] ∧ s.rst = true ∧ exec .reset s = .next t) ∨
       (∃ u, s.sched = [] ∧ s.rst = false ∧ turnFires u s = true ∧ runTurn u s = .next t) ∨
       (s.sched = [] ∧ s.rst = false ∧ s.encMark = none ∧ s.decMark = none ∧ t = s)) := by
  have hl : s.enc.phase ≠ .illegal := (faultIfIllegal_next.mp h).1
  rw [step_of_legal hl] at h
  refine ⟨hl, ?_⟩
  unfold moveStep at h
  split at h
  · rename_i a ms hs
    exact .inl ⟨a, ms, hs, by simpa using h.symm⟩
  · rename_i u ms hs
    exact .inr (.inl ⟨u, ms, hs, h⟩)
  · rename_i hs
    unfold defaultStep at h
    split at h
    · rename_i hr
      exact .inr (.inr (.inl ⟨hs, hr, h⟩))
    · rename_i hr
      have hr' : s.rst = false := by simpa using hr
      split at h
      · rename_i u hu
        exact .inr (.inr (.inr (.inl ⟨u, hs, hr', by simpa using List.find?_some hu, h⟩)))
      · obtain ⟨he, hd, rfl⟩ := idleStep_next.mp h
        exact .inr (.inr (.inr (.inr ⟨hs, hr', he, hd, rfl⟩)))

end Sys2Proof.Machine
end

