-- ==== Sys2Proof/Laws/PerInstr.lean ====
section
/-! SUPPORT. What holds of every operation as syntax, one lemma per constructor: the shape of its word
(spec/30_encoding.md R46, R48, R49, R53). -/

namespace Sys2Proof.Laws.WordShape

/-- The operation's word, where it has one, has the width of its port's format and fits in it, and only an operation
that takes a token of a port has a word there. -/
def Statement (i : Instr) : Prop :=
  (∀ n w, encodeWord i = some (n, w) → w < 2 ^ n ∧ (n = 2 ∨ n = 9)) ∧
  ((∃ w, encodeWord i = some (2, w)) ↔ i.takesEncToken = true) ∧
  ((∃ w, encodeWord i = some (9, w)) ↔ i.takesDecToken = true)

theorem of_enc_token (i : Instr) (t : EncToken) (h : encode i = some (.enc t)) (he : i.takesEncToken = true)
    (hd : i.takesDecToken = false) : Statement i := by
  have ht := t.isLt
  refine ⟨?_, ?_, ?_⟩ <;> simp [encodeWord, h, he, hd, ht]

theorem of_dec_token (i : Instr) (t : DecToken) (h : encode i = some (.dec t)) (he : i.takesEncToken = false)
    (hd : i.takesDecToken = true) : Statement i := by
  have ht := t.isLt
  refine ⟨?_, ?_, ?_⟩ <;> simp [encodeWord, h, he, hd, ht]

theorem of_no_token (i : Instr) (h : encode i = none) (he : i.takesEncToken = false)
    (hd : i.takesDecToken = false) : Statement i := by
  refine ⟨?_, ?_, ?_⟩ <;> simp [encodeWord, h, he, hd]

theorem encBit (b : Bit) : Statement (.encBit b) := of_enc_token _ _ rfl rfl rfl

theorem encEnd : Statement (.encEnd) := of_enc_token _ _ rfl rfl rfl

theorem decByte (v : Byte) : Statement (.decByte v) := of_dec_token _ _ rfl rfl rfl

theorem decEnd : Statement (.decEnd) := of_dec_token _ _ rfl rfl rfl

theorem encZdrain : Statement (.encZdrain) := of_no_token _ rfl rfl rfl

theorem encOut : Statement (.encOut) := of_no_token _ rfl rfl rfl

theorem decExpand : Statement (.decExpand) := of_no_token _ rfl rfl rfl

theorem decOut : Statement (.decOut) := of_no_token _ rfl rfl rfl

theorem reset : Statement (.reset) := of_no_token _ rfl rfl rfl

theorem encReserved : Statement (.encReserved) := of_enc_token _ _ rfl rfl rfl

theorem decReserved (x : Byte) : Statement (.decReserved x) := of_dec_token _ _ rfl rfl rfl

end Sys2Proof.Laws.WordShape
end

