-- ==== Sys2Proof/Laws/Step.lean ====
section
/-! SUPPORT. Once for all operations and turns: everything each can do when it answers a next state. Later proofs split
on these cases and unfold neither `exec` nor the scheduler. -/

namespace Sys2Proof.Machine

/-- What an encoder operation that answers a next state can have done. -/
inductive EncEffect (i : Instr) (s t : State) : Prop where
  | waits (h : t = s)
  | takesBit (b : Bit) (hi : i = .encBit b) (hr : encInReady s = true)
      (h : t = withEnc (takeBit s.ovfPolicy b s.enc) s)
  | takesEnd (hi : i = .encEnd) (hr : encInReady s = true) (h : t = withEnc (takeEnd s.enc) s)
  | drains (hi : i = .encZdrain) (hr : zdrainSelected s = true) (h : t = withEnc (drainZero s.enc) s)
  | handsOver (hi : i = .encOut) (hr : encOutTransfer s = true)
      (h : t = withEnc (releaseByte s.enc) (receiveByte s))
  | refuses (hi : i = .encReserved) (hr : encInReady s = true) (h : t = markEnc .reservedEncToken s)

/-- What a decoder operation that answers a next state can have done. -/
inductive DecEffect (i : Instr) (s t : State) : Prop where
  | waits (h : t = s)
  | takesByte (v : Byte) (hi : i = .decByte v) (hr : decInReady s = true) (h : t = withDec (takeByte v s.dec) s)
  | takesEnd (hi : i = .decEnd) (hr : decInReady s = true) (h : t = withDec (takeDecEnd s.dec) s)
  | expands (hi : i = .decExpand) (hr : expandSelected s = true) (h : t = withDec (expandBit s.dec) s)
  | handsOver (hi : i = .decOut) (hr : decOutTransfer s = true)
      (h : t = withDec (releaseBit s.dec) (receiveBit s))
  | refuses (x : Byte) (hi : i = .decReserved x) (hr : decInReady s = true) (h : t = markDec .reservedDecToken s)

/-- The inversion of every encoder operation. -/
theorem exec_encoder_next {i : Instr} {s t : State} (hi : i.isEncoder = true) (h : exec i s = .next t) :
    s.enc.phase ≠ .illegal ∧ s.encMark = none ∧ EncEffect i s t := by
  cases i <;> simp only [Instr.isEncoder, reduceCtorEq] at hi <;>
    simp only [exec, execEncBit, execEncEnd, execEncZdrain, execEncOut, execEncReserved, encoderOp_next] at h <;>
    obtain ⟨hp, hm, ⟨hr, ht⟩ | ⟨-, ht⟩⟩ := h <;> refine ⟨hp, hm, ?_⟩ <;>
    first
    | exact .waits ht
    | exact .takesBit _ rfl hr ht
    | exact .takesEnd rfl hr ht
    | exact .drains rfl hr ht
    | exact .handsOver rfl hr ht
    | exact .refuses rfl hr ht

/-- The inversion of every decoder operation. -/
theorem exec_decoder_next {i : Instr} {s t : State} (hi : i.isDecoder = true) (h : exec i s = .next t) :
    s.decMark = none ∧ DecEffect i s t := by
  cases i <;> simp only [Instr.isDecoder, reduceCtorEq] at hi <;>
    simp only [exec, execDecByte, execDecEnd, execDecExpand, execDecOut, execDecReserved, decoderOp_next] at h <;>
    obtain ⟨hm, ⟨hr, ht⟩ | ⟨-, ht⟩⟩ := h <;> refine ⟨hm, ?_⟩ <;>
    first
    | exact .waits ht
    | exact .takesByte _ rfl hr ht
    | exact .takesEnd rfl hr ht
    | exact .expands rfl hr ht
    | exact .handsOver rfl hr ht
    | exact .refuses _ rfl hr ht

/-- Every operation is the encoder's, the decoder's or the reset of both. -/
theorem instr_cases (i : Instr) : i.isEncoder = true ∨ i.isDecoder = true ∨ i = .reset := by
  cases i <;> simp [Instr.isEncoder, Instr.isDecoder]

/-! Tokens and the operations they select. -/

theorem decodeEnc_encEnd {t : EncToken} : decodeEnc t = .encEnd ↔ t = 0b10#2 := by
  revert t
  decide

theorem decodeEnc_encBit {t : EncToken} {b : Bit} :
    decodeEnc t = .encBit b ↔ t = (if b then 0b01#2 else 0b00#2) := by
  revert t b
  decide

theorem decodeEnc_encReserved {t : EncToken} : decodeEnc t = .encReserved ↔ t = 0b11#2 := by
  revert t
  decide

theorem decodeDec_decEnd {t : DecToken} : decodeDec t = .decEnd ↔ t = 0x100#9 := by
  constructor
  · intro h
    unfold decodeDec at h
    split at h
    · rename_i hk
      split at h
      · rename_i hv
        simp only [decKind] at hk
        simp only [decValue] at hv
        have h8 : t.toNat / 256 % 2 = 1 := by
          have := hk
          rw [BitVec.getLsbD, Nat.testBit_eq_decide_div_mod_eq] at this
          simpa using this
        have hlow : t.toNat % 256 = 0 := by
          have := congrArg BitVec.toNat hv
          simpa using this
        have := t.isLt
        exact BitVec.eq_of_toNat_eq (by simp; omega)
      · cases h
    · cases h
  · rintro rfl
    decide

/-! The turns. -/

theorem select_of_rst {u : Turn} {s : State} (h : s.rst = true) : select u s = some .reset := by
  simp [select, h]

theorem consume_of_rst {u : Turn} {s : State} (h : s.rst = true) : consume u s = s := by
  cases u <;> simp [consume, encInReady, decInReady, h]

/-- Every turn with `rst = 1` is the reset (R106). -/
theorem runTurn_of_rst {u : Turn} {s : State} (h : s.rst = true) : runTurn u s = exec .reset s := by
  rw [runTurn_some (select_of_rst h), consume_of_rst h]

/-- What a turn with `rst = 0` that answers a next state can have done. -/
inductive TurnEffect (u : Turn) (s t : State) : Prop where
  | nothing (h : t = s)
  | takesBit (b : Bit) (hu : u = .encIn) (hm : s.encMark = none) (hr : encInReady s = true)
      (hd : s.encIn.head? = some (if b then 0b01#2 else 0b00#2))
      (h : t = withEnc (takeBit s.ovfPolicy b s.enc) (popEncIn s))
  | takesEncEnd (hu : u = .encIn) (hm : s.encMark = none) (hr : encInReady s = true)
      (hd : s.encIn.head? = some 0b10#2) (h : t = withEnc (takeEnd s.enc) (popEncIn s))
  | refusesEnc (hu : u = .encIn) (hm : s.encMark = none) (hr : encInReady s = true)
      (hd : s.encIn.head? = some 0b11#2) (h : t = markEnc .reservedEncToken (popEncIn s))
  | drains (hu : u = .encInternal) (hm : s.encMark = none) (hr : zdrainSelected s = true)
      (h : t = withEnc (drainZero s.enc) s)
  | handsOverByte (hu : u = .encOut) (hm : s.encMark = none) (hr : encOutTransfer s = true)
      (h : t = withEnc (releaseByte s.enc) (receiveByte s))
  | takesByte (v : Byte) (tok : DecToken) (hu : u = .decIn) (hm : s.decMark = none) (hr : decInReady s = true)
      (hd : s.decIn.head? = some tok) (hv : decodeDec tok = .decByte v)
      (h : t = withDec (takeByte v s.dec) (popDecIn s))
  | takesDecEnd (hu : u = .decIn) (hm : s.decMark = none) (hr : decInReady s = true)
      (hd : s.decIn.head? = some 0x100#9) (h : t = withDec (takeDecEnd s.dec) (popDecIn s))
  | refusesDec (x : Byte) (tok : DecToken) (hu : u = .decIn) (hm : s.decMark = none) (hr : decInReady s = true)
      (hd : s.decIn.head? = some tok) (hx : decodeDec tok = .decReserved x)
      (h : t = markDec .reservedDecToken (popDecIn s))
  | expands (hu : u = .decInternal) (hm : s.decMark = none) (hr : expandSelected s = true)
      (h : t = withDec (expandBit s.dec) s)
  | handsOverBit (hu : u = .decOut) (hm : s.decMark = none) (hr : decOutTransfer s = true)
      (h : t = withDec (releaseBit s.dec) (receiveBit s))

/-- The inversion of the encoder's input turn. -/
theorem runTurn_encIn_next {s t : State} (hrst : s.rst = false) (h : runTurn .encIn s = .next t) :
    TurnEffect .encIn s t := by
  unfold runTurn at h
  split at h
  · rename_i i hi
    simp only [select, hrst, offeredEncInstr, Bool.false_eq_true, if_false, Option.map_eq_some_iff] at hi
    obtain ⟨tok, hd, rfl⟩ := hi
    cases hr : encInReady s with
    | false =>
      simp only [consume, hr, Bool.false_eq_true, if_false] at h
      obtain ⟨-, -, e⟩ := exec_encoder_next (decodeEnc_isEncoder tok) h
      have hz := decodeEnc_takes tok
      cases e with
      | waits h => exact .nothing h
      | takesBit b hi hr' h => simp [hr] at hr'
      | takesEnd hi hr' h => simp [hr] at hr'
      | drains hi => simp [hi, Instr.takesEncToken] at hz
      | handsOver hi => simp [hi, Instr.takesEncToken] at hz
      | refuses hi hr' h => simp [hr] at hr'
    | true =>
      have hr' : encInReady (popEncIn s) = true := hr
      simp only [consume, hr, if_true] at h
      have hm : s.encMark = none := (exec_encoder_next (decodeEnc_isEncoder tok) h).2.1
      generalize hj : decodeEnc tok = j at h
      have hz : j.takesEncToken = true := hj ▸ decodeEnc_takes tok
      cases j <;> simp only [Instr.takesEncToken, reduceCtorEq] at hz <;>
        simp only [exec, execEncBit, execEncEnd, execEncReserved, encoderOp_next, hr', true_and, reduceCtorEq,
          false_and, or_false] at h
      · exact .takesBit _ rfl hm hr (by rw [hd, decodeEnc_encBit.mp hj]) h.2.2
      · exact .takesEncEnd rfl hm hr (by rw [hd, decodeEnc_encEnd.mp hj]) h.2.2
      · exact .refusesEnc rfl hm hr (by rw [hd, decodeEnc_encReserved.mp hj]) h.2.2
  · exact .nothing (by simpa using h.symm)

/-- The inversion of the decoder's input turn. -/
theorem runTurn_decIn_next {s t : State} (hrst : s.rst = false) (h : runTurn .decIn s = .next t) :
    TurnEffect .decIn s t := by
  unfold runTurn at h
  split at h
  · rename_i i hi
    simp only [select, hrst, offeredDecInstr, Bool.false_eq_true, if_false, Option.map_eq_some_iff] at hi
    obtain ⟨tok, hd, rfl⟩ := hi
    cases hr : decInReady s with
    | false =>
      simp only [consume, hr, Bool.false_eq_true, if_false] at h
      obtain ⟨-, e⟩ := exec_decoder_next (decodeDec_isDecoder tok) h
      have hz := decodeDec_takes tok
      cases e with
      | waits h => exact .nothing h
      | takesByte v hi hr' h => simp [hr] at hr'
      | takesEnd hi hr' h => simp [hr] at hr'
      | expands hi => simp [hi, Instr.takesDecToken] at hz
      | handsOver hi => simp [hi, Instr.takesDecToken] at hz
      | refuses x hi hr' h => simp [hr] at hr'
    | true =>
      have hr' : decInReady (popDecIn s) = true := hr
      simp only [consume, hr, if_true] at h
      have hm : s.decMark = none := (exec_decoder_next (decodeDec_isDecoder tok) h).1
      generalize hj : decodeDec tok = j at h
      have hz : j.takesDecToken = true := hj ▸ decodeDec_takes tok
      cases j <;> simp only [Instr.takesDecToken, reduceCtorEq] at hz <;>
        simp only [exec, execDecByte, execDecEnd, execDecReserved, decoderOp_next, hr', true_and, reduceCtorEq,
          false_and, or_false] at h
      · exact .takesByte _ tok rfl hm hr hd hj h.2
      · exact .takesDecEnd rfl hm hr (by rw [hd, decodeDec_decEnd.mp hj]) h.2
      · exact .refusesDec _ tok rfl hm hr hd hj h.2
  · exact .nothing (by simpa using h.symm)

/-- The inversion of every turn with `rst = 0`. -/
theorem runTurn_next {u : Turn} {s t : State} (hrst : s.rst = false) (h : runTurn u s = .next t) :
    TurnEffect u s t := by
  cases u with
  | encIn => exact runTurn_encIn_next hrst h
  | decIn => exact runTurn_decIn_next hrst h
  | encInternal =>
    cases hz : zdrainSelected s <;> simp [runTurn, select, hrst, hz, consume, exec, execEncZdrain, encoderOp_next] at h
    · exact .nothing h.symm
    · exact .drains rfl h.2.1 hz h.2.2
  | encOut =>
    cases hz : encOutTransfer s <;> simp [runTurn, select, hrst, hz, consume, exec, execEncOut, encoderOp_next] at h
    · exact .nothing h.symm
    · exact .handsOverByte rfl h.2.1 hz h.2.2
  | decInternal =>
    cases hz : expandSelected s <;> simp [runTurn, select, hrst, hz, consume, exec, execDecExpand, decoderOp_next] at h
    · exact .nothing h.symm
    · exact .expands rfl h.1 hz h.2
  | decOut =>
    cases hz : decOutTransfer s <;> simp [runTurn, select, hrst, hz, consume, exec, execDecOut, decoderOp_next] at h
    · exact .nothing h.symm
    · exact .handsOverBit rfl h.1 hz h.2

/-- A turn that answers a next state is a reset, or with `rst = 0` one of the effects above. -/
theorem runTurn_cases {u : Turn} {s t : State} (h : runTurn u s = .next t) :
    (s.rst = true ∧ t = resetRegisters s) ∨ (s.rst = false ∧ TurnEffect u s t) := by
  cases hr : s.rst with
  | true =>
    rw [runTurn_of_rst hr] at h
    exact .inl ⟨rfl, by simpa [hr] using (execReset_next.mp h).2⟩
  | false => exact .inr ⟨rfl, runTurn_next hr h⟩

/-- Everything a step can do when it answers a next state: `s'` is the state with the schedule moved on. -/
theorem step_next {s t : State} (h : step s = .next t) :
    s.enc.phase ≠ .illegal ∧
      ((∃ a ms, s.sched = .host a :: ms ∧ t = hostAction a (withSched ms s)) ∨
       ∃ ms, (s.sched = [] ∧ ms = [] ∨ ∃ u, s.sched = .turn u :: ms) ∧
         ((s.rst = true ∧ t = resetRegisters (withSched ms s)) ∨
          (s.rst = false ∧ ∃ u, TurnEffect u (withSched ms s) t))) := by
  obtain ⟨hl, c⟩ := step_next_cases h
  refine ⟨hl, ?_⟩
  have hself : s.sched = [] → withSched [] s = s := by
    intro h
    cases s
    simp_all [withSched]
  rcases c with hhost | ⟨u, ms, hs, e⟩ | ⟨hs, hr, e⟩ | ⟨u, hs, hr, -, e⟩ | ⟨hs, hr, -, -, rfl⟩
  · exact .inl hhost
  · refine .inr ⟨ms, .inr ⟨u, hs⟩, ?_⟩
    rcases runTurn_cases e with ⟨hr, ht⟩ | ⟨hr, ht⟩
    · exact .inl ⟨hr, ht⟩
    · exact .inr ⟨hr, u, ht⟩
  · refine .inr ⟨[], .inl ⟨hs, rfl⟩, .inl ⟨hr, ?_⟩⟩
    rw [hself hs]
    simpa [hr] using (execReset_next.mp e).2
  · refine .inr ⟨[], .inl ⟨hs, rfl⟩, .inr ⟨hr, u, ?_⟩⟩
    rw [hself hs]
    exact runTurn_next hr e
  · refine .inr ⟨[], .inl ⟨hs, rfl⟩, .inr ⟨hr, .encIn, .nothing ?_⟩⟩
    exact (hself hs).symm

end Sys2Proof.Machine
end

