-- ==== Sys2Proof/Laws/Run.lean ====
section
/-! SUPPORT. Runs of the core: the induction over steps, packaged once, and what a firing turn does. -/

namespace Sys2Proof.Machine

/-- A run of `n` steps from a state. -/
abbrev runFor (n : Nat) (s : State) : Host.Outcome State Fault Refusal := Host.Core.run Sys2Proof.core n s

theorem runFor_zero (s : State) : runFor 0 s = .next s := rfl

/-- The recursion of `Host.Core.run`, whatever the core. -/
theorem coreRun_succ (M : Host.Core) (n : Nat) (s : M.State) :
    M.run (n + 1) s = (match M.step s with
      | .next s' => M.run n s'
      | .fault r => .fault r
      | .refused r => .refused r) := rfl

theorem coreRun_succ_of_next (M : Host.Core) {n : Nat} {s t : M.State} (h : M.step s = .next t) :
    M.run (n + 1) s = M.run n t := by
  rw [coreRun_succ, h]

theorem coreRun_succ_next (M : Host.Core) {n : Nat} {s t : M.State} (h : M.run (n + 1) s = .next t) :
    ∃ u, M.step s = .next u ∧ M.run n u = .next t := by
  rw [coreRun_succ] at h
  split at h
  · rename_i u hu
    exact ⟨u, hu, h⟩
  · cases h
  · cases h

theorem runFor_succ {s t : State} (n : Nat) (h : step s = .next t) : runFor (n + 1) s = runFor n t :=
  coreRun_succ_of_next Sys2Proof.core h

theorem runFor_succ_next {s t : State} {n : Nat} (h : runFor (n + 1) s = .next t) :
    ∃ u, step s = .next u ∧ runFor n u = .next t :=
  coreRun_succ_next Sys2Proof.core h

/-- What every step keeps, every run keeps. -/
theorem runFor_keeps {P : State → Prop} (hstep : ∀ s t, P s → step s = .next t → P t) :
    ∀ (n : Nat) (s t : State), P s → runFor n s = .next t → P t
  | 0, s, t, hs, h => by
    cases h
    exact hs
  | n + 1, s, t, hs, h => by
    obtain ⟨u, hu, hn⟩ := runFor_succ_next h
    exact runFor_keeps hstep n u t (hstep s u hs hu) hn

/-- A measure that falls with every step until `Q` holds leads to `Q`. -/
theorem runFor_reaches {P Q : State → Prop} (measure : State → Nat)
    (hstep : ∀ s, P s → Q s ∨ ∃ t, step s = .next t ∧ P t ∧ measure t < measure s) :
    ∀ s, P s → ∃ n t, runFor n s = .next t ∧ P t ∧ Q t := by
  intro s
  induction hm : measure s using Nat.strong_induction_on generalizing s with
  | _ m ih =>
    intro hs
    rcases hstep s hs with hq | ⟨t, ht, hp, hlt⟩
    · exact ⟨0, s, rfl, hs, hq⟩
    · obtain ⟨n, v, hn, hv⟩ := ih (measure t) (hm ▸ hlt) t rfl hp
      exact ⟨n + 1, v, by rw [runFor_succ n ht]; exact hn, hv⟩

/-! What the default host does where a turn fires. -/

theorem defaultTurn_fires {s : State} {u : Turn} (h : defaultTurn s = some u) : turnFires u s = true := by
  simpa using List.find?_some h

theorem defaultTurn_none {s : State} (h : defaultTurn s = none) (u : Turn) : turnFires u s = false := by
  have := List.find?_eq_none.mp h u (by cases u <;> simp [turnOrder])
  simpa using this

theorem step_of_defaultTurn {s : State} {u : Turn} (hp : s.enc.phase ≠ .illegal) (hr : s.rst = false)
    (hs : s.sched = []) (hd : defaultTurn s = some u) : step s = runTurn u s := by
  rw [step_default hp hs, defaultStep, hd]
  simp [hr]

/-- The encoder's internal turn, where it fires. -/
theorem runTurn_encInternal_fires {s : State} (hp : s.enc.phase ≠ .illegal)
    (h : turnFires .encInternal s = true) : runTurn .encInternal s = .next (withEnc (drainZero s.enc) s) := by
  simp only [turnFires, Bool.and_eq_true, Option.isNone_iff_eq_none] at h
  have hr := (zdrainSelected_iff s).mp h.2
  rw [runTurn_some (i := .encZdrain) (by simp [select, hr.1, h.2])]
  simp only [consume, exec, execEncZdrain, encoderOp_of_legal hp h.1, h.2, if_true]

/-- The encoder's output turn, where it fires. -/
theorem runTurn_encOut_fires {s : State} (hp : s.enc.phase ≠ .illegal) (h : turnFires .encOut s = true) :
    runTurn .encOut s = .next (withEnc (releaseByte s.enc) (receiveByte s)) := by
  simp only [turnFires, Bool.and_eq_true, Option.isNone_iff_eq_none] at h
  have hr := (encOutTransfer_iff s).mp h.2
  rw [runTurn_some (i := .encOut) (by simp [select, hr.1, h.2])]
  simp only [consume, exec, execEncOut, encoderOp_of_legal hp h.1, h.2, if_true]

/-- The decoder's internal turn, where it fires. -/
theorem runTurn_decInternal_fires {s : State} (h : turnFires .decInternal s = true) :
    runTurn .decInternal s = .next (withDec (expandBit s.dec) s) := by
  simp only [turnFires, Bool.and_eq_true, Option.isNone_iff_eq_none] at h
  have hr := (expandSelected_iff s).mp h.2
  rw [runTurn_some (i := .decExpand) (by simp [select, hr.1, h.2])]
  simp only [consume, exec, execDecExpand, decoderOp_of_unmarked h.1, h.2, if_true]

/-- The decoder's output turn, where it fires. -/
theorem runTurn_decOut_fires {s : State} (h : turnFires .decOut s = true) :
    runTurn .decOut s = .next (withDec (releaseBit s.dec) (receiveBit s)) := by
  simp only [turnFires, Bool.and_eq_true, Option.isNone_iff_eq_none] at h
  have hr := (decOutTransfer_iff s).mp h.2
  rw [runTurn_some (i := .decOut) (by simp [select, hr.1, h.2])]
  simp only [consume, exec, execDecOut, decoderOp_of_unmarked h.1, h.2, if_true]

/-- The encoder's input turn, where it fires on the token `tok`. -/
theorem runTurn_encIn_fires {s : State} {tok : EncToken} {toks : List EncToken} (h : turnFires .encIn s = true)
    (hi : s.encIn = tok :: toks) : runTurn .encIn s = exec (decodeEnc tok) { s with encIn := toks } := by
  simp only [turnFires, Bool.and_eq_true] at h
  have hr := (encInReady_iff s).mp h.2
  rw [runTurn_some (i := decodeEnc tok) (by simp [select, hr.1, offeredEncInstr, hi])]
  simp [consume, h.2, popEncIn, hi]

/-- The decoder's input turn, where it fires on the token `tok`. -/
theorem runTurn_decIn_fires {s : State} {tok : DecToken} {toks : List DecToken} (h : turnFires .decIn s = true)
    (hi : s.decIn = tok :: toks) : runTurn .decIn s = exec (decodeDec tok) { s with decIn := toks } := by
  simp only [turnFires, Bool.and_eq_true] at h
  have hr := (decInReady_iff s).mp h.2
  rw [runTurn_some (i := decodeDec tok) (by simp [select, hr.1, offeredDecInstr, hi])]
  simp [consume, h.2, popDecIn, hi]

end Sys2Proof.Machine
end

