-- ==== Sys2Proof/Laws/Streams.lean ====
section
/-! SUPPORT. The stream functions, one small lemma per shape of their arguments (spec/43_stream_functions.md R80, R81). -/

namespace Sys2Proof.Machine

@[simp] theorem runs_nil : runs [] = [] := rfl

@[simp] theorem runs_singleton (b : Bit) : runs [b] = [(b, 1)] := rfl

/-- A first bit equal to the second lengthens the first run. -/
theorem runs_cons_same (b : Bit) (n : Nat) (bs : List Bit) (rs : List (Bit × Nat)) (h : runs bs = (b, n) :: rs) :
    runs (b :: bs) = (b, n + 1) :: rs := by
  simp [runs, h]

/-- A first bit that differs from the second is a run of its own. -/
theorem runs_cons_differs (b c : Bit) (n : Nat) (bs : List Bit) (rs : List (Bit × Nat)) (h : runs bs = (c, n) :: rs)
    (hbc : b ≠ c) : runs (b :: bs) = (b, 1) :: (c, n) :: rs := by
  simp [runs, h, hbc]

/-- A block of one bit value is one run. -/
theorem runs_replicate (b : Bit) (n : Nat) : runs (List.replicate (n + 1) b) = [(b, n + 1)] := by
  induction n with
  | zero => rfl
  | succ n ih =>
    rw [List.replicate_succ]
    exact runs_cons_same b (n + 1) _ [] ih

@[simp] theorem encodeStream_nil (p : Policy) : encodeStream p [] = [] := rfl

@[simp] theorem decodeStream_nil : decodeStream [] = [] := rfl

@[simp] theorem decodeFrom_nil (i : Nat) : decodeFrom i [] = [] := rfl

@[simp] theorem decodeFrom_cons (i : Nat) (v : Byte) (vs : List Byte) :
    decodeFrom i (v :: vs) = List.replicate v.toNat (polarity i) ++ decodeFrom (i + 1) vs := rfl

@[simp] theorem byteSum_nil : byteSum [] = 0 := rfl

@[simp] theorem byteSum_cons (v : Byte) (vs : List Byte) : byteSum (v :: vs) = v.toNat + byteSum vs := rfl

/-- The polarity alternates from byte to byte. -/
theorem polarity_succ (i : Nat) : polarity (i + 1) = !polarity i := by
  by_cases h : i % 2 = 1
  · have h' : (i + 1) % 2 ≠ 1 := by omega
    simp [polarity, h, h']
  · have h' : (i + 1) % 2 = 1 := by omega
    simp [polarity, h, h']

/-- Decoding a concatenation decodes the second part at the byte index where it starts. -/
theorem decodeFrom_append (i : Nat) (xs ys : List Byte) :
    decodeFrom i (xs ++ ys) = decodeFrom i xs ++ decodeFrom (i + xs.length) ys := by
  induction xs generalizing i with
  | nil => simp
  | cons x xs ih => simp [ih, Nat.add_assoc, Nat.add_comm 1]

theorem byteSum_append (xs ys : List Byte) : byteSum (xs ++ ys) = byteSum xs + byteSum ys := by
  induction xs with
  | nil => simp
  | cons x xs ih => simp [ih, Nat.add_assoc]

/-- What an encoding is made of, first bit 0 or 1. -/
theorem encodeStream_cons (p : Policy) (b : Bit) (bs : List Bit) :
    encodeStream p (b :: bs) =
      (if b then [0#8] else []) ++ (runs (b :: bs)).flatMap (fun r => segment p r.2) := by
  cases b <;> rfl

end Sys2Proof.Machine
end

