-- ==== Sys2Proof/Laws/Tokens.lean ====
section
/-! SUPPORT. The tokens still to pass, queued and scheduled (spec/20_memory.md R39): no move of the schedule changes
them but the transfer of the oldest. -/

namespace Sys2Proof.Machine

/-- With nothing scheduled they are the queue. -/
theorem encTokensToCome_idle {s : State} (h : s.sched = []) : encTokensToCome s = s.encIn := by
  simp [encTokensToCome, h]

theorem decTokensToCome_idle {s : State} (h : s.sched = []) : decTokensToCome s = s.decIn := by
  simp [decTokensToCome, h]

/-- A turn is no offer. -/
theorem encTokensToCome_turn {s : State} {t : Turn} {ms : List Move} (h : s.sched = .turn t :: ms) :
    encTokensToCome (withSched ms s) = encTokensToCome s := by
  simp [encTokensToCome, h, offeredEncToken, List.filterMap_cons]

theorem decTokensToCome_turn {s : State} {t : Turn} {ms : List Move} (h : s.sched = .turn t :: ms) :
    decTokensToCome (withSched ms s) = decTokensToCome s := by
  simp [decTokensToCome, h, offeredDecToken, List.filterMap_cons]

/-- A host action moves a token from the schedule to the end of its queue, or touches none. -/
theorem encTokensToCome_host {s : State} {a : HostAction} {ms : List Move} (h : s.sched = .host a :: ms) :
    encTokensToCome (hostAction a (withSched ms s)) = encTokensToCome s := by
  cases a with
  | strap p =>
    simp only [hostAction, driveStrap]
    split <;> simp [encTokensToCome, h, offeredEncToken, List.filterMap_cons, markEnc]
  | _ => simp [encTokensToCome, h, offeredEncToken, List.filterMap_cons, hostAction]

theorem decTokensToCome_host {s : State} {a : HostAction} {ms : List Move} (h : s.sched = .host a :: ms) :
    decTokensToCome (hostAction a (withSched ms s)) = decTokensToCome s := by
  cases a with
  | strap p =>
    simp only [hostAction, driveStrap]
    split <;> simp [decTokensToCome, h, offeredDecToken, List.filterMap_cons, markEnc]
  | _ => simp [decTokensToCome, h, offeredDecToken, List.filterMap_cons, hostAction]

end Sys2Proof.Machine
end

