-- ==== Sys2Proof/Tests/Slice0.lean ====
section
/-! SUPPORT. The model's own tests. Expected values come from spec/95_test_vectors.md (rows named V-…, W… and P… below)
and from the encodings of spec/30_encoding.md. A theorem named `witness_…` shows that the hypotheses of the statement
of that name can be met, each clause in turn. -/

namespace Sys2Proof.Tests.Slice0

open Sys2Proof.Machine

/-! ## Helpers -/

/-- The outcome is a next state that passes `p`. -/
def nextIs (o : Host.Outcome State Fault Refusal) (p : State → Bool) : Bool :=
  match o with
  | .next t => p t
  | .fault _ => false
  | .refused _ => false

/-- The outcome is that fault. -/
def faultIs (o : Host.Outcome State Fault Refusal) (f : Fault) : Bool :=
  match o with
  | .next _ => false
  | .fault g => g == f
  | .refused _ => false

/-- The outcome is that refusal. -/
def refusedIs (o : Host.Outcome State Fault Refusal) (r : Refusal) : Bool :=
  match o with
  | .next _ => false
  | .fault _ => false
  | .refused q => q == r

/-- The outcome is a next state. -/
def completes (o : Host.Outcome State Fault Refusal) : Bool := nextIs o (fun _ => true)

/-- The reset state with the encoder registers in the order of the vectors. -/
def encAt (phase : EncPhase) (cur : Bit) (run : Byte) (zpend : Bit) (obuf : Byte) (ovalid : Bit) : State :=
  { State.reset with enc := ⟨phase, cur, run, zpend, obuf, ovalid⟩ }

/-- The reset state with the decoder registers in the order of the vectors. -/
def decAt (phase : DecPhase) (bit : Bit) (rem : Byte) (obit : Bit) (ovalid : Bit) : State :=
  { State.reset with dec := ⟨phase, bit, rem, obit, ovalid⟩ }

/-- The same state under `SYNTH_ZERO`. -/
def synth (s : State) : State := { s with ovfPolicy := .synthZero, policyAtReset := .synthZero }

/-- The state with that turn scheduled. -/
def atTurn (t : Turn) (s : State) : State := { s with sched := [.turn t] }

/-- The state with that host action scheduled. -/
def atHost (a : HostAction) (s : State) : State := { s with sched := [.host a] }

/-- The encoder registers of a state are those. -/
def encIs (phase : EncPhase) (cur : Bit) (run : Byte) (zpend : Bit) (obuf : Byte) (ovalid : Bit) (t : State) : Bool :=
  t.enc == ⟨phase, cur, run, zpend, obuf, ovalid⟩

/-- The decoder registers of a state are those. -/
def decIs (phase : DecPhase) (bit : Bit) (rem : Byte) (obit : Bit) (ovalid : Bit) (t : State) : Bool :=
  t.dec == ⟨phase, bit, rem, obit, ovalid⟩

/-! ## Well-formedness, decoding and encoding -/

theorem test_ill_formed_reserved_zero : (Instr.decReserved 0#8).wellFormed = false := by decide

theorem test_well_formed_reserved : (Instr.decReserved 1#8).wellFormed = true := by decide

theorem test_decode_enc_bit_zero : decodeTableWord 8 0b00000000 = some (.encBit false) := by decide
theorem test_decode_enc_bit_one : decodeTableWord 8 0b00000001 = some (.encBit true) := by decide
theorem test_decode_enc_end : decodeTableWord 8 0b00000010 = some .encEnd := by decide
theorem test_decode_enc_reserved : decodeTableWord 8 0b00000011 = some .encReserved := by decide
theorem test_decode_dec_byte : decodeTableWord 16 0b0000000010100101 = some (.decByte 165#8) := by decide
theorem test_decode_dec_end : decodeTableWord 16 0b0000000100000000 = some .decEnd := by decide
theorem test_decode_dec_reserved_low : decodeTableWord 16 0b0000000100000001 = some (.decReserved 1#8) := by decide
theorem test_decode_dec_reserved_high : decodeTableWord 16 0b0000000111111111 = some (.decReserved 255#8) := by decide

/-- The operations of R49 are selected by no token. -/
theorem test_internal_operations_have_no_token :
    encode .encZdrain = none ∧ encode .encOut = none ∧ encode .decExpand = none ∧ encode .decOut = none ∧
    encode .reset = none := by decide

theorem test_decode_bytes_low_byte_first : decodeBytes true [0x05#8, 0x00#8] = .ok (.decByte 5#8) := by rfl

theorem test_decode_bytes_names_the_error : decodeBytes true [0x00#8, 0x02#8] = .error .wideDecToken := by rfl

/-- R35: bit 7 first. -/
theorem test_serialise_msb_first :
    serialiseByte 0x81#8 = [true, false, false, false, false, false, false, true] ∧
    bigEndianValue (serialiseByte 0x2D#8) = 45 := by decide

/-! ## Encoder operations -/

/-- V-E4. -/
theorem test_enc_bit_different_ends_run :
    nextIs (exec (.encBit true) (encAt .run false 4#8 false 0#8 false)) (encIs .run true 1#8 false 4#8 true) = true := by
  decide

/-- V-E8. -/
theorem test_enc_bit_overflow_synth_zero :
    nextIs (exec (.encBit false) (synth (encAt .run false 255#8 false 0#8 false)))
      (encIs .run false 1#8 true 255#8 true) = true := by decide

/-- V-E9. -/
theorem test_enc_zdrain :
    nextIs (exec .encZdrain (synth (encAt .run false 1#8 true 255#8 false)))
      (encIs .run false 1#8 false 0#8 true) = true := by decide

/-- V-E12. -/
theorem test_enc_end_emits_run :
    nextIs (exec .encEnd (encAt .run true 7#8 false 0#8 false))
      (fun t => encIs .done true 7#8 false 7#8 true t && !encDone t) = true := by decide

/-- V-E11. -/
theorem test_enc_end_of_empty_input :
    nextIs (exec .encEnd State.reset) (fun t => encIs .done false 0#8 false 0#8 false t && encDone t) = true := by decide

/-- V-E14. -/
theorem test_enc_out :
    nextIs (exec .encOut (encAt .run false 1#8 false 5#8 true))
      (fun t => encIs .run false 1#8 false 5#8 false t && t.encOut == [5#8]) = true := by decide

/-- V-E17. -/
theorem test_enc_reserved_refuses :
    nextIs (step (atTurn .encIn { encAt .run true 2#8 false 0#8 false with encIn := [0b11#2] }))
      (fun t => t.encMark == some .reservedEncToken && t.encIn == [] && refusedIs (step t) .reservedEncToken) = true := by
  decide

/-- V-E18 and V-E19. -/
theorem test_policy_change :
    nextIs (step (atHost (.strap .synthZero) (encAt .run true 2#8 false 0#8 false)))
      (fun t => t.encMark == some .policyChanged) = true ∧
    nextIs (step (atHost (.strap .synthZero) (encAt .done true 2#8 false 2#8 false)))
      (fun t => t.encMark == none) = true := by decide

/-- V-E20. -/
theorem test_illegal_phase_faults :
    faultIs (step (encAt .illegal false 0#8 false 0#8 false)) .illegalEncoderPhase = true := by decide

/-! ## Decoder operations -/

/-- V-D1. -/
theorem test_dec_byte_zero_flips :
    nextIs (exec (.decByte 0#8) State.reset) (decIs .active true 0#8 false false) = true := by decide

/-- V-D9. -/
theorem test_dec_byte_while_output_full :
    nextIs (exec (.decByte 2#8) (decAt .active true 0#8 false true)) (decIs .active true 2#8 false true) = true := by
  decide

/-- V-D5. -/
theorem test_dec_expand_mid_run :
    nextIs (exec .decExpand (decAt .active false 3#8 false false)) (decIs .active false 2#8 false true) = true := by
  decide

/-- V-D7. -/
theorem test_dec_expand_last_flips :
    nextIs (exec .decExpand (decAt .active true 1#8 true false)) (decIs .active false 0#8 true true) = true := by decide

/-- V-D12. -/
theorem test_dec_end :
    nextIs (exec .decEnd (decAt .active true 0#8 false true))
      (fun t => decIs .done true 0#8 false true t && !decDone t) = true := by decide

/-- V-D13. -/
theorem test_dec_out :
    nextIs (exec .decOut (decAt .done true 0#8 false true))
      (fun t => decIs .done true 0#8 false false t && t.decOut == [false] && decDone t) = true := by decide

/-- V-D15 and V-D16. -/
theorem test_dec_reserved_refuses :
    nextIs (step (atTurn .decIn { State.reset with decIn := [0x101#9] }))
      (fun t => t.decMark == some .reservedDecToken) = true ∧
    nextIs (step (atTurn .decIn { State.reset with decIn := [0x1FF#9] }))
      (fun t => t.decMark == some .reservedDecToken && t.dec == Dec.atReset) = true := by decide

/-! ## Reset -/

/-- V-R1: the held byte and bit are discarded and never received. -/
theorem test_reset :
    nextIs (exec .reset { encAt .run true 1#8 false 7#8 true with dec := ⟨.active, true, 9#8, true, true⟩, rst := true })
      (fun t => encIs .empty false 0#8 false 0#8 false t && decIs .active false 0#8 false false t &&
        t.encOut == [] && t.decOut == []) = true := by decide

/-- V-R2: the offered token is not consumed. -/
theorem test_reset_keeps_offered_token :
    nextIs (step (atTurn .encIn { State.reset with rst := true, encIn := [0b01#2] }))
      (fun t => t.encIn == [0b01#2] && t.enc == Enc.atReset) = true := by decide

/-! ## Stream functions -/

/-- W1, W2 (R82). -/
theorem test_empty_streams :
    encodeStream .literal [] = [] ∧ encodeStream .synthZero [] = [] ∧ decodeStream [] = [] := by decide

/-- W5, W6. -/
theorem test_leading_zero_byte :
    encodeStream .literal [true, true, false, false, false] = [0#8, 2#8, 3#8] ∧
    decodeStream [0#8, 2#8, 3#8] = [true, true, false, false, false] := by decide

/-- W8 (V-S5): a run of 256. -/
theorem test_run_of_256 :
    encodeStream .literal (List.replicate 256 false) = [255#8, 1#8] ∧
    encodeStream .synthZero (List.replicate 256 false) = [255#8, 0#8, 1#8] := by
  have h : runs (List.replicate 256 false) = [(false, 256)] := runs_replicate false 255
  constructor <;>
    (rw [show List.replicate 256 false = false :: List.replicate 255 false from rfl, encodeStream_cons,
      show false :: List.replicate 255 false = List.replicate 256 false from rfl, h]
     decide)

/-- P5: both ENDs. -/
theorem test_empty_program :
    nextIs (runFor 2 (loadProgram [encodeForm [], decodeForm []] State.reset))
      (fun t => encDone t && decDone t && t.encOut == [] && t.decOut == []) = true := by decide

/-! ## Witnesses of the statements' hypotheses -/

theorem witness_TokensDecodeByTheTables :
    (0x0FF#9).getLsbD 8 = false ∧
    (0x000#9).getLsbD 8 = false ∧
    (0x101#9).getLsbD 8 = true ∧ (0x101#9).toNat % 256 ≠ 0 ∧
    (0x1FF#9).getLsbD 8 = true ∧ (0x1FF#9).toNat % 256 ≠ 0 := by decide

theorem witness_DecodeOfEncodeIsTheOperation :
    (Instr.decReserved 1#8).wellFormed = true ∧ (Instr.decReserved 255#8).wellFormed = true ∧
    encode (.decReserved 255#8) = some (.dec 0x1FF#9) ∧
    encode (.decByte 255#8) = some (.dec 0x0FF#9) ∧
    encodeWord .encReserved = some (2, 3) := by decide

theorem witness_EncodeOfDecodeIsTheToken :
    decode (.dec 0x1FF#9) = decode (.dec 0x1FF#9) ∧ decode (.enc 0b11#2) = decode (.enc 0b11#2) := by decide

theorem witness_SignalsAreTheFunctionsOfTheRegisters :
    ∃ s u : State, u.enc = s.enc ∧ u.dec = s.dec ∧ u.rst = s.rst ∧
      u ≠ s := ⟨State.reset, { State.reset with encIn := [0b01#2], decOutReady := false }, by decide⟩

theorem witness_EncBitTakesOneBit :
    (let s := State.reset; s.enc.phase ≠ .illegal ∧ s.encMark = none ∧ s.rst = false ∧ s.enc.zpend = false ∧
      s.enc.ovalid = false ∧ s.enc.phase = .empty) ∧
    (let s := (encAt .run true 254#8 false 0#8 false); s.enc.phase ≠ .illegal ∧ s.encMark = none ∧ s.rst = false ∧
      s.enc.zpend = false ∧ s.enc.ovalid = false ∧ s.enc.phase = .run ∧ true = s.enc.cur ∧ s.enc.run ≠ 255#8) ∧
    (let s := (encAt .run true 255#8 false 0#8 false); s.enc.phase ≠ .illegal ∧ s.encMark = none ∧ s.rst = false ∧
      s.enc.zpend = false ∧ s.enc.ovalid = false ∧ s.enc.phase = .run ∧ true = s.enc.cur ∧ s.enc.run = 255#8) ∧
    (let s := (encAt .run true 255#8 false 0#8 false); s.enc.phase ≠ .illegal ∧ s.encMark = none ∧ s.rst = false ∧
      s.enc.zpend = false ∧ s.enc.ovalid = false ∧ s.enc.phase = .run ∧ false ≠ s.enc.cur) ∧
    (let s := { State.reset with rst := true }; s.enc.phase ≠ .illegal ∧ s.encMark = none ∧ s.rst = true) ∧
    (let s := (encAt .done true 1#8 false 0#8 false); s.enc.phase ≠ .illegal ∧ s.encMark = none ∧
      s.enc.phase = .done) ∧
    (let s := (synth (encAt .run true 1#8 true 255#8 false)); s.enc.phase ≠ .illegal ∧ s.encMark = none ∧
      s.enc.zpend = true) ∧
    (let s := (encAt .run true 1#8 false 5#8 true); s.enc.phase ≠ .illegal ∧ s.encMark = none ∧
      s.enc.ovalid = true) := by decide

theorem witness_OverflowRestartEmits255 :
    (let s := (encAt .run true 255#8 false 0#8 false); s.encMark = none ∧ s.rst = false ∧ s.enc.phase = .run ∧
      s.enc.zpend = false ∧ s.enc.ovalid = false ∧
      s.enc.run = 255#8 ∧ s.ovfPolicy = .literal) ∧
    (let s := (synth (encAt .run false 255#8 false 0#8 false)); s.encMark = none ∧ s.rst = false ∧
      s.enc.phase = .run ∧ s.enc.zpend = false ∧ s.enc.ovalid = false ∧
      s.enc.run = 255#8 ∧ s.ovfPolicy = .synthZero) := by decide

theorem witness_EncZdrainEmitsTheOwedZero :
    (let s := (synth (encAt .run false 1#8 true 255#8 false)); s.enc.phase ≠ .illegal ∧ s.encMark = none ∧
      s.rst = false ∧ s.enc.zpend = true ∧ s.enc.ovalid = false) ∧
    (let s := (synth (encAt .run false 1#8 true 255#8 true)); s.enc.phase ≠ .illegal ∧ s.encMark = none ∧
      s.enc.ovalid = true) ∧
    (let s := State.reset; s.enc.phase ≠ .illegal ∧ s.encMark = none ∧ s.enc.zpend = false) ∧
    (let s := { State.reset with rst := true }; s.enc.phase ≠ .illegal ∧ s.encMark = none ∧ s.rst = true) ∧
    (let s := (encAt .run true 255#8 false 0#8 false); s.enc.phase ≠ .illegal ∧ s.encMark = none ∧ MachineInv s ∧
      s.policyAtReset = .literal) := by decide

theorem witness_EncEndEmitsThePendingRun :
    (let s := State.reset; s.enc.phase ≠ .illegal ∧ s.encMark = none ∧ s.rst = false ∧ s.enc.zpend = false ∧
      s.enc.ovalid = false ∧ s.enc.phase = .empty) ∧
    (let s := (encAt .run false 255#8 false 0#8 false); s.enc.phase ≠ .illegal ∧ s.encMark = none ∧ s.rst = false ∧
      s.enc.zpend = false ∧ s.enc.ovalid = false ∧ s.enc.phase = .run) ∧
    (let s := (encAt .done false 3#8 false 3#8 false); s.enc.phase ≠ .illegal ∧ s.encMark = none ∧
      s.enc.phase = .done) ∧
    (let s := (synth (encAt .run false 1#8 true 255#8 false)); s.enc.phase ≠ .illegal ∧ s.encMark = none ∧
      s.enc.zpend = true) ∧
    (let s := (encAt .run false 1#8 false 5#8 true); s.enc.phase ≠ .illegal ∧ s.encMark = none ∧
      s.enc.ovalid = true) ∧
    (let s := { State.reset with rst := true }; s.enc.phase ≠ .illegal ∧ s.encMark = none ∧ s.rst = true) := by decide

theorem witness_EncOutHandsOverTheByte :
    (let s := (encAt .done false 3#8 false 255#8 true); s.enc.phase ≠ .illegal ∧ s.encMark = none ∧ s.rst = false ∧
      s.enc.ovalid = true ∧ s.encOutReady = true) ∧
    (let s := { (encAt .done false 3#8 false 255#8 true) with encOutReady := false }; s.enc.phase ≠ .illegal ∧
      s.encMark = none ∧ s.encOutReady = false) ∧
    (let s := State.reset; s.enc.phase ≠ .illegal ∧ s.encMark = none ∧ s.enc.ovalid = false) ∧
    (let s := { State.reset with rst := true }; s.enc.phase ≠ .illegal ∧ s.encMark = none ∧ s.rst = true) := by decide

theorem witness_DecByteLoadsOrFlips :
    (let s := (decAt .active true 0#8 false true); s.decMark = none ∧ s.rst = false ∧ s.dec.phase = .active ∧
      s.dec.rem = 0#8) ∧
    (0#8 = 0#8 ∧ 1#8 ≠ 0#8 ∧ 255#8 ≠ 0#8) ∧
    (let s := (decAt .done true 0#8 false false); s.decMark = none ∧ s.dec.phase = .done) ∧
    (let s := (decAt .active true 255#8 false false); s.decMark = none ∧ s.dec.rem ≠ 0#8) ∧
    (let s := { State.reset with rst := true }; s.decMark = none ∧ s.rst = true) := by decide

theorem witness_DecExpandWritesOneBit :
    (let s := (decAt .active true 1#8 false false); s.decMark = none ∧ s.rst = false ∧ s.dec.ovalid = false ∧
      s.dec.rem = 1#8) ∧
    (let s := (decAt .active true 2#8 false false); s.decMark = none ∧ s.rst = false ∧ s.dec.ovalid = false ∧
      s.dec.rem ≠ 0#8 ∧ s.dec.rem ≠ 1#8) ∧
    (let s := (decAt .active true 255#8 false false); s.decMark = none ∧ s.rst = false ∧ s.dec.ovalid = false ∧
      s.dec.rem ≠ 0#8 ∧ s.dec.rem ≠ 1#8) ∧
    (let s := State.reset; s.decMark = none ∧ s.dec.rem = 0#8) ∧
    (let s := (decAt .active true 2#8 false true); s.decMark = none ∧ s.dec.ovalid = true) ∧
    (let s := { State.reset with rst := true }; s.decMark = none ∧ s.rst = true) := by decide

theorem witness_DecEndEndsTheStream :
    (let s := (decAt .active true 0#8 false true); s.decMark = none ∧ s.rst = false ∧ s.dec.phase = .active ∧
      s.dec.rem = 0#8) ∧
    (let s := (decAt .done true 0#8 false false); s.decMark = none ∧ s.dec.phase = .done) ∧
    (let s := (decAt .active true 1#8 false false); s.decMark = none ∧ s.dec.rem ≠ 0#8) ∧
    (let s := { State.reset with rst := true }; s.decMark = none ∧ s.rst = true) := by decide

theorem witness_DecOutHandsOverTheBit :
    (let s := (decAt .done true 0#8 false true); s.decMark = none ∧ s.rst = false ∧ s.dec.ovalid = true ∧
      s.decOutReady = true) ∧
    (let s := { (decAt .active true 0#8 false true) with decOutReady := false }; s.decMark = none ∧
      s.decOutReady = false) ∧
    (let s := State.reset; s.decMark = none ∧ s.dec.ovalid = false) ∧
    (let s := { State.reset with rst := true }; s.decMark = none ∧ s.rst = true) := by decide

/-- A state in the middle of both streams with `rst = 1`. -/
def midStreamReset : State :=
  { encAt .run true 1#8 false 7#8 true with
    dec := ⟨.active, true, 9#8, true, true⟩, rst := true, encIn := [0b01#2], encOut := [3#8] }

theorem witness_ResetGivesEveryRegisterItsResetValue :
    midStreamReset.enc.phase ≠ .illegal ∧ midStreamReset.rst = true ∧
    nextIs (exec .decOut midStreamReset) (fun t => t == midStreamReset) = true := by decide

theorem witness_AnotherResetEdgeChangesNothing :
    midStreamReset.rst = true ∧ completes (exec .reset midStreamReset) = true := by decide

theorem witness_ResetAbandonsTheStream :
    midStreamReset.rst = true ∧ completes (exec .reset midStreamReset) = true ∧
    (let u := { State.reset with rst := true }; u.rst = true ∧ completes (exec .reset u) = true) := by decide

theorem witness_EncoderTokenWaitsUntilReady :
    (let s := atTurn .encIn { (encAt .run false 1#8 false 5#8 true) with encIn := [0b00#2] };
      s.enc.phase ≠ .illegal ∧ s.encMark = none ∧ s.rst = false ∧
      s.sched = [.turn .encIn] ∧ s.encIn = [0b00#2] ∧ encInReady s = false) ∧
    (let s := (encAt .run false 1#8 false 5#8 true); s.enc.phase ≠ .illegal ∧ s.encMark = none ∧ s.rst = false ∧
      s.enc.phase = .run ∧ s.enc.ovalid = true ∧ s.encOutReady = true ∧
      s.enc.zpend = false) ∧
    (let s := synth (encAt .run false 1#8 true 255#8 false); s.enc.phase ≠ .illegal ∧ s.encMark = none ∧
      s.rst = false ∧ s.enc.phase = .run ∧ s.enc.ovalid = false ∧
      s.encOutReady = true ∧ s.enc.zpend = true) ∧
    (let s := { (encAt .done false 3#8 false 3#8 false) with encIn := [0b01#2] }; s.rst = false ∧
      s.enc.phase = .done ∧
      completes (step s) = true) := by decide

theorem witness_DecoderTokenWaitsUntilReady :
    (let s := atTurn .decIn { (decAt .active false 2#8 false false) with decIn := [0x001#9] };
      s.enc.phase ≠ .illegal ∧ s.decMark = none ∧
      s.rst = false ∧ s.sched = [.turn .decIn] ∧ s.decIn = [0x001#9] ∧ decInReady s = false) ∧
    (let s := (decAt .active false 1#8 false false); s.decMark = none ∧ s.rst = false ∧ s.dec.phase = .active ∧
      s.dec.rem ≠ 0#8 ∧ s.dec.ovalid = false) ∧
    (let s := (decAt .active false 255#8 false false); s.decMark = none ∧ s.rst = false ∧ s.dec.phase = .active ∧
      s.dec.rem ≠ 0#8 ∧ s.dec.ovalid = false) ∧
    (let s := { (decAt .done true 0#8 false false) with decIn := [0x005#9] }; s.rst = false ∧ s.dec.phase = .done ∧
      completes (step s) = true) := by decide

theorem witness_ReservedTokensRefuseWhenTheyPass :
    (let s := State.reset; s.enc.phase ≠ .illegal ∧ s.encMark = none ∧ encInReady s = true) ∧
    (let s := (encAt .run false 1#8 false 5#8 true); s.enc.phase ≠ .illegal ∧ s.encMark = none ∧
      encInReady s = false) ∧
    (let s := State.reset; s.decMark = none ∧ decInReady s = true) ∧
    (let s := (decAt .active false 2#8 false false); s.decMark = none ∧ decInReady s = false) ∧
    0x101 ≤ (0x101#9).toNat ∧ 0x101 ≤ (0x1FF#9).toNat := by decide

/-- Both machines are refused, and a reset turn is scheduled. -/
def bothRefused : State :=
  atTurn .encIn { State.reset with encMark := some .policyChanged, decMark := some .reservedDecToken, rst := true }

theorem witness_RefusedMarksAreNeverCleared :
    completes (step bothRefused) = true ∧ bothRefused.encMark = some .policyChanged ∧
    bothRefused.decMark = some .reservedDecToken := by decide

theorem witness_RefusedMachineStopsAlone :
    bothRefused.enc.phase ≠ .illegal ∧ bothRefused.encMark = some .policyChanged ∧ Instr.isEncoder .encOut = true ∧
    bothRefused.decMark = some .reservedDecToken ∧ Instr.isDecoder .decOut = true ∧
    Instr.isDecoder .decExpand = true ∧ completes (exec .decExpand (decAt .active false 2#8 false false)) = true ∧
    Instr.isEncoder .encEnd = true ∧ completes (exec .encEnd (encAt .run false 2#8 false 0#8 false)) = true ∧
    (let s := atTurn .decIn { State.reset with encMark := some .policyChanged, decIn := [0x002#9] }; s.rst = false ∧
      completes (step s) = true) ∧
    (let s := atTurn .encIn { State.reset with decMark := some .reservedDecToken, encIn := [0b01#2] }; s.rst = false ∧
      completes (step s) = true) := by decide

theorem witness_PolicyChangeMidStreamIsRefused :
    (let s := atHost (.strap .synthZero) (encAt .run true 2#8 false 0#8 false); s.enc.phase ≠ .illegal ∧
      s.encMark = none ∧ s.sched = [.host (.strap .synthZero)] ∧
      Policy.synthZero ≠ s.policyAtReset ∧ encDone s = false) ∧
    (let s := atHost (.strap .literal) (encAt .run true 2#8 false 0#8 false); s.enc.phase ≠ .illegal ∧
      s.encMark = none ∧ s.sched = [.host (.strap .literal)] ∧
      Policy.literal = s.policyAtReset) ∧
    (let s := atHost (.strap .synthZero) (encAt .done true 2#8 false 2#8 false); s.enc.phase ≠ .illegal ∧
      s.encMark = none ∧ s.sched = [.host (.strap .synthZero)] ∧ encDone s = true) ∧
    Instr.isDecoder .decExpand = true ∧
      completes (exec .decExpand (atHost (.strap .synthZero) (decAt .active false 2#8 false false))) = true ∧
    midStreamReset.rst = true ∧ completes (exec .reset midStreamReset) = true := by decide

theorem witness_OnlyTheOverflowHandlerReadsThePolicy :
    Instr.encBit true ≠ .reset ∧ completes (exec (.encBit true) (encAt .run false 255#8 false 0#8 false)) = true ∧
    ¬(Instr.encBit true = .encBit (encAt .run false 255#8 false 0#8 false).enc.cur ∧
      (encAt .run false 255#8 false 0#8 false).enc.phase = .run ∧
      (encAt .run false 255#8 false 0#8 false).enc.run = 255#8) := by decide

theorem witness_FaultIsExactlyTheIllegalPhase :
    Reachable State.reset ∧
    (let s := encAt .illegal true 9#8 true 9#8 true; s.enc.phase = .illegal ∧
      Instr.isEncoder .encZdrain = true) := ⟨Reachable.start .literal [] [] true true [], by decide⟩

theorem witness_NoOperationHasAnErrorOutcome :
    Legal (encAt .run true 0#8 true 0#8 true) ∧ Instr.isReserved .encEnd = false := by decide

theorem witness_InvariantHoldsAtReset :
    MachineInv State.reset := by decide

theorem witness_EveryStepKeepsTheInvariant :
    (let s := atTurn .encIn { (synth (encAt .run false 255#8 false 0#8 false)) with encIn := [0b00#2] };
      MachineInv s ∧ completes (step s) = true) := by decide

theorem witness_EveryStepKeepsTheInvariant_decoder :
    (let s := atTurn .decInternal (decAt .active false 1#8 false false); MachineInv s ∧
      completes (step s) = true) := by decide

theorem witness_EveryReachableStateMeetsTheInvariants :
    ∃ s, Reachable s ∧ s.enc.phase = .run ∧ s.dec.rem = 255#8 := by
  let s0 : State := { State.resetWith .synthZero with encIn := [0b00#2], decIn := [0x0FF#9],
                                                      sched := [.turn .encIn, .turn .decIn] }
  let s1 : State := { s0 with enc := ⟨.run, false, 1#8, false, 0#8, false⟩, encIn := [], sched := [.turn .decIn] }
  let s2 : State := { s1 with dec := ⟨.active, false, 255#8, false, false⟩, decIn := [], sched := [] }
  have h0 : Reachable s0 := Reachable.start .synthZero [0b00#2] [0x0FF#9] true true [.turn .encIn, .turn .decIn]
  have h1 : Reachable s1 := Reachable.next s0 s1 h0 rfl
  exact ⟨s2, Reachable.next s1 s2 h1 rfl, rfl, rfl⟩

theorem witness_EndOfRunLeavesNothingPending :
    (let s := (encAt .done false 255#8 false 255#8 false); MachineInv s ∧ encDone s = true) := by decide

theorem witness_EndOfRunLeavesNothingPending_decoder :
    (let s := (decAt .done true 0#8 false false); MachineInv s ∧ decDone s = true) := by decide

theorem witness_OperationsLeaveTheOtherMachineAlone :
    Instr.isEncoder .encOut = true ∧ completes (exec .encOut (encAt .run false 1#8 false 5#8 true)) = true ∧
    Instr.isDecoder .decExpand = true ∧
      completes (exec .decExpand (decAt .active false 1#8 false false)) = true := by decide

/-- Both machines have work: the encoder holds a byte, the decoder is expanding. -/
def bothBusy : State := { encAt .run false 1#8 false 5#8 true with dec := ⟨.active, true, 2#8, false, false⟩ }

theorem witness_OperationsOfTheTwoMachinesCommute :
    Instr.isEncoder .encOut = true ∧ Instr.isDecoder .decExpand = true ∧
    nextIs (exec .encOut bothBusy) (fun t => t != bothBusy) = true ∧
    nextIs (exec .decExpand bothBusy) (fun t => t != bothBusy) = true := by decide

theorem witness_EventsAtOneEdgeExcludeOneAnother :
    turnFires .decInternal bothBusy = true := by decide

theorem witness_ClockEdgeIsAnyInterleavingOfItsOperations :
    Legal bothBusy ∧ bothBusy.rst = false ∧
    (let s := { (decAt .active true 0#8 false true) with decIn := [0x002#9] }; Legal s ∧ s.rst = false ∧
      List.Perm [.decIn, .decOut] (edgeTurns s) ∧ offeredDecInstr s = some (.decByte 2#8)) ∧
    midStreamReset.rst = true ∧
    (let s := { decAt .active true 0#8 false true with decIn := [0x101#9] }; Legal s ∧ s.rst = false ∧
      List.Perm [.decOut, .decIn] (edgeTurns s) ∧ offeredDecInstr s = some (.decReserved 1#8) ∧
      decInReady s = true ∧ decOutTransfer s = true ∧
      [Turn.decOut, Turn.decIn].idxOf .decOut < [Turn.decOut, Turn.decIn].idxOf .decIn) ∧
    (let s := { decAt .active true 2#8 false true with decIn := [0x101#9] }; Legal s ∧ s.rst = false ∧
      edgeTurns s = [.decOut] ∧ decInReady s = false) := by decide

theorem witness_OfferedTokensAndHeldOutputsAreStable :
    (let s := { (encAt .run false 1#8 false 5#8 true) with encIn := [0b00#2], decIn := [0x003#9], encOutReady := false };
      completes (step s) = true ∧ s.encIn.head? = some 0b00#2 ∧ s.decIn.head? = some 0x003#9) ∧
    completes (exec (.decByte 3#8) (decAt .active true 0#8 true true)) = true ∧ Instr.decByte 3#8 ≠ .reset ∧
      (decAt .active true 0#8 true true).dec.ovalid = true ∧ Instr.decByte 3#8 ≠ .decOut ∧
    completes (exec (.encBit true) (encAt .run false 1#8 false 5#8 true)) = true ∧
      (encAt .run false 1#8 false 5#8 true).enc.ovalid = true := by decide

theorem witness_StreamsAreFirstInFirstOut :
    completes (step (atHost (.offerEnc 0b01#2) State.reset)) = true ∧ completes (step bothBusy) = true := by decide

theorem witness_HangsAreKept :
    (let s := { (encAt .done false 3#8 false 3#8 false) with encIn := [0b01#2] }; s.rst = false ∧
      s.enc.phase = .done ∧ completes (step s) = true) ∧
    (let s := { (decAt .done true 0#8 false false) with decIn := [0x005#9] }; s.rst = false ∧ s.dec.phase = .done ∧
      completes (step s) = true) ∧
    (let s := { (encAt .run false 1#8 false 5#8 true) with encOutReady := false }; s.rst = false ∧
      s.enc.ovalid = true ∧
      s.encOutReady = false ∧ completes (step s) = true) ∧
    (let s := { (decAt .active false 2#8 false true) with decOutReady := false }; s.rst = false ∧
      s.dec.ovalid = true ∧
      s.decOutReady = false ∧ s.dec.rem ≠ 0#8 ∧ completes (step s) = true) ∧
    (let s := { State.reset with encIn := [0b10#2] }; s.enc.phase ≠ .done ∧
      nextIs (step s) (fun t => t.enc.phase == .done) = true) ∧
    (let s := { State.reset with decIn := [0x100#9] }; s.dec.phase ≠ .done ∧
      nextIs (step s) (fun t => t.dec.phase == .done) = true) ∧
    (let s := atTurn .encIn { encAt .done false 3#8 false 3#8 false with encIn := [0b01#2], encOutReady := false };
      Legal s ∧ s.rst = false ∧ s.sched = [.turn .encIn] ∧ turnFires .encIn s = false) ∧
    (let s := { decAt .active false 2#8 false true with decIn := [0x005#9], decOutReady := false };
      Legal s ∧ s.rst = false ∧ s.sched = [] ∧ edgeTurns s = []) := by decide

theorem witness_StepRunsTheOfferedOperation :
    (let s := atTurn .encIn { State.reset with encIn := [0b01#2, 0b10#2] }; s.enc.phase ≠ .illegal ∧ s.rst = false ∧
      s.sched = [.turn .encIn] ∧ s.encIn = [0b01#2, 0b10#2] ∧ encInReady s = true) ∧
    (let s := atTurn .encIn { (encAt .run false 1#8 false 5#8 true) with encIn := [0b01#2] };
      s.enc.phase ≠ .illegal ∧ s.rst = false ∧
      s.sched = [.turn .encIn] ∧ s.encIn = [0b01#2] ∧ encInReady s = false) ∧
    (let s := atTurn .decIn { State.reset with decIn := [0x0FF#9] }; s.enc.phase ≠ .illegal ∧ s.rst = false ∧
      s.sched = [.turn .decIn] ∧ s.decIn = [0x0FF#9] ∧ decInReady s = true) ∧
    (let s := atTurn .decIn { (decAt .active false 2#8 false false) with decIn := [0x100#9] };
      s.enc.phase ≠ .illegal ∧ s.rst = false ∧
      s.sched = [.turn .decIn] ∧ s.decIn = [0x100#9] ∧ decInReady s = false) ∧
    (let s := atTurn .encIn State.reset; s.enc.phase ≠ .illegal ∧ s.rst = false ∧ s.sched = [.turn .encIn] ∧
      s.encIn = []) ∧
    (let s := atTurn .decIn State.reset; s.enc.phase ≠ .illegal ∧ s.rst = false ∧ s.sched = [.turn .decIn] ∧
      s.decIn = []) := by decide

theorem witness_StepRunsTheSelectedOperation :
    (let s := atTurn .decOut midStreamReset; s.enc.phase ≠ .illegal ∧ s.rst = true ∧ s.sched = [.turn .decOut]) ∧
    (let s := atTurn .encInternal (synth (encAt .run false 1#8 true 255#8 false)); s.enc.phase ≠ .illegal ∧
      s.rst = false ∧
      s.sched = [.turn .encInternal] ∧ s.enc.zpend = true ∧ s.enc.ovalid = false) ∧
    (let s := atTurn .encOut (encAt .run false 1#8 false 5#8 true); s.enc.phase ≠ .illegal ∧ s.rst = false ∧
      s.sched = [.turn .encOut] ∧
      s.enc.ovalid = true ∧ s.encOutReady = true) ∧
    (let s := atTurn .decInternal (decAt .active false 1#8 false false); s.enc.phase ≠ .illegal ∧ s.rst = false ∧
      s.sched = [.turn .decInternal] ∧ s.dec.rem ≠ 0#8 ∧ s.dec.ovalid = false) ∧
    (let s := atTurn .decOut (decAt .active false 1#8 false true); s.enc.phase ≠ .illegal ∧ s.rst = false ∧
      s.sched = [.turn .decOut] ∧
      s.dec.ovalid = true ∧ s.decOutReady = true) ∧
    (let s := atTurn .encInternal State.reset; s.enc.phase ≠ .illegal ∧ s.rst = false ∧ s.enc.zpend = false) ∧
    (let s := atTurn .encOut { encAt .run false 1#8 false 5#8 true with encOutReady := false };
      s.enc.phase ≠ .illegal ∧ s.rst = false ∧ s.sched = [.turn .encOut] ∧ s.encOutReady = false) ∧
    (let s := atTurn .decInternal (decAt .active false 1#8 false true);
      s.enc.phase ≠ .illegal ∧ s.rst = false ∧ s.sched = [.turn .decInternal] ∧ s.dec.ovalid = true) ∧
    (let s := atTurn .decOut State.reset; s.enc.phase ≠ .illegal ∧ s.rst = false ∧ s.dec.ovalid = false) := by decide

theorem witness_HostActionsWriteNoRegister :
    (let s := atHost (.offerEnc 0b01#2) bothBusy; s.enc.phase ≠ .illegal ∧ s.sched = [.host (.offerEnc 0b01#2)]) ∧
    (let s := atHost (.offerDec 0x003#9) bothBusy; s.enc.phase ≠ .illegal ∧ s.sched = [.host (.offerDec 0x003#9)]) ∧
    (let s := atHost (.encReady false) bothBusy; s.enc.phase ≠ .illegal ∧ s.sched = [.host (.encReady false)]) ∧
    (let s := atHost (.decReady false) bothBusy; s.enc.phase ≠ .illegal ∧ s.sched = [.host (.decReady false)]) ∧
    (let s := atHost (.rst true) bothBusy; s.enc.phase ≠ .illegal ∧ s.sched = [.host (.rst true)]) ∧
    (let s := atHost (.strap .synthZero) bothBusy; s.enc.phase ≠ .illegal ∧
      s.sched = [.host (.strap .synthZero)]) := by decide

theorem witness_DefaultHostRunsWhatCanHappen :
    midStreamReset.enc.phase ≠ .illegal ∧ midStreamReset.sched = [] ∧ midStreamReset.rst = true ∧
    bothBusy.enc.phase ≠ .illegal ∧ bothBusy.sched = [] ∧ bothBusy.rst = false ∧ turnFires .encOut bothBusy = true ∧
    State.reset.enc.phase ≠ .illegal ∧ State.reset.sched = [] ∧ State.reset.rst = false ∧
      (edgeTurns State.reset = []) ∧ State.reset.encMark = none ∧ State.reset.decMark = none := by decide

theorem witness_DefaultHostRunsWhatCanHappen_idle :
    ∀ u, turnFires u State.reset = false := by intro u; cases u <;> decide

theorem witness_PlacedWordRunsNext :
    State.reset.enc.phase ≠ .illegal ∧ encInReady { State.reset with rst := false } = true ∧
      decInReady { State.reset with rst := false } = true ∧
    encInReady { (encAt .run false 1#8 false 5#8 true) with rst := false } = false ∧
    decInReady { (decAt .active false 2#8 false false) with rst := false } = false := by decide

theorem witness_PlacedWordRunsNext_words :
    tokenOfWord 8 3 = .ok (.enc 0b11#2) ∧ tokenOfWord 16 511 = .ok (.dec 0x1FF#9) := ⟨rfl, rfl⟩

theorem witness_EveryOperationReducesTheWork :
    bothBusy.rst = false ∧ nextIs (runTurn .decInternal bothBusy) (fun u => u != bothBusy) = true ∧
    (let s := { State.reset with decIn := [0x0FF#9] }; s.rst = false ∧
      nextIs (runTurn .decIn s) (fun u => u != s) = true) := by decide

theorem witness_DefaultHostComesToRest :
    bothBusy.enc.phase ≠ .illegal ∧ bothBusy.rst = false ∧ bothBusy.sched = [] := by decide

/-- The start of an encoder stream on the bit 1 and of a decoder stream on the bytes 0 and 1. -/
def bothStreams (p : Policy) : State :=
  loadProgram [encodeForm [true], decodeForm [0#8, 1#8]] (State.resetWith p)

theorem witness_EncoderEmitsTheEncodingOfItsStream :
    EncStreamStart .literal [true] (bothStreams .literal) ∧ (bothStreams .literal).sched = [] ∧
      (bothStreams .literal).encOutReady = true ∧
    EncStreamStart .synthZero [true] (bothStreams .synthZero) := by decide

theorem witness_DecoderEmitsTheDecodingOfItsStream :
    DecStreamStart [0#8, 1#8] (bothStreams .literal) ∧ (bothStreams .literal).enc.phase ≠ .illegal ∧
    (bothStreams .literal).sched = [] ∧ (bothStreams .literal).decOutReady = true := by decide

/-- A schedule that offers the rest of the encoder stream on the way and ends it. -/
def encSchedule : State :=
  { bothStreams .literal with
    encIn := [0b01#2]
    sched := [.host (.encReady true), .turn .encIn, .host (.offerDec 0x005#9), .turn .encOut,
              .host (.offerEnc 0b10#2), .turn .encIn, .turn .encOut] }

/-- A schedule that offers the rest of the decoder stream on the way and ends it, with a strap change. -/
def decSchedule : State :=
  { bothStreams .literal with
    decIn := [0x000#9]
    sched := [.turn .decIn, .host (.strap .synthZero), .host (.offerDec 0x001#9), .turn .decIn, .turn .decInternal,
              .turn .decOut, .host (.offerDec 0x100#9), .turn .decIn] }

/-- The encoder in the middle of its stream, the leading zero held, END still to be offered. -/
def encMidStream : State :=
  { encAt .run true 1#8 false 0#8 true with
    sched := [.turn .encOut, .host (.offerEnc 0b10#2), .turn .encIn, .turn .encOut] }

/-- The decoder in the middle of its stream, one repetition to write, END still to be offered. -/
def decMidStream : State :=
  { decAt .active true 1#8 false false with sched := [.turn .decInternal, .host (.offerDec 0x100#9), .turn .decIn] }

theorem witness_EncoderHoldsTheEncodingOfTheBitsTaken :
    EncStreamAt .literal [true] encMidStream ∧ completes (step encMidStream) = true :=
  ⟨⟨by decide, by decide, by decide, by decide, by decide, [true], [], by decide, by decide,
    fun _ => ⟨[], 1, by decide, by decide⟩, by decide, by decide, by decide⟩, by decide⟩

theorem witness_DecoderHoldsTheDecodingOfTheBytesTaken :
    DecStreamAt [0#8, 1#8] decMidStream ∧ completes (step decMidStream) = true :=
  ⟨⟨by decide, by decide, by decide, [0#8, 1#8], [], by decide, by decide, by decide, by decide, by decide⟩, by decide⟩

theorem witness_EncoderOutputIsTheSameUnderEverySchedule :
    EncStreamStart .literal [true] encSchedule ∧
    (∀ m ∈ encSchedule.sched, aroundEncStream m = true) ∧
    nextIs (runFor 7 encSchedule) (fun t => encDone t) = true := by decide

theorem witness_DecoderOutputIsTheSameUnderEverySchedule :
    DecStreamStart [0#8, 1#8] decSchedule ∧
    (∀ m ∈ decSchedule.sched, aroundDecStream m = true) ∧
    nextIs (runFor 8 decSchedule) (fun t => decDone t) = true := by decide

theorem witness_RunsAreTheMaximalRuns :
    (false, 2) ∈ runs [false, false, true] ∧ (runs [false, false, true])[0]? = some (false, 2) ∧
    (runs [false, false, true])[0 + 1]? = some (true, 1) := by decide

theorem witness_SynthZeroIsLossless :
    runs (List.replicate 256 true) = [] ++ (true, 256) :: [] ∧ 0 < overflows 256 ∧
      1 ≤ 256 := ⟨runs_replicate true 255, by decide, by decide⟩

theorem witness_LiteralIsLosslessExactlyWithoutLongRuns :
    runs (List.replicate 256 false) = [] ++ (false, 256) :: [] ∧ (∀ r ∈ ([] : List (Bit × Nat)), r.2 ≤ 255) ∧
      256 ≤ 256 ∧
    runs (List.replicate 255 false) = [(false, 255)] ∧
      0 < 0 + 255 := ⟨runs_replicate false 255, by decide, by decide, runs_replicate false 254, by decide⟩

theorem witness_EncodingLengthAndItsBound :
    ([true, false] : List Bit).head? = some true ∧ (∀ r ∈ runs [true, false], r.2 = 1) := by decide

theorem witness_DecodingLengthAndItsBound :
    State.reset.decMark = none ∧ decInReady State.reset = true := by decide

theorem witness_ZeroBytesOfAnEncoding :
    (encodeStream .literal [true])[0]? = some 0#8 ∧ (encodeStream .synthZero [true])[0]? = some 0#8 := by decide

theorem witness_ZeroBytesOfAnEncoding_after_overflow :
    (encodeStream .synthZero (List.replicate 256 false))[1]? = some 0#8 := by
  rw [test_run_of_256.2]
  rfl

theorem witness_DecoderRestoresSynthZeroStreams :
    Instr.isDecoder .decExpand = true ∧ completes (exec .decExpand (decAt .active false 2#8 false false)) = true ∧
    DecStreamStart (encodeStream .synthZero [true]) decSchedule ∧
    (∀ m ∈ decSchedule.sched, aroundDecStream m = true) ∧
    nextIs (runFor 8 decSchedule) (fun t => decDone t) = true := by decide

end Sys2Proof.Tests.Slice0
end

/-! ## The invariants of R25 and R26, and which operations read which part of the state

The operations' effects are those of `Sys2Proof/Laws/Step.lean` (`EncEffect`, `DecEffect`, `TurnEffect`);
here each effect is shown to keep the invariant, once per register function. -/

namespace Sys2Proof.Machine

/-! ### The encoder's clauses (R25), one lemma per register function -/

theorem encInv_atReset (p : Policy) : EncInv Enc.atReset p := by
  simp [EncInv, Enc.atReset]

theorem encInv_takeFirstBit {e : Enc} (p : Policy) (b : Bit) (hz : e.zpend = false) :
    EncInv (takeFirstBit b e) p := by
  simp [EncInv, hz]

/-- The overflow owes a zero exactly under `SYNTH_ZERO`, and it holds the 255 that clause 5 asks for. -/
theorem encInv_overflowRestart {e : Enc} (p : Policy) (hp : e.phase = .run) (hz : e.zpend = false) :
    EncInv (overflowRestart p e) p := by
  cases p <;> simp [EncInv, hp, hz, Policy.code]

/-- The count goes up by one below 255, so it stays between 1 and 255. -/
theorem encInv_extendRun {e : Enc} (p : Policy) (hp : e.phase = .run) (hz : e.zpend = false)
    (hv : e.ovalid = false) : EncInv (extendRun p e) p := by
  unfold extendRun
  split
  · exact encInv_overflowRestart p hp hz
  next hrun =>
    have hpos : 1 ≤ (e.run + 1#8).toNat := by bv_omega
    have hle : (e.run + 1#8).toNat ≤ 255 := Nat.le_of_lt_succ (e.run + 1#8).isLt
    exact ⟨by simp [hp], by simp [hp], fun _ => ⟨hpos, hle⟩, by simp [hz], by simp [hz], by simp [hp],
      by simp [hv]⟩

theorem encInv_endRun {e : Enc} (p : Policy) (b : Bit) (hp : e.phase = .run) (hz : e.zpend = false) :
    EncInv (endRun b e) p := by
  simp [EncInv, hp, hz]

/-- `ENC_BIT` where the encoder is ready (R60, R61). -/
theorem encInv_takeBit {e : Enc} (p : Policy) (b : Bit) (hp : e.phase = .empty ∨ e.phase = .run)
    (hz : e.zpend = false) (hv : e.ovalid = false) : EncInv (takeBit p b e) p := by
  unfold takeBit
  rcases hp with hp | hp <;> simp only [hp]
  · exact encInv_takeFirstBit p b hz
  · split
    · exact encInv_extendRun p hp hz hv
    · exact encInv_endRun p b hp hz

/-- `ENC_END` where the encoder is ready (R63). -/
theorem encInv_takeEnd {e : Enc} (p : Policy) (hp : e.phase = .empty ∨ e.phase = .run) (hz : e.zpend = false) :
    EncInv (takeEnd e) p := by
  unfold takeEnd
  rcases hp with hp | hp <;> simp [EncInv, hp, hz]

/-- `ENC_ZDRAIN`: a zero is owed only in phase RUN with the count at 1 (clause 4), so its byte fits clause 7. -/
theorem encInv_drainZero {e : Enc} {p : Policy} (h : EncInv e p) (hz : e.zpend = true) : EncInv (drainZero e) p := by
  obtain ⟨-, -, -, howed, -, -, -⟩ := h
  obtain ⟨-, hp, hrun⟩ := howed hz
  simp [EncInv, drainZero, hp, hrun]

theorem encInv_releaseByte {e : Enc} {p : Policy} (h : EncInv e p) : EncInv (releaseByte e) p := by
  obtain ⟨hlegal, hempty, hrun, howed, -, hdone, -⟩ := h
  refine ⟨hlegal, fun hp => ?_, hrun, howed, by simp [releaseByte], hdone, by simp [releaseByte]⟩
  obtain ⟨hcur, hzero, hz, -⟩ := hempty hp
  exact ⟨hcur, hzero, hz, rfl⟩

/-- Clause 4 alone reads the policy, and only while a zero is owed. -/
theorem encInv_anyPolicy {e : Enc} {p : Policy} (q : Policy) (h : EncInv e p) (hz : e.zpend = false) :
    EncInv e q := by
  obtain ⟨hlegal, hempty, hrun, -, hheld, hdone, hone⟩ := h
  exact ⟨hlegal, hempty, hrun, by simp [hz], hheld, hdone, hone⟩

/-! ### The decoder's clauses (R26) -/

/-- The second clause of R26 is the width of `DEC_REM`. -/
theorem decInv_iff {d : Dec} : DecInv d ↔ (d.phase = .done → d.rem = 0#8) :=
  and_iff_left (Nat.le_of_lt_succ d.rem.isLt)

theorem decInv_of_active {d : Dec} (h : d.phase = .active) : DecInv d := by
  simp [decInv_iff, h]

@[simp] theorem takeByte_phase (v : Byte) (d : Dec) : (takeByte v d).phase = d.phase := by
  unfold takeByte
  split <;> rfl

theorem decInv_takeByte {d : Dec} (v : Byte) (h : d.phase = .active) : DecInv (takeByte v d) :=
  decInv_of_active ((takeByte_phase v d).trans h)

theorem decInv_takeDecEnd {d : Dec} (h : d.rem = 0#8) : DecInv (takeDecEnd d) :=
  decInv_iff.mpr fun _ => h

/-- `DEC_EXPAND` runs with repetitions left, hence not in phase DONE. -/
theorem decInv_expandBit {d : Dec} (h : DecInv d) (hrem : d.rem ≠ 0#8) : DecInv (expandBit d) :=
  decInv_iff.mpr fun hdone => absurd (decInv_iff.mp h hdone) hrem

/-! ### The invariant of the whole machine, one lemma per effect -/

theorem machineInv_of_atReset {s : State} (he : s.enc = Enc.atReset) (hd : s.dec = Dec.atReset)
    (hp : s.ovfPolicy = s.policyAtReset) : MachineInv s := by
  refine ⟨?_, ?_, fun _ _ => hp⟩
  · rw [he]
    exact encInv_atReset _
  · rw [hd]
    exact decInv_of_active rfl

theorem machineInv_resetRegisters (s : State) : MachineInv (resetRegisters s) :=
  machineInv_of_atReset rfl rfl rfl

/-- New encoder registers keep the invariant when they meet R25 and a stream that was done stays done. -/
theorem machineInv_withEnc {s : State} {e : Enc} (h : MachineInv s) (he : EncInv e s.policyAtReset)
    (hdone : encDone s = true → encDone (withEnc e s) = true) : MachineInv (withEnc e s) := by
  obtain ⟨-, hd, hpol⟩ := h
  refine ⟨he, hd, fun hm hnot => hpol hm ?_⟩
  cases hs : encDone s with
  | false => rfl
  | true => exact (hdone hs).symm.trans hnot

theorem machineInv_withDec {s : State} {d : Dec} (h : MachineInv s) (hd : DecInv d) : MachineInv (withDec d s) := by
  obtain ⟨he, -, hpol⟩ := h
  exact ⟨he, hd, hpol⟩

/-- Once the encoder is refused nothing is asked of the strap (R103). -/
theorem machineInv_markEnc {s : State} (r : RefuseReason) (he : EncInv s.enc s.policyAtReset) (hd : DecInv s.dec) :
    MachineInv (markEnc r s) :=
  ⟨he, hd, fun hm => by simp at hm⟩

theorem encDone_of_phase_ne {s : State} (h : s.enc.phase ≠ .done) : encDone s = false := by
  simp [encDone, h]

theorem encDone_of_encInReady {s : State} (h : encInReady s = true) : encDone s = false := by
  obtain ⟨-, hp, -, -⟩ := (encInReady_iff s).mp h
  exact encDone_of_phase_ne (by rcases hp with hp | hp <;> simp [hp])

/-- The strap still has the level of the last reset when an unmarked encoder takes a token. -/
theorem ovfPolicy_of_encInReady {s : State} (h : PolicyInv s) (hm : s.encMark = none) (hr : encInReady s = true) :
    s.ovfPolicy = s.policyAtReset :=
  h hm (encDone_of_encInReady hr)

theorem machineInv_takeBit {s : State} (b : Bit) (h : MachineInv s) (hm : s.encMark = none)
    (hr : encInReady s = true) : MachineInv (withEnc (takeBit s.ovfPolicy b s.enc) s) := by
  obtain ⟨-, hphase, hz, hv⟩ := (encInReady_iff s).mp hr
  have hpol : s.ovfPolicy = s.policyAtReset := by
    obtain ⟨-, -, hpol⟩ := h
    exact ovfPolicy_of_encInReady hpol hm hr
  refine machineInv_withEnc h ?_ fun hdone => by simp [encDone_of_encInReady hr] at hdone
  rw [hpol]
  exact encInv_takeBit _ b hphase hz hv

theorem machineInv_takeEnd {s : State} (h : MachineInv s) (hr : encInReady s = true) :
    MachineInv (withEnc (takeEnd s.enc) s) := by
  obtain ⟨-, hphase, hz, -⟩ := (encInReady_iff s).mp hr
  exact machineInv_withEnc h (encInv_takeEnd _ hphase hz) fun hdone => by
    simp [encDone_of_encInReady hr] at hdone

theorem machineInv_drainZero {s : State} (h : MachineInv s) (hr : zdrainSelected s = true) :
    MachineInv (withEnc (drainZero s.enc) s) := by
  obtain ⟨-, hz, -⟩ := (zdrainSelected_iff s).mp hr
  have he : EncInv s.enc s.policyAtReset := h.1
  have hrun : s.enc.phase = .run := by
    obtain ⟨-, -, -, howed, -, -, -⟩ := he
    obtain ⟨-, hphase, -⟩ := howed hz
    exact hphase
  refine machineInv_withEnc h (encInv_drainZero he hz) fun hdone => ?_
  simp [encDone_of_phase_ne (s := s) (by simp [hrun])] at hdone

theorem machineInv_releaseByte {s : State} (h : MachineInv s) : MachineInv (withEnc (releaseByte s.enc) s) :=
  machineInv_withEnc h (encInv_releaseByte h.1) fun hdone => by
    simpa [encDone_iff, releaseByte] using ((encDone_iff s).mp hdone).1

/-- A strap change keeps the invariant: away from the level of the last reset it refuses the encoder, unless the
stream is done (R124). -/
theorem machineInv_driveStrap {s : State} (p : Policy) (h : MachineInv s) : MachineInv (driveStrap p s) := by
  obtain ⟨he, hd, -⟩ := h
  unfold driveStrap
  split
  · exact machineInv_markEnc (s := { s with ovfPolicy := p }) .policyChanged he hd
  next hkeeps =>
    refine ⟨he, hd, fun _ hnot => ?_⟩
    by_contra hne
    exact hkeeps ⟨hne, hnot⟩

theorem machineInv_hostAction {s : State} (a : HostAction) (h : MachineInv s) : MachineInv (hostAction a s) := by
  cases a with
  | strap p => exact machineInv_driveStrap p h
  | offerEnc _ | offerDec _ | encReady _ | decReady _ | rst _ => exact h

/-- Every turn keeps the invariant. The moves of the streams are invisible to it, so the lemmas about the registers
apply to the state whose token has passed or whose output has been received. -/
theorem machineInv_turn {u : Turn} {s t : State} (h : MachineInv s) (e : TurnEffect u s t) : MachineInv t := by
  cases e with
  | nothing ht => exact ht ▸ h
  | takesBit b _ hm hr _ ht => exact ht ▸ machineInv_takeBit (s := popEncIn s) b h hm hr
  | takesEncEnd _ _ hr _ ht => exact ht ▸ machineInv_takeEnd (s := popEncIn s) h hr
  | refusesEnc _ _ _ _ ht =>
    obtain ⟨he, hd, -⟩ := h
    exact ht ▸ machineInv_markEnc (s := popEncIn s) .reservedEncToken he hd
  | drains _ _ hr ht => exact ht ▸ machineInv_drainZero h hr
  | handsOverByte _ _ _ ht => exact ht ▸ machineInv_releaseByte (s := receiveByte s) h
  | takesByte v _ _ _ hr _ _ ht =>
    obtain ⟨-, hactive, -⟩ := (decInReady_iff s).mp hr
    exact ht ▸ machineInv_withDec (s := popDecIn s) h (decInv_takeByte v hactive)
  | takesDecEnd _ _ hr _ ht =>
    obtain ⟨-, -, hrem⟩ := (decInReady_iff s).mp hr
    exact ht ▸ machineInv_withDec (s := popDecIn s) h (decInv_takeDecEnd hrem)
  | refusesDec _ _ _ _ _ _ _ ht => exact ht ▸ h
  | expands _ _ hr ht =>
    obtain ⟨-, hrem, -⟩ := (expandSelected_iff s).mp hr
    exact ht ▸ machineInv_withDec h (decInv_expandBit h.2.1 hrem)
  | handsOverBit _ _ _ ht => exact ht ▸ machineInv_withDec (s := receiveBit s) h h.2.1

theorem machineInv_step {s t : State} (h : MachineInv s) (hstep : step s = .next t) : MachineInv t := by
  obtain ⟨-, ⟨a, ms, -, rfl⟩ | ⟨ms, -, ⟨-, rfl⟩ | ⟨-, u, e⟩⟩⟩ := step_next hstep
  · exact machineInv_hostAction a (s := withSched ms s) h
  · exact machineInv_resetRegisters _
  · exact machineInv_turn (s := withSched ms s) h e

theorem machineInv_of_reachable {s : State} (h : Reachable s) : MachineInv s := by
  induction h with
  | start p encIn decIn encReady decReady sched => exact machineInv_of_atReset rfl rfl rfl
  | next s t _ hstep ih => exact machineInv_step ih hstep

/-- While the encoder is not refused its clauses hold for the strap itself: the strap is the one of the last reset, or
the stream is done and owes no zero. -/
theorem encInv_ovfPolicy {s : State} (h : MachineInv s) (hm : s.encMark = none) : EncInv s.enc s.ovfPolicy := by
  obtain ⟨he, -, hpol⟩ := h
  cases hd : encDone s with
  | false => exact (hpol hm hd).symm ▸ he
  | true =>
    obtain ⟨hphase, -⟩ := (encDone_iff s).mp hd
    have hz : s.enc.zpend = false := by
      obtain ⟨-, -, -, -, -, hdone, -⟩ := he
      exact hdone hphase
    exact encInv_anyPolicy s.ovfPolicy he hz

/-! ### What an operation reads of the policy (R23) -/

/-- An `ENC_BIT` that does not overflow gives the same registers under every policy. -/
theorem takeBit_anyPolicy {b : Bit} {e : Enc} (p q : Policy)
    (h : ¬(b = e.cur ∧ e.phase = .run ∧ e.run = 255#8)) : takeBit p b e = takeBit q b e := by
  unfold takeBit extendRun
  cases hphase : e.phase with
  | run =>
    by_cases hb : b = e.cur
    · have hrun : e.run ≠ 255#8 := fun hr => h ⟨hb, hphase, hr⟩
      simp [hb, hrun]
    · simp [hb]
  | empty | done | illegal => rfl

/-- An encoder operation whose register function commutes with the strap has the same effect under any policy. -/
theorem encoderOp_withPolicy {en : Bool} {f g : State → State} {s t : State} {p : Policy}
    (hfg : g { s with ovfPolicy := p } = { f s with ovfPolicy := p }) (h : encoderOp en f s = .next t) :
    encoderOp en g { s with ovfPolicy := p } = .next { t with ovfPolicy := p } := by
  obtain ⟨hp, hm, ⟨hen, rfl⟩ | ⟨hen, rfl⟩⟩ := encoderOp_next.mp h
  · exact encoderOp_next.mpr ⟨hp, hm, .inl ⟨hen, hfg.symm⟩⟩
  · exact encoderOp_next.mpr ⟨hp, hm, .inr ⟨hen, rfl⟩⟩

/-- The same for a decoder operation. -/
theorem decoderOp_withPolicy {en : Bool} {f g : State → State} {s t : State} {p : Policy}
    (hfg : g { s with ovfPolicy := p } = { f s with ovfPolicy := p }) (h : decoderOp en f s = .next t) :
    decoderOp en g { s with ovfPolicy := p } = .next { t with ovfPolicy := p } := by
  obtain ⟨hm, ⟨hen, rfl⟩ | ⟨hen, rfl⟩⟩ := decoderOp_next.mp h
  · exact decoderOp_next.mpr ⟨hm, .inl ⟨hen, hfg.symm⟩⟩
  · exact decoderOp_next.mpr ⟨hm, .inr ⟨hen, rfl⟩⟩

theorem execEncBit_withPolicy {b : Bit} {s t : State} {p : Policy} (h : execEncBit b s = .next t)
    (hno : ¬(b = s.enc.cur ∧ s.enc.phase = .run ∧ s.enc.run = 255#8)) :
    execEncBit b { s with ovfPolicy := p } = .next { t with ovfPolicy := p } := by
  refine encoderOp_withPolicy ?_ h
  simp only [takeBit_anyPolicy p s.ovfPolicy hno]
  rfl

/-! ### The frame of each machine's operations (R10, R40) -/

theorem encEffect_frame {i : Instr} {s t : State} (e : EncEffect i s t) :
    t = { s with enc := t.enc, encOut := t.encOut, encMark := t.encMark } := by
  cases e with
  | waits h | takesBit _ _ _ h | takesEnd _ _ h | drains _ _ h | handsOver _ _ h | refuses _ _ h => exact h ▸ rfl

theorem decEffect_frame {i : Instr} {s t : State} (e : DecEffect i s t) :
    t = { s with dec := t.dec, decOut := t.decOut, decMark := t.decMark } := by
  cases e with
  | waits h | takesByte _ _ _ h | takesEnd _ _ h | expands _ _ h | handsOver _ _ h | refuses _ _ _ h => exact h ▸ rfl

/-! ### The obligations -/

/-- Settles O29: each effect a step can have keeps the invariant (`machineInv_hostAction`, `machineInv_turn`,
`machineInv_resetRegisters`). -/
theorem everyStepKeepsTheInvariant : Obligations.EveryStepKeepsTheInvariant :=
  fun _ _ h hstep => machineInv_step h hstep

/-- Settles O25: no register function but the overflow restart takes the policy. -/
theorem onlyTheOverflowHandlerReadsThePolicy : Obligations.OnlyTheOverflowHandlerReadsThePolicy := by
  intro s t i p hi h hno
  cases i with
  | encBit b => exact execEncBit_withPolicy h fun ⟨hb, hphase, hrun⟩ => hno ⟨hb ▸ rfl, hphase, hrun⟩
  | encEnd | encZdrain | encOut | encReserved =>
    simp only [exec, execEncEnd, execEncZdrain, execEncOut, execEncReserved] at h ⊢
    exact encoderOp_withPolicy rfl h
  | decByte _ | decEnd | decExpand | decOut | decReserved _ =>
    simp only [exec, execDecByte, execDecEnd, execDecExpand, execDecOut, execDecReserved] at h ⊢
    exact decoderOp_withPolicy rfl h
  | reset => exact absurd rfl hi

/-- Settles O30, by induction on reachability with the invariant of the whole machine. -/
theorem everyReachableStateMeetsTheInvariants : Obligations.EveryReachableStateMeetsTheInvariants := by
  intro s hs
  have h : MachineInv s := machineInv_of_reachable hs
  exact ⟨h.1, encInv_ovfPolicy h, h.2.1⟩

/-- Settles O28: the reset values meet every clause, and a reset records the strap it starts with. -/
theorem invariantHoldsAtReset : Obligations.InvariantHoldsAtReset :=
  ⟨machineInv_of_atReset rfl rfl rfl, fun _ => machineInv_of_atReset rfl rfl rfl⟩

/-- Settles O32, from the inversion of each machine's operations. -/
theorem operationsLeaveTheOtherMachineAlone : Obligations.OperationsLeaveTheOtherMachineAlone := by
  refine ⟨fun i s t hi h => ?_, fun i s t hi h => ?_⟩
  · obtain ⟨-, -, e⟩ := exec_encoder_next hi h
    exact encEffect_frame e
  · obtain ⟨-, e⟩ := exec_decoder_next hi h
    exact decEffect_frame e

end Sys2Proof.Machine

/-! ## The memory and signals of 20_memory.md: streams, held outputs, and one clock edge

The two machines share only the pins, the strap and the schedule. `withEncSide` and `withDecSide` write one machine's
side of a state; an operation of one machine commutes with writing the other machine's side, and that is what makes
any interleaving of the two machines one state (R40, R44). -/

namespace Sys2Proof.Machine

/-! ### The two sides of a state -/

/-- `s` with the encoder's side of `a`: its registers, its streams and its mark. -/
def withEncSide (a s : State) : State :=
  { s with enc := a.enc, encIn := a.encIn, encOut := a.encOut, encMark := a.encMark }

/-- `s` with the decoder's side of `a`. -/
def withDecSide (a s : State) : State :=
  { s with dec := a.dec, decIn := a.decIn, decOut := a.decOut, decMark := a.decMark }

theorem encEffect_withEncSide {i : Instr} {s t : State} (e : EncEffect i s t) : t = withEncSide t s := by
  have hframe := encEffect_frame e
  have hin : t.encIn = s.encIn := by rw [hframe]
  rw [withEncSide, hin]
  exact hframe

theorem decEffect_withDecSide {i : Instr} {s t : State} (e : DecEffect i s t) : t = withDecSide t s := by
  have hframe := decEffect_frame e
  have hin : t.decIn = s.decIn := by rw [hframe]
  rw [withDecSide, hin]
  exact hframe

/-- An encoder operation whose condition and effect do not touch the decoder's side has the same effect beside any
other decoder's side. -/
theorem encoderOp_withDecSide {en en' : Bool} {f : State → State} {d s t : State} (h : encoderOp en f s = .next t)
    (hen : en' = en) (hf : f (withDecSide d s) = withDecSide d (f s)) :
    encoderOp en' f (withDecSide d s) = .next (withDecSide d t) := by
  subst hen
  obtain ⟨hp, hm, ⟨hr, rfl⟩ | ⟨hr, rfl⟩⟩ := encoderOp_next.mp h
  · exact encoderOp_next.mpr ⟨hp, hm, .inl ⟨hr, hf.symm⟩⟩
  · exact encoderOp_next.mpr ⟨hp, hm, .inr ⟨hr, rfl⟩⟩

/-- The same for a decoder operation beside any other encoder's side. -/
theorem decoderOp_withEncSide {en en' : Bool} {f : State → State} {e s t : State} (h : decoderOp en f s = .next t)
    (hen : en' = en) (hf : f (withEncSide e s) = withEncSide e (f s)) :
    decoderOp en' f (withEncSide e s) = .next (withEncSide e t) := by
  subst hen
  obtain ⟨hm, ⟨hr, rfl⟩ | ⟨hr, rfl⟩⟩ := decoderOp_next.mp h
  · exact decoderOp_next.mpr ⟨hm, .inl ⟨hr, hf.symm⟩⟩
  · exact decoderOp_next.mpr ⟨hm, .inr ⟨hr, rfl⟩⟩

/-- An encoder operation reads and writes nothing of the decoder's side (R10). -/
theorem exec_encoder_withDecSide {i : Instr} {s t : State} (d : State) (hi : i.isEncoder = true)
    (h : exec i s = .next t) : exec i (withDecSide d s) = .next (withDecSide d t) := by
  cases i with
  | encBit _ | encEnd | encZdrain | encOut | encReserved =>
    simp only [exec, execEncBit, execEncEnd, execEncZdrain, execEncOut, execEncReserved] at h ⊢
    exact encoderOp_withDecSide h rfl rfl
  | decByte _ | decEnd | decExpand | decOut | reset | decReserved _ => cases hi

/-- A decoder operation reads and writes nothing of the encoder's side (R10). -/
theorem exec_decoder_withEncSide {i : Instr} {s t : State} (e : State) (hi : i.isDecoder = true)
    (h : exec i s = .next t) : exec i (withEncSide e s) = .next (withEncSide e t) := by
  cases i with
  | decByte _ | decEnd | decExpand | decOut | decReserved _ =>
    simp only [exec, execDecByte, execDecEnd, execDecExpand, execDecOut, execDecReserved] at h ⊢
    exact decoderOp_withEncSide h rfl rfl
  | encBit _ | encEnd | encZdrain | encOut | reset | encReserved => cases hi

/-- Settles O33: each operation runs on the other's result as it does on `s`, and the two results are one state. -/
theorem operationsOfTheTwoMachinesCommute : Obligations.OperationsOfTheTwoMachinesCommute := by
  intro i j s t u hi hj ht hu
  obtain ⟨-, -, e⟩ := exec_encoder_next hi ht
  obtain ⟨-, d⟩ := exec_decoder_next hj hu
  have hencSide : t = withEncSide t s := encEffect_withEncSide e
  have hdecSide : u = withDecSide u s := decEffect_withDecSide d
  have hsame : withEncSide t u = withDecSide u t :=
    calc withEncSide t u = withEncSide t (withDecSide u s) := by rw [← hdecSide]
      _ = withDecSide u (withEncSide t s) := rfl
      _ = withDecSide u t := by rw [← hencSide]
  refine ⟨withEncSide t u, ?_, ?_⟩
  · rw [hencSide]
    exact exec_decoder_withEncSide t hj hu
  · rw [hsame, hdecSide]
    exact exec_encoder_withDecSide u hi ht

/-! ### The streams over a step (R38, R39) -/

theorem driveStrap_frame (p : Policy) (s : State) :
    driveStrap p s = { s with ovfPolicy := p, encMark := (driveStrap p s).encMark } := by
  unfold driveStrap
  split <;> rfl

theorem hostAction_encIn (a : HostAction) (s : State) :
    (hostAction a s).encIn = s.encIn ∨ ∃ tok, a = .offerEnc tok ∧ (hostAction a s).encIn = s.encIn ++ [tok] := by
  cases a with
  | offerEnc tok => exact .inr ⟨tok, rfl, rfl⟩
  | strap p => exact .inl (by rw [hostAction, driveStrap_frame])
  | offerDec _ | encReady _ | decReady _ | rst _ => exact .inl rfl

theorem hostAction_decIn (a : HostAction) (s : State) :
    (hostAction a s).decIn = s.decIn ∨ ∃ tok, a = .offerDec tok ∧ (hostAction a s).decIn = s.decIn ++ [tok] := by
  cases a with
  | offerDec tok => exact .inr ⟨tok, rfl, rfl⟩
  | strap p => exact .inl (by rw [hostAction, driveStrap_frame])
  | offerEnc _ | encReady _ | decReady _ | rst _ => exact .inl rfl

theorem hostAction_outputs_sched (a : HostAction) (s : State) :
    (hostAction a s).encOut = s.encOut ∧ (hostAction a s).decOut = s.decOut ∧ (hostAction a s).sched = s.sched := by
  cases a with
  | strap p => rw [hostAction, driveStrap_frame]; exact ⟨rfl, rfl, rfl⟩
  | offerEnc _ | offerDec _ | encReady _ | decReady _ | rst _ => exact ⟨rfl, rfl, rfl⟩

theorem ne_nil_of_head? {α : Type} {l : List α} {x : α} (h : l.head? = some x) : l ≠ [] := by
  rintro rfl
  cases h

/-- A turn leaves the encoder's input stream as it is, or takes its oldest token with the port ready. -/
theorem turnEffect_encIn {u : Turn} {s t : State} (e : TurnEffect u s t) :
    t.encIn = s.encIn ∨ (encInReady s = true ∧ s.encIn ≠ [] ∧ t.encIn = s.encIn.tail) := by
  cases e with
  | takesBit _ _ _ hr hd h | takesEncEnd _ _ hr hd h | refusesEnc _ _ hr hd h =>
    exact .inr ⟨hr, ne_nil_of_head? hd, h ▸ rfl⟩
  | nothing h | drains _ _ _ h | handsOverByte _ _ _ h | takesByte _ _ _ _ _ _ _ h | takesDecEnd _ _ _ _ h
  | refusesDec _ _ _ _ _ _ _ h | expands _ _ _ h | handsOverBit _ _ _ h => exact .inl (h ▸ rfl)

/-- A turn leaves the decoder's input stream as it is, or takes its oldest token with the port ready. -/
theorem turnEffect_decIn {u : Turn} {s t : State} (e : TurnEffect u s t) :
    t.decIn = s.decIn ∨ (decInReady s = true ∧ s.decIn ≠ [] ∧ t.decIn = s.decIn.tail) := by
  cases e with
  | takesByte _ _ _ _ hr hd _ h | takesDecEnd _ _ hr hd h | refusesDec _ _ _ _ hr hd _ h =>
    exact .inr ⟨hr, ne_nil_of_head? hd, h ▸ rfl⟩
  | nothing h | takesBit _ _ _ _ _ h | takesEncEnd _ _ _ _ h | refusesEnc _ _ _ _ h | drains _ _ _ h
  | handsOverByte _ _ _ h | expands _ _ _ h | handsOverBit _ _ _ h => exact .inl (h ▸ rfl)

/-- A turn adds nothing to the bytes received, or the held byte, whose valid bit clears. -/
theorem turnEffect_encOut {u : Turn} {s t : State} (e : TurnEffect u s t) :
    t.encOut = s.encOut ∨
      (encOutTransfer s = true ∧ t.encOut = s.encOut ++ [s.enc.obuf] ∧ t.enc = { s.enc with ovalid := false }) := by
  cases e with
  | handsOverByte _ _ hr h => exact .inr ⟨hr, h ▸ rfl, h ▸ rfl⟩
  | nothing h | takesBit _ _ _ _ _ h | takesEncEnd _ _ _ _ h | refusesEnc _ _ _ _ h | drains _ _ _ h
  | takesByte _ _ _ _ _ _ _ h | takesDecEnd _ _ _ _ h | refusesDec _ _ _ _ _ _ _ h | expands _ _ _ h
  | handsOverBit _ _ _ h => exact .inl (h ▸ rfl)

/-- A turn adds nothing to the bits received, or the held bit, whose valid bit clears. -/
theorem turnEffect_decOut {u : Turn} {s t : State} (e : TurnEffect u s t) :
    t.decOut = s.decOut ∨
      (decOutTransfer s = true ∧ t.decOut = s.decOut ++ [s.dec.obit] ∧ t.dec = { s.dec with ovalid := false }) := by
  cases e with
  | handsOverBit _ _ hr h => exact .inr ⟨hr, h ▸ rfl, h ▸ rfl⟩
  | nothing h | takesBit _ _ _ _ _ h | takesEncEnd _ _ _ _ h | refusesEnc _ _ _ _ h | drains _ _ _ h
  | takesByte _ _ _ _ _ _ _ h | takesDecEnd _ _ _ _ h | refusesDec _ _ _ _ _ _ _ h | expands _ _ _ h
  | handsOverByte _ _ _ h => exact .inl (h ▸ rfl)

/-- Settles O37: the host appends to an input stream, a turn takes from its head or appends the held output, and a
reset leaves all four streams. -/
theorem streamsAreFirstInFirstOut : Obligations.StreamsAreFirstInFirstOut := by
  intro s t h
  obtain ⟨-, ⟨a, ms, hs, rfl⟩ | ⟨ms, -, ⟨-, rfl⟩ | ⟨-, u, e⟩⟩⟩ := step_next h
  · obtain ⟨hencOut, hdecOut, hsched⟩ := hostAction_outputs_sched a (withSched ms s)
    refine ⟨?_, ?_, .inl hencOut, .inl hdecOut⟩
    · rcases hostAction_encIn a (withSched ms s) with hkeeps | ⟨tok, rfl, happ⟩
      · exact .inl hkeeps
      · exact .inr (.inr ⟨tok, hs.trans (by rw [hsched, withSched_sched]), happ⟩)
    · rcases hostAction_decIn a (withSched ms s) with hkeeps | ⟨tok, rfl, happ⟩
      · exact .inl hkeeps
      · exact .inr (.inr ⟨tok, hs.trans (by rw [hsched, withSched_sched]), happ⟩)
  · exact ⟨.inl rfl, .inl rfl, .inl rfl, .inl rfl⟩
  · exact ⟨(turnEffect_encIn (s := withSched ms s) e).imp_right .inl,
      (turnEffect_decIn (s := withSched ms s) e).imp_right .inl, turnEffect_encOut (s := withSched ms s) e,
      turnEffect_decOut (s := withSched ms s) e⟩

/-! ### Held outputs over an operation (R34) -/

/-- An encoder operation that writes the holding register needs it free, so a held byte stays; only the output transfer
clears its valid bit. -/
theorem encEffect_keepsHeldByte {i : Instr} {s t : State} (e : EncEffect i s t) (hv : s.enc.ovalid = true) :
    t.enc.obuf = s.enc.obuf ∧ (i ≠ .encOut → t.enc.ovalid = true) := by
  have hbusy : encInReady s = false := by simp [encInReady, hv]
  cases e with
  | waits h => rw [h]; exact ⟨rfl, fun _ => hv⟩
  | takesBit _ _ hr | takesEnd _ hr | refuses _ hr => simp [hbusy] at hr
  | drains _ hr => simp [zdrainSelected, hv] at hr
  | handsOver hi _ h => exact h ▸ ⟨rfl, fun hne => absurd hi hne⟩

/-- Taking a byte leaves the output holding register (R70, D27). -/
theorem takeByte_output (v : Byte) (d : Dec) :
    (takeByte v d).obit = d.obit ∧ (takeByte v d).ovalid = d.ovalid := by
  unfold takeByte
  split <;> exact ⟨rfl, rfl⟩

/-- `DEC_EXPAND` alone writes the holding register and needs it free; only the output transfer clears its valid bit. -/
theorem decEffect_keepsHeldBit {i : Instr} {s t : State} (e : DecEffect i s t) (hv : s.dec.ovalid = true) :
    t.dec.obit = s.dec.obit ∧ (i ≠ .decOut → t.dec.ovalid = true) := by
  cases e with
  | waits h | takesEnd _ _ h | refuses _ _ _ h => rw [h]; exact ⟨rfl, fun _ => hv⟩
  | takesByte v _ _ h =>
    obtain ⟨hobit, hovalid⟩ := takeByte_output v s.dec
    exact h ▸ ⟨hobit, fun _ => hovalid.trans hv⟩
  | expands _ hr => simp [expandSelected, hv] at hr
  | handsOver hi _ h => exact h ▸ ⟨rfl, fun hne => absurd hi hne⟩

/-- An input stream that keeps its tokens, loses its oldest at a ready port or gains one at its end still offers the
same token, or that token has passed. -/
theorem head?_stays_or_passes {α : Type} {old new : List α} {x : α} {ready : Prop} {gains : α → Prop}
    (hx : old.head? = some x)
    (h : new = old ∨ (ready ∧ old ≠ [] ∧ new = old.tail) ∨ ∃ y, gains y ∧ new = old ++ [y]) :
    new.head? = some x ∨ (ready ∧ new = old.tail) := by
  rcases h with rfl | ⟨hr, -, htail⟩ | ⟨y, -, rfl⟩
  · exact .inl hx
  · exact .inr ⟨hr, htail⟩
  · exact .inl (by simp [hx])

/-- Settles O36: the input streams by O37, the held outputs by the effects of each machine's operations and, for the
other machine, by their frames. -/
theorem offeredTokensAndHeldOutputsAreStable : Obligations.OfferedTokensAndHeldOutputsAreStable := by
  refine ⟨fun s t tok h htok => ?_, fun s t tok h htok => ?_, fun s t i h hne => ?_⟩
  · obtain ⟨hin, -⟩ := streamsAreFirstInFirstOut s t h
    exact head?_stays_or_passes htok hin
  · obtain ⟨-, hin, -⟩ := streamsAreFirstInFirstOut s t h
    exact head?_stays_or_passes htok hin
  · rcases instr_cases i with hi | hi | hi
    · obtain ⟨-, -, e⟩ := exec_encoder_next hi h
      have hdec : t.dec = s.dec := by rw [encEffect_frame e]
      exact ⟨encEffect_keepsHeldByte e, fun hv => by rw [hdec]; exact ⟨rfl, fun _ => hv⟩⟩
    · obtain ⟨-, e⟩ := exec_decoder_next hi h
      have henc : t.enc = s.enc := by rw [decEffect_frame e]
      exact ⟨fun hv => by rw [henc]; exact ⟨rfl, fun _ => hv⟩, decEffect_keepsHeldBit e⟩
    · exact absurd hi hne

/-! ### The signals (R33) -/

theorem encOutValid_iff (s : State) : encOutValid s = true ↔ s.rst = false ∧ s.enc.ovalid = true := by
  simp [encOutValid]

theorem decOutValid_iff (s : State) : decOutValid s = true ↔ s.rst = false ∧ s.dec.ovalid = true := by
  simp [decOutValid]

/-- The outputs are a function of the registers and `rst` alone. -/
theorem outputs_congr {s u : State} (he : u.enc = s.enc) (hd : u.dec = s.dec) (hr : u.rst = s.rst) :
    outputs u = outputs s := by
  simp only [outputs, encInReady, encOutValid, encDone, decInReady, decOutValid, decDone, he, hd, hr]

/-- Settles O5, from the reading of each signal. -/
theorem signalsAreTheFunctionsOfTheRegisters : Obligations.SignalsAreTheFunctionsOfTheRegisters :=
  fun s => ⟨encInReady_iff s, encOutValid_iff s, encDone_iff s, decInReady_iff s, decOutValid_iff s, decDone_iff s,
    fun _ => outputs_congr⟩

/-! ### The events of one edge (R44, R106)

Each of the encoder's events asks for other values of `ENC_ZPEND` and `ENC_OVALID`, and `DEC_EXPAND` for other values of
`DEC_REM` and `DEC_OVALID` than the decoder's transfers. -/

theorem encInReady_excludes {s : State} (h : encInReady s = true) :
    zdrainSelected s = false ∧ encOutTransfer s = false := by
  obtain ⟨-, -, hz, hv⟩ := (encInReady_iff s).mp h
  simp [zdrainSelected, encOutTransfer, encOutValid, hz, hv]

theorem zdrainSelected_excludes {s : State} (h : zdrainSelected s = true) :
    encInReady s = false ∧ encOutTransfer s = false := by
  obtain ⟨-, hz, hv⟩ := (zdrainSelected_iff s).mp h
  simp [encInReady, encOutTransfer, encOutValid, hz, hv]

theorem encOutTransfer_excludes {s : State} (h : encOutTransfer s = true) :
    encInReady s = false ∧ zdrainSelected s = false := by
  obtain ⟨-, hv, -⟩ := (encOutTransfer_iff s).mp h
  simp [encInReady, zdrainSelected, hv]

theorem expandSelected_excludes {s : State} (h : expandSelected s = true) :
    decInReady s = false ∧ decOutTransfer s = false := by
  obtain ⟨-, hrem, hv⟩ := (expandSelected_iff s).mp h
  simp [decInReady, decOutTransfer, decOutValid, hrem, hv]

/-- The turns of one machine whose operation happens at the edge; `firingCount` is their number. -/
def firing (enc : Bool) (s : State) : List Turn := (edgeTurns s).filter (fun t => isEncTurn t == enc)

theorem firing_enc (s : State) :
    firing true s = [Turn.encOut, .encInternal, .encIn].filter (fun t => turnFires t s) := by
  rw [firing, edgeTurns, List.filter_comm]
  rfl

theorem firing_dec (s : State) :
    firing false s = [Turn.decOut, .decInternal, .decIn].filter (fun t => turnFires t s) := by
  rw [firing, edgeTurns, List.filter_comm]
  rfl

theorem turnFires_encIn_iff {s : State} :
    turnFires .encIn s = true ↔ s.encMark = none ∧ (∃ tok toks, s.encIn = tok :: toks) ∧ encInReady s = true := by
  simp [turnFires, encInValid, List.ne_nil_iff_exists_cons, and_assoc]

theorem turnFires_encInternal_iff {s : State} :
    turnFires .encInternal s = true ↔ s.encMark = none ∧ zdrainSelected s = true := by
  simp [turnFires]

theorem turnFires_encOut_iff {s : State} :
    turnFires .encOut s = true ↔ s.encMark = none ∧ encOutTransfer s = true := by
  simp [turnFires]

theorem turnFires_decIn_iff {s : State} :
    turnFires .decIn s = true ↔ s.decMark = none ∧ (∃ tok toks, s.decIn = tok :: toks) ∧ decInReady s = true := by
  simp [turnFires, decInValid, List.ne_nil_iff_exists_cons, and_assoc]

theorem turnFires_decInternal_iff {s : State} :
    turnFires .decInternal s = true ↔ s.decMark = none ∧ expandSelected s = true := by
  simp [turnFires]

theorem turnFires_decOut_iff {s : State} :
    turnFires .decOut s = true ↔ s.decMark = none ∧ decOutTransfer s = true := by
  simp [turnFires]

/-- At most one encoder event happens at an edge: the list of them, case by case. -/
theorem firing_enc_cases (s : State) :
    (firing true s = [.encOut] ∧ turnFires .encOut s = true) ∨
    (firing true s = [.encInternal] ∧ turnFires .encInternal s = true) ∨
    (firing true s = [.encIn] ∧ turnFires .encIn s = true) ∨
    (firing true s = [] ∧ ∀ u, isEncTurn u = true → turnFires u s = false) := by
  rw [firing_enc]
  by_cases hout : turnFires .encOut s = true
  · obtain ⟨hready, hdrain⟩ := encOutTransfer_excludes (turnFires_encOut_iff.mp hout).2
    have hin : turnFires .encIn s = false := by simp [turnFires, hready]
    have hint : turnFires .encInternal s = false := by simp [turnFires, hdrain]
    exact .inl ⟨by simp [hout, hin, hint], hout⟩
  by_cases hint : turnFires .encInternal s = true
  · obtain ⟨hready, -⟩ := zdrainSelected_excludes (turnFires_encInternal_iff.mp hint).2
    have hin : turnFires .encIn s = false := by simp [turnFires, hready]
    exact .inr (.inl ⟨by simp [hout, hint, hin], hint⟩)
  by_cases hin : turnFires .encIn s = true
  · exact .inr (.inr (.inl ⟨by simp [hout, hint, hin], hin⟩))
  · refine .inr (.inr (.inr ⟨by simp [hout, hint, hin], fun u hu => ?_⟩))
    cases u with
    | encIn => exact eq_false_of_ne_true hin
    | encInternal => exact eq_false_of_ne_true hint
    | encOut => exact eq_false_of_ne_true hout
    | decIn | decInternal | decOut => cases hu

/-- `DEC_EXPAND` excludes the decoder's two transfers. -/
theorem turnFires_decInternal_excludes {s : State} (h : turnFires .decInternal s = true) :
    turnFires .decIn s = false ∧ turnFires .decOut s = false := by
  obtain ⟨hready, hout⟩ := expandSelected_excludes (turnFires_decInternal_iff.mp h).2
  simp [turnFires, hready, hout]

/-- The decoder's events at an edge: the expansion alone, or the transfers whose handshakes hold. -/
theorem firing_dec_cases (s : State) :
    (firing false s = [.decInternal] ∧ turnFires .decInternal s = true) ∨
    (firing false s = [.decOut] ∧ turnFires .decOut s = true ∧ turnFires .decIn s = false) ∨
    (firing false s = [.decIn] ∧ turnFires .decIn s = true ∧ turnFires .decOut s = false) ∨
    (firing false s = [.decOut, .decIn] ∧ turnFires .decOut s = true ∧ turnFires .decIn s = true) ∨
    (firing false s = [] ∧ turnFires .decInternal s = false ∧ turnFires .decOut s = false ∧
      turnFires .decIn s = false) := by
  rw [firing_dec]
  by_cases hint : turnFires .decInternal s = true
  · obtain ⟨hin, hout⟩ := turnFires_decInternal_excludes hint
    exact .inl ⟨by simp [hint, hin, hout], hint⟩
  · cases hout : turnFires .decOut s <;> cases hin : turnFires .decIn s <;> simp [hint, hout, hin]

/-- Settles O34, from the possible lists of events of each machine. -/
theorem eventsAtOneEdgeExcludeOneAnother : Obligations.EventsAtOneEdgeExcludeOneAnother := by
  intro s
  refine ⟨?_, ?_, turnFires_decInternal_excludes⟩
  · change (firing true s).length ≤ 1
    rcases firing_enc_cases s with ⟨h, -⟩ | ⟨h, -⟩ | ⟨h, -⟩ | ⟨h, -⟩ <;> simp [h]
  · change (firing false s).length ≤ 2
    rcases firing_dec_cases s with ⟨h, -⟩ | ⟨h, -⟩ | ⟨h, -⟩ | ⟨h, -⟩ | ⟨h, -⟩ <;> simp [h]

/-! ### What the edge function does where each event happens

The register-transfer functions `encEdge` and `decEdge` are read here once for each event, as the effect of that event's
operation. -/

/-- The effect of the encoder token `tok` passing: it is consumed and its operation (R46) happens. -/
def passEncToken (tok : EncToken) (s : State) : State :=
  if encKind tok then
    if encData tok then markEnc .reservedEncToken (popEncIn s) else withEnc (takeEnd s.enc) (popEncIn s)
  else withEnc (takeBit s.ovfPolicy (encData tok) s.enc) (popEncIn s)

/-- The effect of the decoder token `tok` passing: it is consumed and its operation (R48) happens. -/
def passDecToken (tok : DecToken) (s : State) : State :=
  if decKind tok then
    if decValue tok = 0#8 then withDec (takeDecEnd s.dec) (popDecIn s) else markDec .reservedDecToken (popDecIn s)
  else withDec (takeByte (decValue tok) s.dec) (popDecIn s)

/-- The effect of `DEC_OUT`: the host receives the held bit. -/
def handOverBit (s : State) : State := withDec (releaseBit s.dec) (receiveBit s)

theorem runTurn_encIn_passes {s : State} {tok : EncToken} {toks : List EncToken} (hp : s.enc.phase ≠ .illegal)
    (h : turnFires .encIn s = true) (hi : s.encIn = tok :: toks) :
    runTurn .encIn s = .next (passEncToken tok s) := by
  have hpop : { s with encIn := toks } = popEncIn s := by simp [popEncIn, hi]
  obtain ⟨hm, -, hr⟩ := turnFires_encIn_iff.mp h
  rw [runTurn_encIn_fires h hi, hpop, decodeEnc, passEncToken]
  split
  · split <;> exact encoderOp_next.mpr ⟨hp, hm, .inl ⟨hr, rfl⟩⟩
  · exact encoderOp_next.mpr ⟨hp, hm, .inl ⟨hr, rfl⟩⟩

theorem runTurn_decIn_passes {s : State} {tok : DecToken} {toks : List DecToken} (h : turnFires .decIn s = true)
    (hi : s.decIn = tok :: toks) : runTurn .decIn s = .next (passDecToken tok s) := by
  have hpop : { s with decIn := toks } = popDecIn s := by simp [popDecIn, hi]
  obtain ⟨hm, -, hr⟩ := turnFires_decIn_iff.mp h
  rw [runTurn_decIn_fires h hi, hpop, decodeDec, passDecToken]
  split
  · split <;> exact decoderOp_next.mpr ⟨hm, .inl ⟨hr, rfl⟩⟩
  · exact decoderOp_next.mpr ⟨hm, .inl ⟨hr, rfl⟩⟩

theorem encEdge_of_encOut {s : State} (h : turnFires .encOut s = true) :
    encEdge s = withEnc (releaseByte s.enc) (receiveByte s) := by
  obtain ⟨hm, hout⟩ := turnFires_encOut_iff.mp h
  obtain ⟨hready, hdrain⟩ := encOutTransfer_excludes hout
  simp [encEdge, hm, hout, hready, hdrain, withEnc, releaseByte, receiveByte]

theorem encEdge_of_encInternal {s : State} (h : turnFires .encInternal s = true) :
    encEdge s = withEnc (drainZero s.enc) s := by
  obtain ⟨hm, hdrain⟩ := turnFires_encInternal_iff.mp h
  obtain ⟨hready, hout⟩ := zdrainSelected_excludes hdrain
  simp [encEdge, hm, hdrain, hready, hout, withEnc, drainZero, emitE]

theorem encEdge_of_quiet {s : State} (h : ∀ u, isEncTurn u = true → turnFires u s = false) : encEdge s = s := by
  have hin : (s.encMark.isNone && encInValid s && encInReady s) = false := h .encIn rfl
  have hdrain : (s.encMark.isNone && zdrainSelected s) = false := h .encInternal rfl
  have hout : (s.encMark.isNone && encOutTransfer s) = false := h .encOut rfl
  simp [encEdge, hin, hdrain, hout]

/-- The new registers at an edge at which a data bit passes are those of `ENC_BIT` (R60, R61). -/
theorem encEdge_of_bit {s : State} {tok : EncToken} {toks : List EncToken} (h : turnFires .encIn s = true)
    (hi : s.encIn = tok :: toks) (hk : encKind tok = false) :
    encEdge s = withEnc (takeBit s.ovfPolicy (encData tok) s.enc) (popEncIn s) := by
  obtain ⟨hm, -, hready⟩ := turnFires_encIn_iff.mp h
  have hvalid : encInValid s = true := by simp [encInValid, hi]
  obtain ⟨hdrain, hout⟩ := encInReady_excludes hready
  obtain ⟨-, hp, -, -⟩ := (encInReady_iff s).mp hready
  simp only [encEdge, hm, hvalid, hready, hdrain, hout, hi, hk, popEncIn, withEnc, List.headD_cons, List.tail_cons,
    Option.isNone_none, Bool.not_false, Bool.true_and, Bool.and_true, Bool.and_false, Bool.false_and, Bool.or_false,
    Bool.false_eq_true, if_true, if_false]
  rcases hp with hp | hp
  · cases hb : encData tok <;> simp [hp, takeBit, takeFirstBit, emitE]
  · by_cases hc : encData tok = s.enc.cur
    · by_cases hrun : s.enc.run = 255#8
      · cases hpol : s.ovfPolicy <;> simp [hp, hc, hrun, takeBit, extendRun, overflowRestart, emitE]
      · simp [hp, hc, hrun, takeBit, extendRun]
    · simp [hp, hc, takeBit, endRun, emitE]

theorem encEdge_of_encIn {s : State} {tok : EncToken} {toks : List EncToken} (h : turnFires .encIn s = true)
    (hi : s.encIn = tok :: toks) : encEdge s = passEncToken tok s := by
  obtain ⟨hm, -, hready⟩ := turnFires_encIn_iff.mp h
  have hvalid : encInValid s = true := by simp [encInValid, hi]
  obtain ⟨hdrain, hout⟩ := encInReady_excludes hready
  obtain ⟨-, hp, -, -⟩ := (encInReady_iff s).mp hready
  unfold passEncToken
  cases hk : encKind tok
  · simpa using encEdge_of_bit h hi hk
  · cases hd : encData tok
    · rcases hp with hp | hp <;>
        simp [encEdge, hready, hvalid, hout, hdrain, hi, hk, hd, hp, hm, takeEnd, popEncIn, withEnc, emitE]
    · simp [encEdge, hready, hvalid, hout, hdrain, hi, hk, hd, hm, markEnc, popEncIn]

theorem decEdge_of_decInternal {s : State} (h : turnFires .decInternal s = true) :
    decEdge s = withDec (expandBit s.dec) s := by
  obtain ⟨hm, hexp⟩ := turnFires_decInternal_iff.mp h
  obtain ⟨hready, hout⟩ := expandSelected_excludes hexp
  simp [decEdge, hm, hexp, hready, hout, withDec, expandBit, emitD]

theorem decEdge_of_quiet {s : State} (hin : turnFires .decIn s = false) (hexp : turnFires .decInternal s = false)
    (hout : turnFires .decOut s = false) : decEdge s = s := by
  simp only [turnFires] at hin hexp hout
  simp [decEdge, hin, hexp, hout]

theorem decEdge_of_decOut {s : State} (h : turnFires .decOut s = true) (hin : turnFires .decIn s = false) :
    decEdge s = handOverBit s := by
  have hexp : turnFires .decInternal s = false := by
    by_contra hexp
    simp [turnFires_decInternal_excludes (Bool.eq_true_of_not_eq_false hexp)] at h
  simp only [turnFires] at h hin hexp
  simp [decEdge, h, hexp, hin, handOverBit, withDec, releaseBit, receiveBit]

theorem decEdge_of_decIn {s : State} {tok : DecToken} {toks : List DecToken} (h : turnFires .decIn s = true)
    (hi : s.decIn = tok :: toks) :
    decEdge s = passDecToken tok (if decOutTransfer s then handOverBit s else s) := by
  obtain ⟨hm, -, hready⟩ := turnFires_decIn_iff.mp h
  have hvalid : decInValid s = true := by simp [decInValid, hi]
  have hexp : expandSelected s = false := by
    by_contra hexp
    simp [expandSelected_excludes (Bool.eq_true_of_not_eq_false hexp)] at hready
  simp only [decEdge, hm, hvalid, hready, hexp, hi, passDecToken, Option.isNone_none, Bool.true_and, Bool.false_and,
    Bool.false_or, Bool.false_eq_true, List.headD_cons, if_true, if_false]
  cases hk : decKind tok
  · by_cases h0 : decValue tok = 0#8 <;> cases hout : decOutTransfer s <;>
      simp [hi, hm, h0, takeByte, handOverBit, releaseBit, receiveBit, withDec, popDecIn]
  · by_cases h0 : decValue tok = 0#8 <;> cases hout : decOutTransfer s <;>
      simp [hi, hm, h0, takeDecEnd, markDec, handOverBit, releaseBit, receiveBit, withDec, popDecIn]

/-! ### Turns of one machine beside the other's side -/

theorem select_isEncoder {u : Turn} {s : State} {i : Instr} (hu : isEncTurn u = true) (hr : s.rst = false)
    (h : select u s = some i) : i.isEncoder = true := by
  simp only [select, hr, Bool.false_eq_true, if_false] at h
  cases u with
  | encIn =>
    obtain ⟨tok, -, rfl⟩ := Option.map_eq_some_iff.mp h
    exact decodeEnc_isEncoder tok
  | encInternal | encOut =>
    obtain ⟨-, hi⟩ := Option.ite_none_right_eq_some.mp h
    exact Option.some.inj hi ▸ rfl
  | decIn | decInternal | decOut => cases hu

theorem select_isDecoder {u : Turn} {s : State} {i : Instr} (hu : isEncTurn u = false) (hr : s.rst = false)
    (h : select u s = some i) : i.isDecoder = true := by
  simp only [select, hr, Bool.false_eq_true, if_false] at h
  cases u with
  | decIn =>
    obtain ⟨tok, -, rfl⟩ := Option.map_eq_some_iff.mp h
    exact decodeDec_isDecoder tok
  | decInternal | decOut =>
    obtain ⟨-, hi⟩ := Option.ite_none_right_eq_some.mp h
    exact Option.some.inj hi ▸ rfl
  | encIn | encInternal | encOut => cases hu

theorem select_withDecSide {u : Turn} (d s : State) (hu : isEncTurn u = true) :
    select u (withDecSide d s) = select u s := by
  cases u with
  | encIn | encInternal | encOut => rfl
  | decIn | decInternal | decOut => cases hu

theorem select_withEncSide {u : Turn} (e s : State) (hu : isEncTurn u = false) :
    select u (withEncSide e s) = select u s := by
  cases u with
  | decIn | decInternal | decOut => rfl
  | encIn | encInternal | encOut => cases hu

theorem consume_withDecSide {u : Turn} (d s : State) (hu : isEncTurn u = true) :
    consume u (withDecSide d s) = withDecSide d (consume u s) := by
  cases u with
  | encIn => exact (apply_ite (withDecSide d) (encInReady s = true) (popEncIn s) s).symm
  | encInternal | encOut => rfl
  | decIn | decInternal | decOut => cases hu

theorem consume_withEncSide {u : Turn} (e s : State) (hu : isEncTurn u = false) :
    consume u (withEncSide e s) = withEncSide e (consume u s) := by
  cases u with
  | decIn => exact (apply_ite (withEncSide e) (decInReady s = true) (popDecIn s) s).symm
  | decInternal | decOut => rfl
  | encIn | encInternal | encOut => cases hu

/-- An encoder turn reads and writes nothing of the decoder's side. -/
theorem runTurn_withDecSide {u : Turn} {s t : State} (d : State) (hu : isEncTurn u = true) (hr : s.rst = false)
    (h : runTurn u s = .next t) : runTurn u (withDecSide d s) = .next (withDecSide d t) := by
  rw [runTurn, select_withDecSide d s hu, consume_withDecSide d s hu]
  cases hi : select u s with
  | none =>
    rw [runTurn_none hi] at h
    exact Host.Outcome.next.inj h ▸ rfl
  | some i =>
    rw [runTurn_some hi] at h
    exact exec_encoder_withDecSide d (select_isEncoder hu hr hi) h

/-- A decoder turn reads and writes nothing of the encoder's side. -/
theorem runTurn_withEncSide {u : Turn} {s t : State} (e : State) (hu : isEncTurn u = false) (hr : s.rst = false)
    (h : runTurn u s = .next t) : runTurn u (withEncSide e s) = .next (withEncSide e t) := by
  rw [runTurn, select_withEncSide e s hu, consume_withEncSide e s hu]
  cases hi : select u s with
  | none =>
    rw [runTurn_none hi] at h
    exact Host.Outcome.next.inj h ▸ rfl
  | some i =>
    rw [runTurn_some hi] at h
    exact exec_decoder_withEncSide e (select_isDecoder hu hr hi) h

theorem runTurn_enc_frame {u : Turn} {s t : State} (hu : isEncTurn u = true) (hr : s.rst = false)
    (h : runTurn u s = .next t) : t = withEncSide t s := by
  cases runTurn_next hr h with
  | nothing h | takesBit _ _ _ _ _ h | takesEncEnd _ _ _ _ h | refusesEnc _ _ _ _ h | drains _ _ _ h
  | handsOverByte _ _ _ h => exact h ▸ rfl
  | takesByte _ _ hd | takesDecEnd hd | refusesDec _ _ hd | expands hd | handsOverBit hd => cases hd; cases hu

theorem runTurn_dec_frame {u : Turn} {s t : State} (hu : isEncTurn u = false) (hr : s.rst = false)
    (h : runTurn u s = .next t) : t = withDecSide t s := by
  cases runTurn_next hr h with
  | nothing h | takesByte _ _ _ _ _ _ _ h | takesDecEnd _ _ _ _ h | refusesDec _ _ _ _ _ _ _ h | expands _ _ _ h
  | handsOverBit _ _ _ h => exact h ▸ rfl
  | takesBit _ he | takesEncEnd he | refusesEnc he | drains he | handsOverByte he => cases he; cases hu

/-! ### Interleaving (R44) -/

theorem runTurns_cons_of_next {u : Turn} {us : List Turn} {s t : State} (h : runTurn u s = .next t) :
    runTurns (u :: us) s = runTurns us t := by
  rw [runTurns, h]

theorem runTurns_cons_next {u : Turn} {us : List Turn} {s t : State} (h : runTurns (u :: us) s = .next t) :
    ∃ s', runTurn u s = .next s' ∧ runTurns us s' = .next t := by
  rw [runTurns] at h
  split at h
  · exact ⟨_, by assumption, h⟩
  · cases h
  · cases h

theorem runTurns_singleton_of_next {u : Turn} {s t : State} (h : runTurn u s = .next t) :
    runTurns [u] s = .next t :=
  runTurns_cons_of_next h

theorem runTurns_withDecSide (d : State) {us : List Turn} {s t : State} (hus : ∀ u ∈ us, isEncTurn u = true)
    (hr : s.rst = false) (h : runTurns us s = .next t) :
    runTurns us (withDecSide d s) = .next (withDecSide d t) := by
  induction us generalizing s with
  | nil => exact Host.Outcome.next.inj h ▸ rfl
  | cons u us ih =>
    obtain ⟨hu, hus⟩ := List.forall_mem_cons.mp hus
    obtain ⟨s', hstep, hrest⟩ := runTurns_cons_next h
    have hr' : s'.rst = false := by rw [runTurn_enc_frame hu hr hstep]; exact hr
    rw [runTurns_cons_of_next (runTurn_withDecSide d hu hr hstep)]
    exact ih hus hr' hrest

theorem runTurns_withEncSide (e : State) {us : List Turn} {s t : State} (hus : ∀ u ∈ us, isEncTurn u = false)
    (hr : s.rst = false) (h : runTurns us s = .next t) :
    runTurns us (withEncSide e s) = .next (withEncSide e t) := by
  induction us generalizing s with
  | nil => exact Host.Outcome.next.inj h ▸ rfl
  | cons u us ih =>
    obtain ⟨hu, hus⟩ := List.forall_mem_cons.mp hus
    obtain ⟨s', hstep, hrest⟩ := runTurns_cons_next h
    have hr' : s'.rst = false := by rw [runTurn_dec_frame hu hr hstep]; exact hr
    rw [runTurns_cons_of_next (runTurn_withEncSide e hu hr hstep)]
    exact ih hus hr' hrest

/-- The turns of a list that are one machine's, in their order. -/
def turnsOf (enc : Bool) (ts : List Turn) : List Turn := ts.filter (fun t => isEncTurn t == enc)

theorem isEncTurn_of_mem_turnsOf {enc : Bool} {ts : List Turn} : ∀ u ∈ turnsOf enc ts, isEncTurn u = enc := by
  simp [turnsOf]

/-- Any interleaving of turns of the two machines gives what the encoder's turns alone give on the encoder's side and
the decoder's turns alone on the decoder's side. -/
theorem runTurns_interleaved {ts : List Turn} {s a b : State} (hr : s.rst = false)
    (ha : runTurns (turnsOf true ts) s = .next a) (hb : runTurns (turnsOf false ts) s = .next b) :
    runTurns ts s = .next (withEncSide a b) := by
  induction ts generalizing s a b with
  | nil =>
    cases ha
    cases hb
    rfl
  | cons u us ih =>
    cases hu : isEncTurn u with
    | true =>
      rw [turnsOf, List.filter_cons_of_pos (by simp [hu])] at ha
      rw [turnsOf, List.filter_cons_of_neg (by simp [hu])] at hb
      obtain ⟨s', hstep, hrest⟩ := runTurns_cons_next ha
      have hframe : s' = withEncSide s' s := runTurn_enc_frame hu hr hstep
      have hdec : runTurns (turnsOf false us) s' = .next (withEncSide s' b) := by
        rw [hframe]
        exact runTurns_withEncSide s' isEncTurn_of_mem_turnsOf hr hb
      have hr' : s'.rst = false := by rw [hframe]; exact hr
      rw [runTurns_cons_of_next hstep, ih hr' hrest hdec]
      rfl
    | false =>
      rw [turnsOf, List.filter_cons_of_neg (by simp [hu])] at ha
      rw [turnsOf, List.filter_cons_of_pos (by simp [hu])] at hb
      obtain ⟨s', hstep, hrest⟩ := runTurns_cons_next hb
      have hframe : s' = withDecSide s' s := runTurn_dec_frame hu hr hstep
      have henc : runTurns (turnsOf true us) s' = .next (withDecSide s' a) := by
        rw [hframe]
        exact runTurns_withDecSide s' isEncTurn_of_mem_turnsOf hr ha
      have hr' : s'.rst = false := by rw [hframe]; exact hr
      rw [runTurns_cons_of_next hstep, ih hr' henc hrest]
      rfl

/-! ### Each machine's events give its edge function -/

theorem runTurns_firing_enc {s : State} (hp : s.enc.phase ≠ .illegal) :
    runTurns (firing true s) s = .next (encEdge s) := by
  rcases firing_enc_cases s with ⟨hl, h⟩ | ⟨hl, h⟩ | ⟨hl, h⟩ | ⟨hl, h⟩ <;> rw [hl]
  · rw [encEdge_of_encOut h]
    exact runTurns_singleton_of_next (runTurn_encOut_fires hp h)
  · rw [encEdge_of_encInternal h]
    exact runTurns_singleton_of_next (runTurn_encInternal_fires hp h)
  · obtain ⟨-, ⟨tok, toks, hi⟩, -⟩ := turnFires_encIn_iff.mp h
    rw [encEdge_of_encIn h hi]
    exact runTurns_singleton_of_next (runTurn_encIn_passes hp h hi)
  · rw [encEdge_of_quiet h]
    rfl

/-- With at most one event there is one order. -/
theorem eq_firing_enc_of_perm {us : List Turn} {s : State} (h : us.Perm (firing true s)) : us = firing true s := by
  rcases firing_enc_cases s with ⟨hl, -⟩ | ⟨hl, -⟩ | ⟨hl, -⟩ | ⟨hl, -⟩ <;> rw [hl] at h ⊢ <;> simpa using h

/-- Taking a byte and handing over the held bit write different registers. -/
theorem passDecToken_handOverBit (tok : DecToken) (s : State) :
    passDecToken tok (handOverBit s) = handOverBit (passDecToken tok s) := by
  unfold passDecToken takeByte
  split
  · split <;> rfl
  · by_cases h0 : decValue tok = 0#8 <;> simp [h0, handOverBit, releaseBit, receiveBit, withDec, popDecIn]

/-- Only a reserved token keeps the decoder from handing over the held bit after it. -/
theorem turnFires_decOut_passDecToken {tok : DecToken} (s : State) (h : ∀ x, decodeDec tok ≠ .decReserved x) :
    turnFires .decOut (passDecToken tok s) = turnFires .decOut s := by
  unfold decodeDec at h
  unfold passDecToken
  cases hk : decKind tok with
  | true =>
    by_cases h0 : decValue tok = 0#8
    · simp only [h0, if_true]
      rfl
    · simp [hk, h0] at h
  | false =>
    obtain ⟨-, hovalid⟩ := takeByte_output (decValue tok) s.dec
    simp [turnFires, decOutTransfer, decOutValid, hovalid]

theorem runTurns_decOut_decIn {s : State} {tok : DecToken} {toks : List DecToken} (hout : turnFires .decOut s = true)
    (hin : turnFires .decIn s = true) (hi : s.decIn = tok :: toks) :
    runTurns [.decOut, .decIn] s = .next (passDecToken tok (handOverBit s)) := by
  rw [runTurns_cons_of_next (runTurn_decOut_fires hout)]
  exact runTurns_singleton_of_next (runTurn_decIn_passes (s := handOverBit s) hin hi)

theorem runTurns_decIn_decOut {s : State} {tok : DecToken} {toks : List DecToken} (hout : turnFires .decOut s = true)
    (hin : turnFires .decIn s = true) (hi : s.decIn = tok :: toks) (hres : ∀ x, decodeDec tok ≠ .decReserved x) :
    runTurns [.decIn, .decOut] s = .next (passDecToken tok (handOverBit s)) := by
  have hout' : turnFires .decOut (passDecToken tok s) = true := (turnFires_decOut_passDecToken s hres).trans hout
  rw [runTurns_cons_of_next (runTurn_decIn_passes hin hi), passDecToken_handOverBit]
  exact runTurns_singleton_of_next (runTurn_decOut_fires hout')

/-- The decoder's events at an edge, in any order; the input transfer before the output transfer only where the token
is not reserved. -/
theorem runTurns_dec_events {us : List Turn} {s : State} (hperm : us.Perm (firing false s))
    (hres : us = [.decIn, .decOut] → ∀ x, offeredDecInstr s ≠ some (.decReserved x)) :
    runTurns us s = .next (decEdge s) := by
  rcases firing_dec_cases s with
      ⟨hl, h⟩ | ⟨hl, hout, hin⟩ | ⟨hl, hin, hout⟩ | ⟨hl, hout, hin⟩ | ⟨hl, hexp, hout, hin⟩ <;>
    rw [hl] at hperm
  · rw [List.perm_singleton.mp hperm, decEdge_of_decInternal h]
    exact runTurns_singleton_of_next (runTurn_decInternal_fires h)
  · rw [List.perm_singleton.mp hperm, decEdge_of_decOut hout hin]
    exact runTurns_singleton_of_next (runTurn_decOut_fires hout)
  · obtain ⟨hm, ⟨tok, toks, hi⟩, -⟩ := turnFires_decIn_iff.mp hin
    have hkeeps : decOutTransfer s = false := by simpa [turnFires, hm] using hout
    rw [List.perm_singleton.mp hperm, decEdge_of_decIn hin hi, hkeeps]
    exact runTurns_singleton_of_next (runTurn_decIn_passes hin hi)
  · obtain ⟨-, ⟨tok, toks, hi⟩, -⟩ := turnFires_decIn_iff.mp hin
    rw [decEdge_of_decIn hin hi, (turnFires_decOut_iff.mp hout).2, if_pos rfl]
    rcases List.perm_pair.mp hperm with rfl | rfl
    · exact runTurns_decOut_decIn hout hin hi
    · refine runTurns_decIn_decOut hout hin hi fun x hx => hres rfl x ?_
      rw [offeredDecInstr, hi, List.head?_cons, Option.map_some, hx]
  · rw [List.perm_nil.mp hperm, decEdge_of_quiet hin hexp hout]
    rfl

/-- A list without repetition holds two elements in the order in which a sublist holds them. -/
theorem idxOf_lt_of_pair_sublist {α : Type} [DecidableEq α] {x y : α} {l : List α} (hsub : [x, y].Sublist l)
    (hnd : l.Nodup) : l.idxOf x < l.idxOf y := by
  induction l with
  | nil => cases hsub
  | cons z zs ih =>
    obtain ⟨hz, hnd⟩ := List.nodup_cons.mp hnd
    cases hsub with
    | cons _ hsub =>
      have hx : z ≠ x := fun h => hz (h ▸ hsub.mem (by simp))
      have hy : z ≠ y := fun h => hz (h ▸ hsub.mem (by simp))
      rw [List.idxOf_cons_ne zs hx, List.idxOf_cons_ne zs hy]
      exact Nat.succ_lt_succ (ih hsub hnd)
    | cons_cons _ hsub =>
      have hy : x ≠ y := fun h => hz (h ▸ hsub.mem (by simp))
      rw [List.idxOf_cons_self, List.idxOf_cons_ne zs hy]
      exact Nat.succ_pos _

theorem clockEdge_of_running {s : State} (hp : s.enc.phase ≠ .illegal) (hr : s.rst = false) :
    clockEdge s = .next (decEdge (encEdge s)) := by
  rw [clockEdge, faultIfIllegal_of_legal hp, hr]
  rfl

theorem clockEdge_of_rst {s : State} (hr : s.rst = true) : clockEdge s = exec .reset s := by
  simp only [clockEdge, exec, execReset, hr, if_true]

theorem turnFires_of_mem_edgeTurns {u : Turn} {s : State} (h : u ∈ edgeTurns s) : turnFires u s = true :=
  (List.mem_filter.mp h).2

theorem edgeTurns_nodup (s : State) : (edgeTurns s).Nodup :=
  List.Nodup.filter _ (by decide)

/-- The edge of two machines at once: each writes its own side from the state before the edge. -/
theorem withEncSide_encEdge_decEdge (s : State) : withEncSide (encEdge s) (decEdge s) = decEdge (encEdge s) := rfl

/-- The edge is its events in any order that takes the held bit before a reserved token passes. -/
theorem runTurns_perm_edgeTurns {ts : List Turn} {s : State} (hp : s.enc.phase ≠ .illegal) (hr : s.rst = false)
    (hperm : ts.Perm (edgeTurns s))
    (hfirst : ∀ x, offeredDecInstr s = some (.decReserved x) → decInReady s = true → decOutTransfer s = true →
      ts.idxOf .decOut < ts.idxOf .decIn) :
    runTurns ts s = clockEdge s := by
  have henc : runTurns (turnsOf true ts) s = .next (encEdge s) := by
    rw [eq_firing_enc_of_perm (us := turnsOf true ts) (hperm.filter _)]
    exact runTurns_firing_enc hp
  have hdec : runTurns (turnsOf false ts) s = .next (decEdge s) := by
    refine runTurns_dec_events (hperm.filter _) fun hinFirst x hx => ?_
    have hsub : [.decIn, .decOut].Sublist ts := hinFirst ▸ List.filter_sublist
    have hin : turnFires .decIn s = true :=
      turnFires_of_mem_edgeTurns (hperm.mem_iff.mp (hsub.mem List.mem_cons_self))
    have hout : turnFires .decOut s = true :=
      turnFires_of_mem_edgeTurns (hperm.mem_iff.mp (hsub.mem (List.mem_cons_of_mem _ List.mem_cons_self)))
    have hlt : ts.idxOf .decIn < ts.idxOf .decOut :=
      idxOf_lt_of_pair_sublist hsub (hperm.nodup_iff.mpr (edgeTurns_nodup s))
    exact absurd (hfirst x hx (turnFires_decIn_iff.mp hin).2.2 (turnFires_decOut_iff.mp hout).2) (Nat.lt_asymm hlt)
  rw [clockEdge_of_running hp hr, ← withEncSide_encEdge_decEdge]
  exact runTurns_interleaved hr henc hdec

/-- In the order of the default host the output transfer comes before the input transfer. -/
theorem decOut_before_decIn_edgeTurns {s : State} (hout : turnFires .decOut s = true)
    (hin : turnFires .decIn s = true) : (edgeTurns s).idxOf .decOut < (edgeTurns s).idxOf .decIn := by
  refine idxOf_lt_of_pair_sublist ?_ (edgeTurns_nodup s)
  have hsub : [Turn.decOut, .decIn].Sublist turnOrder := by decide
  simpa [edgeTurns, hout, hin] using hsub.filter (fun t => turnFires t s)

/-- Settles O35: each machine's events give its own edge function (`runTurns_firing_enc`, `runTurns_dec_events`), and
turns of the two machines interleave freely (`runTurns_interleaved`). -/
theorem clockEdgeIsAnyInterleavingOfItsOperations : Obligations.ClockEdgeIsAnyInterleavingOfItsOperations := by
  refine ⟨fun s hl hr => ?_, fun s ts hl hr hperm hfirst => ?_, fun s t hr => ?_⟩
  · obtain ⟨hp, -, hm⟩ := hl
    refine runTurns_perm_edgeTurns hp hr (List.Perm.refl _) fun x hx hready hout => ?_
    refine decOut_before_decIn_edgeTurns (turnFires_decOut_iff.mpr ⟨hm, hout⟩) ?_
    obtain ⟨tok, htok, -⟩ := Option.map_eq_some_iff.mp hx
    exact turnFires_decIn_iff.mpr ⟨hm, ⟨tok, List.head?_eq_some_iff.mp htok⟩, hready⟩
  · obtain ⟨hp, -, -⟩ := hl
    exact runTurns_perm_edgeTurns hp hr hperm hfirst
  · exact ⟨runTurn_of_rst hr, clockEdge_of_rst hr⟩
end Sys2Proof.Machine

/-! ## The encoding of 30_encoding.md: the two token formats, and the operation a turn selects

A `DEC_IN` token is its two fields (`decKind`, `decValue`), and R48 reads nothing else of it. The tables of R46 and R48
are then one equivalence, `decode_eq_iff`, from which both round trips follow. What each
turn selects with `rst = 0` is said once (`select_…`), and the statements on the step cite that reading. -/

namespace Sys2Proof.Machine

/-! ### The fields of a decoder token (R47) -/

theorem decKind_iff (t : DecToken) : decKind t = true ↔ 256 ≤ t.toNat := by
  have h : t.msb = decKind t := BitVec.msb_eq_getLsbD_last t
  simp [← h, BitVec.msb_eq_decide]

theorem decValue_toNat (t : DecToken) : (decValue t).toNat = t.toNat % 256 := by
  simp [decValue]

theorem decValue_eq_ofNat (t : DecToken) : decValue t = BitVec.ofNat 8 (t.toNat % 256) :=
  BitVec.eq_of_toNat_eq (by simp [decValue_toNat])

theorem toNat_byteToken (v : Byte) : (v.setWidth 9).toNat = v.toNat :=
  BitVec.toNat_setWidth_of_le (by decide)

theorem toNat_reservedToken (x : Byte) : (0x100#9 ||| x.setWidth 9).toNat = 256 + x.toNat := by
  have h := Nat.two_pow_add_eq_or_of_lt (i := 8) x.isLt 1
  rw [BitVec.toNat_or, toNat_byteToken]
  exact h.symm

/-- A token with bit 8 clear is its field `V`. -/
theorem eq_byteToken_iff (t : DecToken) (v : Byte) : t = v.setWidth 9 ↔ decKind t = false ∧ decValue t = v := by
  have hv := v.isLt
  have ht := t.isLt
  rw [← Bool.not_eq_true, decKind_iff, ← BitVec.toNat_inj, ← BitVec.toNat_inj, decValue_toNat, toNat_byteToken]
  omega

/-- A token with bit 8 set is bit 8 and its field `V`. -/
theorem eq_reservedToken_iff (t : DecToken) (x : Byte) :
    t = 0x100#9 ||| x.setWidth 9 ↔ decKind t = true ∧ decValue t = x := by
  have hx := x.isLt
  have ht := t.isLt
  rw [decKind_iff, ← BitVec.toNat_inj, ← BitVec.toNat_inj, decValue_toNat, toNat_reservedToken]
  omega

theorem eq_decEndToken_iff (t : DecToken) : t = 0x100#9 ↔ decKind t = true ∧ decValue t = 0#8 :=
  eq_reservedToken_iff t 0#8

/-- R48's condition on the low byte. -/
theorem decValue_ne_zero_iff (t : DecToken) : decValue t ≠ 0#8 ↔ t.toNat % 256 ≠ 0 := by
  rw [Ne, ← BitVec.toNat_inj, decValue_toNat]
  rfl

/-! ### The tables of R46, R48 and R52, read in both directions -/

theorem decodeDec_decByte {t : DecToken} {v : Byte} : decodeDec t = .decByte v ↔ t = v.setWidth 9 := by
  rw [eq_byteToken_iff, decodeDec]
  split
  · rename_i hk
    split <;> simp [hk]
  · rename_i hk
    simp [hk]

theorem decodeDec_decReserved {t : DecToken} {x : Byte} :
    decodeDec t = .decReserved x ↔ x ≠ 0#8 ∧ t = 0x100#9 ||| x.setWidth 9 := by
  rw [eq_reservedToken_iff, decodeDec]
  split
  · rename_i hk
    split
    · rename_i hv
      exact iff_of_false nofun fun ⟨hx, _, h⟩ => hx (h.symm.trans hv)
    · rename_i hv
      simp only [Instr.decReserved.injEq, hk, true_and]
      exact ⟨fun h => ⟨h ▸ hv, h⟩, fun h => h.2⟩
  · rename_i hk
    simp [hk]

theorem decodeDec_of_byte {t : DecToken} (hk : decKind t = false) : decodeDec t = .decByte (decValue t) :=
  decodeDec_decByte.mpr ((eq_byteToken_iff t _).mpr ⟨hk, rfl⟩)

/-- A token with bit 8 set and a low byte other than 0 is reserved (R52). -/
theorem decodeDec_of_reserved {t : DecToken} (hk : decKind t = true) (hv : decValue t ≠ 0#8) :
    decodeDec t = .decReserved (decValue t) :=
  decodeDec_decReserved.mpr ⟨hv, (eq_reservedToken_iff t _).mpr ⟨hk, rfl⟩⟩

theorem decodeEnc_ne {t : EncToken} {i : Instr} (h : i.takesEncToken = false) : decodeEnc t ≠ i := by
  rintro rfl
  simp [decodeEnc_takes] at h

theorem decodeDec_ne {t : DecToken} {i : Instr} (h : i.takesDecToken = false) : decodeDec t ≠ i := by
  rintro rfl
  simp [decodeDec_takes] at h

theorem decodeEnc_eq_iff (t : EncToken) (i : Instr) :
    decodeEnc t = i ↔ i.wellFormed = true ∧ encode i = some (.enc t) := by
  cases i with
  | encBit b => simp [decodeEnc_encBit, Instr.wellFormed, encode, eq_comm (a := t)]
  | encEnd => simp [decodeEnc_encEnd, Instr.wellFormed, encode, eq_comm (a := t)]
  | encReserved => simp [decodeEnc_encReserved, Instr.wellFormed, encode, eq_comm (a := t)]
  | decByte _ | decEnd | decReserved _ | encZdrain | encOut | decExpand | decOut | reset =>
    exact iff_of_false (decodeEnc_ne rfl) (by simp [encode])

theorem decodeDec_eq_iff (t : DecToken) (i : Instr) :
    decodeDec t = i ↔ i.wellFormed = true ∧ encode i = some (.dec t) := by
  cases i with
  | decByte v => simp [decodeDec_decByte, Instr.wellFormed, encode, eq_comm (a := t)]
  | decEnd => simp [decodeDec_decEnd, Instr.wellFormed, encode, eq_comm (a := t)]
  | decReserved x => simp [decodeDec_decReserved, Instr.wellFormed, encode, eq_comm (a := t)]
  | encBit _ | encEnd | encReserved | encZdrain | encOut | decExpand | decOut | reset =>
    exact iff_of_false (decodeDec_ne rfl) (by simp [encode])

/-- Decoding and encoding are inverse between the tokens and the well-formed operations that have one. -/
theorem decode_eq_iff (tok : Token) (i : Instr) :
    decode tok = i ↔ i.wellFormed = true ∧ encode i = some tok := by
  cases tok with
  | enc t => exact decodeEnc_eq_iff t i
  | dec t => exact decodeDec_eq_iff t i

theorem encode_isSome_iff (i : Instr) :
    (encode i).isSome = true ↔ i.takesEncToken = true ∨ i.takesDecToken = true := by
  cases i <;> simp [encode, Instr.takesEncToken, Instr.takesDecToken]

/-! ### Table words -/

theorem decodeTableWord_of_token {n w : Nat} {tok : Token} (h : tokenOfWord n w = .ok tok) :
    decodeTableWord n w = some (decode tok) := by
  simp [decodeTableWord, decodeWord, h]

/-- The word of an operation is the word of its token. -/
theorem tokenOfWord_of_encodeWord {i : Instr} {n w : Nat} (h : encodeWord i = some (n, w)) :
    ∃ tok, encode i = some tok ∧ tokenOfWord n w = .ok tok := by
  unfold encodeWord at h
  split at h
  · rename_i t ht
    cases h
    exact ⟨_, ht, by simp [tokenOfWord, t.isLt]⟩
  · rename_i t ht
    cases h
    exact ⟨_, ht, by simp [tokenOfWord, t.isLt]⟩
  · cases h

/-! ### The obligations on tokens -/

/-- Settles O3: a token decodes to the well-formed operation that encodes to it (`decode_eq_iff`), and the table word is
the token's own value. -/
theorem decodeOfEncodeIsTheOperation : Obligations.DecodeOfEncodeIsTheOperation := by
  intro i hwf
  have hround : ∀ tok, encode i = some tok → decode tok = i := fun tok h => (decode_eq_iff tok i).mpr ⟨hwf, h⟩
  refine ⟨hround, fun n w h => ?_, encode_isSome_iff i⟩
  obtain ⟨tok, henc, hword⟩ := tokenOfWord_of_encodeWord h
  rw [decodeTableWord_of_token hword, hround tok henc]

/-- Settles O4, from `decode_eq_iff`; two tokens of one meaning are both its encoding. -/
theorem encodeOfDecodeIsTheToken : Obligations.EncodeOfDecodeIsTheToken := by
  intro tok
  obtain ⟨hwf, henc⟩ := (decode_eq_iff tok _).mp rfl
  refine ⟨hwf, henc, fun tok' h => ?_⟩
  obtain ⟨-, henc'⟩ := (decode_eq_iff tok' _).mp h
  exact Option.some.inj (henc'.symm.trans henc)

/-- Settles O1, by evaluating the nine words. -/
theorem decodeOfSampleWords : Obligations.DecodeOfSampleWords := by
  unfold Obligations.DecodeOfSampleWords
  decide

/-- Settles O2: R48's three conditions are those on the fields `K` and `V`. -/
theorem tokensDecodeByTheTables : Obligations.TokensDecodeByTheTables := by
  refine ⟨by decide, by decide, by decide, by decide, fun t => ?_⟩
  have hkind : t.getLsbD 8 = decKind t := rfl
  rw [hkind, ← decValue_eq_ofNat, ← decValue_ne_zero_iff]
  refine ⟨decodeDec_of_byte, decodeDec_decEnd.mpr, decodeDec_of_reserved, ?_⟩
  rw [eq_decEndToken_iff]
  cases decKind t with
  | false => simp
  | true => simp [em]

/-! ### Reserved tokens (R52, R103) -/

theorem markEnc_of_unmarked {s : State} {r : RefuseReason} (h : s.encMark = none) :
    markEnc r s = { s with encMark := some r } := by
  rw [markEnc, h, Option.none_or]

theorem markDec_of_unmarked {s : State} {r : RefuseReason} (h : s.decMark = none) :
    markDec r s = { s with decMark := some r } := by
  rw [markDec, h, Option.none_or]

theorem exec_encReserved {s : State} (hp : s.enc.phase ≠ .illegal) (hm : s.encMark = none) :
    exec .encReserved s =
      .next (if encInReady s then { s with encMark := some .reservedEncToken } else s) := by
  rw [exec, execEncReserved, encoderOp_of_legal hp hm, markEnc_of_unmarked hm]

theorem exec_decReserved {s : State} (x : Byte) (hm : s.decMark = none) :
    exec (.decReserved x) s =
      .next (if decInReady s then { s with decMark := some .reservedDecToken } else s) := by
  rw [exec, execDecReserved, decoderOp_of_unmarked hm, markDec_of_unmarked hm]

/-- From 0x101 on bit 8 is set and the low byte is not 0. -/
theorem decodeDec_of_ge_0x101 {t : DecToken} (h : 0x101 ≤ t.toNat) : decodeDec t = .decReserved (decValue t) := by
  have ht := t.isLt
  exact decodeDec_of_reserved ((decKind_iff t).mpr (by omega)) ((decValue_ne_zero_iff t).mpr (by omega))

/-- Settles O21: a ready port marks the machine, and `decodeDec_of_ge_0x101` says which tokens are reserved. -/
theorem reservedTokensRefuseWhenTheyPass : Obligations.ReservedTokensRefuseWhenTheyPass := by
  refine ⟨fun s hp hm => ?_, fun s x hm => ?_, by decide, fun t h => ⟨_, decodeDec_of_ge_0x101 h⟩⟩
  · rw [exec_encReserved hp hm]
    exact ⟨fun hr => by rw [if_pos hr], fun hr => by simp [hr]⟩
  · rw [exec_decReserved x hm]
    exact ⟨fun hr => by rw [if_pos hr], fun hr => by simp [hr]⟩

/-! ### A scheduled turn, by what it selects -/

theorem step_of_selected {s : State} {u : Turn} {ms : List Move} {i : Instr} (hp : s.enc.phase ≠ .illegal)
    (hs : s.sched = .turn u :: ms) (hsel : select u (withSched ms s) = some i)
    (hcon : consume u (withSched ms s) = withSched ms s) : step s = exec i { s with sched := ms } := by
  rw [step_turn hp hs, runTurn_some hsel, hcon]
  rfl

theorem step_of_unselected {s : State} {u : Turn} {ms : List Move} (hp : s.enc.phase ≠ .illegal)
    (hs : s.sched = .turn u :: ms) (hsel : select u (withSched ms s) = none) :
    step s = .next { s with sched := ms } :=
  (step_turn hp hs).trans (runTurn_none hsel)

/-! ### The input turns (R32, R46, R48) -/

theorem select_encIn {s : State} (hr : s.rst = false) : select .encIn s = s.encIn.head?.map decodeEnc := by
  simp [select, offeredEncInstr, hr]

theorem select_decIn {s : State} (hr : s.rst = false) : select .decIn s = s.decIn.head?.map decodeDec := by
  simp [select, offeredDecInstr, hr]

theorem runTurn_encIn {s : State} {tok : EncToken} {toks : List EncToken} (hr : s.rst = false)
    (hi : s.encIn = tok :: toks) :
    runTurn .encIn s = exec (decodeEnc tok) (if encInReady s then { s with encIn := toks } else s) := by
  rw [runTurn_some (i := decodeEnc tok) (by simp [select_encIn hr, hi]), consume, popEncIn, hi,
    List.tail_cons]

theorem runTurn_decIn {s : State} {tok : DecToken} {toks : List DecToken} (hr : s.rst = false)
    (hi : s.decIn = tok :: toks) :
    runTurn .decIn s = exec (decodeDec tok) (if decInReady s then { s with decIn := toks } else s) := by
  rw [runTurn_some (i := decodeDec tok) (by simp [select_decIn hr, hi]), consume, popDecIn, hi,
    List.tail_cons]

/-- A step at the encoder's input turn, token offered: the port's readiness does not depend on the schedule. -/
theorem step_encIn {s : State} {ms : List Move} {tok : EncToken} {toks : List EncToken}
    (hp : s.enc.phase ≠ .illegal) (hr : s.rst = false) (hs : s.sched = .turn .encIn :: ms)
    (hi : s.encIn = tok :: toks) :
    (encInReady s = true → step s = exec (decodeEnc tok) { s with sched := ms, encIn := toks }) ∧
    (encInReady s = false → step s = exec (decodeEnc tok) { s with sched := ms }) := by
  have hready : encInReady (withSched ms s) = encInReady s := rfl
  rw [step_turn hp hs, runTurn_encIn (s := withSched ms s) hr hi, hready]
  exact ⟨fun h => by rw [if_pos h]; rfl, fun h => by rw [if_neg (by simp [h])]; rfl⟩

theorem step_decIn {s : State} {ms : List Move} {tok : DecToken} {toks : List DecToken}
    (hp : s.enc.phase ≠ .illegal) (hr : s.rst = false) (hs : s.sched = .turn .decIn :: ms)
    (hi : s.decIn = tok :: toks) :
    (decInReady s = true → step s = exec (decodeDec tok) { s with sched := ms, decIn := toks }) ∧
    (decInReady s = false → step s = exec (decodeDec tok) { s with sched := ms }) := by
  have hready : decInReady (withSched ms s) = decInReady s := rfl
  rw [step_turn hp hs, runTurn_decIn (s := withSched ms s) hr hi, hready]
  exact ⟨fun h => by rw [if_pos h]; rfl, fun h => by rw [if_neg (by simp [h])]; rfl⟩

/-- Settles O39: each port's input turn, with a token offered and with none. -/
theorem stepRunsTheOfferedOperation : Obligations.StepRunsTheOfferedOperation := by
  refine ⟨fun s ms tok toks => step_encIn, fun s ms tok toks => step_decIn,
    fun s ms hp hr => ⟨fun hs hi => ?_, fun hs hi => ?_⟩⟩
  · exact step_of_unselected hp hs (by simp [select_encIn (s := withSched ms s) hr, hi])
  · exact step_of_unselected hp hs (by simp [select_decIn (s := withSched ms s) hr, hi])

theorem withFetchWord_enc {s : State} {n w : Nat} {tok : EncToken} (h : tokenOfWord n w = .ok (.enc tok)) :
    s.withFetchWord n w = { s with rst := false, encIn := tok :: s.encIn, sched := .turn .encIn :: s.sched } := by
  rw [State.withFetchWord, placeWord, h]

theorem withFetchWord_dec {s : State} {n w : Nat} {tok : DecToken} (h : tokenOfWord n w = .ok (.dec tok)) :
    s.withFetchWord n w = { s with rst := false, decIn := tok :: s.decIn, sched := .turn .decIn :: s.sched } := by
  rw [State.withFetchWord, placeWord, h]

/-- Settles O43: the placed word is the offered token at its port's turn (`step_encIn`, `step_decIn`). -/
theorem placedWordRunsNext : Obligations.PlacedWordRunsNext := by
  intro s n w hp
  refine ⟨fun tok h => ⟨decodeTableWord_of_token h, ?_⟩, fun tok h => ⟨decodeTableWord_of_token h, ?_⟩⟩
  · rw [withFetchWord_enc h]
    exact step_encIn
      (s := { s with rst := false, encIn := tok :: s.encIn, sched := .turn .encIn :: s.sched }) hp rfl rfl rfl
  · rw [withFetchWord_dec h]
    exact step_decIn
      (s := { s with rst := false, decIn := tok :: s.decIn, sched := .turn .decIn :: s.sched }) hp rfl rfl rfl

/-! ### The turns that no token selects (R49) -/

theorem select_encInternal {s : State} (hr : s.rst = false) :
    select .encInternal s = if s.enc.zpend && !s.enc.ovalid then some .encZdrain else none := by
  simp [select, zdrainSelected, hr]

theorem select_encOut {s : State} (hr : s.rst = false) :
    select .encOut s = if s.enc.ovalid && s.encOutReady then some .encOut else none := by
  simp [select, encOutTransfer, encOutValid, hr]

theorem select_decInternal {s : State} (hr : s.rst = false) :
    select .decInternal s = if s.dec.rem != 0#8 && !s.dec.ovalid then some .decExpand else none := by
  simp [select, expandSelected, hr]

theorem select_decOut {s : State} (hr : s.rst = false) :
    select .decOut s = if s.dec.ovalid && s.decOutReady then some .decOut else none := by
  simp [select, decOutTransfer, decOutValid, hr]

/-- Settles O40: each turn's condition is its `select_…` equation, and these turns consume no token. -/
theorem stepRunsTheSelectedOperation : Obligations.StepRunsTheSelectedOperation := by
  intro s ms hp
  refine ⟨fun hr t hs => step_of_selected hp hs (select_of_rst hr) (consume_of_rst hr), fun hr => ?_⟩
  have hr' : (withSched ms s).rst = false := hr
  refine ⟨?_, ?_, ?_, ?_, ?_, ?_, ?_, ?_, ?_⟩
  · exact fun hs hz hv => step_of_selected hp hs (by simp [select_encInternal hr', hz, hv]) rfl
  · exact fun hs hv hy => step_of_selected hp hs (by simp [select_encOut hr', hv, hy]) rfl
  · exact fun hs hm hv => step_of_selected hp hs (by simp [select_decInternal hr', hm, hv]) rfl
  · exact fun hs hv hy => step_of_selected hp hs (by simp [select_decOut hr', hv, hy]) rfl
  · exact fun hs h => step_of_unselected hp hs (by rcases h with h | h <;> simp [select_encInternal hr', h])
  · exact fun hs h => step_of_unselected hp hs (by rcases h with h | h <;> simp [select_encOut hr', h])
  · exact fun hs h => step_of_unselected hp hs (by rcases h with h | h <;> simp [select_decInternal hr', h])
  · exact fun hs h => step_of_unselected hp hs (by rcases h with h | h <;> simp [select_decOut hr', h])
  · exact execReset_next.mpr ⟨hp, by simp [hr]⟩

/-! ### The default host (R54) -/

/-- A turn that fires has an operation selected. -/
theorem select_of_turnFires {u : Turn} {s : State} (hr : s.rst = false) (h : turnFires u s = true) :
    ∃ i, select u s = some i := by
  cases u with
  | encIn =>
    obtain ⟨-, ⟨tok, toks, hi⟩, -⟩ := turnFires_encIn_iff.mp h
    exact ⟨decodeEnc tok, by simp [select_encIn hr, hi]⟩
  | decIn =>
    obtain ⟨-, ⟨tok, toks, hi⟩, -⟩ := turnFires_decIn_iff.mp h
    exact ⟨decodeDec tok, by simp [select_decIn hr, hi]⟩
  | encInternal => exact ⟨.encZdrain, by simp [select, hr, (turnFires_encInternal_iff.mp h).2]⟩
  | encOut => exact ⟨.encOut, by simp [select, hr, (turnFires_encOut_iff.mp h).2]⟩
  | decInternal => exact ⟨.decExpand, by simp [select, hr, (turnFires_decInternal_iff.mp h).2]⟩
  | decOut => exact ⟨.decOut, by simp [select, hr, (turnFires_decOut_iff.mp h).2]⟩

/-- Settles O42: the default turn fires where one is found (`defaultTurn_fires`), and where none is found no turn fires
(`defaultTurn_none`). -/
theorem defaultHostRunsWhatCanHappen : Obligations.DefaultHostRunsWhatCanHappen := by
  intro s hp hs
  refine ⟨fun hr => ?_, fun hr ⟨u, hu⟩ => ?_, fun hr hquiet he hd => ?_⟩
  · rw [step_default hp hs, defaultStep, if_pos hr]
  · cases hdef : defaultTurn s with
    | none => simp [defaultTurn_none hdef u] at hu
    | some v =>
      have hv := defaultTurn_fires hdef
      obtain ⟨i, hi⟩ := select_of_turnFires hr hv
      exact ⟨v, i, hv, hi, (step_of_defaultTurn hp hr hs hdef).trans (runTurn_some hi)⟩
  · have hdef : defaultTurn s = none := List.find?_eq_none.mpr fun u _ => by simp [hquiet u]
    rw [step_default hp hs, defaultStep, hdef, if_neg (by simp [hr])]
    exact idleStep_next.mpr ⟨he, hd, rfl⟩

/-! ### Token programs (R54, R55) -/

theorem bitStrForm_tokens (bits : List Bit) :
    (bitStrForm bits).map encItemToken = bits.map (fun b => if b then 0b01#2 else 0b00#2) :=
  List.map_map

theorem bytesForm_tokens (bytes : List Byte) :
    (bytesForm bytes).map decItemToken = bytes.map (fun v => BitVec.ofNat 9 v.toNat) := by
  simp [bytesForm, decItemToken, Function.comp_def]

theorem bitTokens_eq (bits : List Bit) :
    bitTokens bits = bits.map (fun b => if b then 0b01#2 else 0b00#2) ++ [0b10#2] := by
  simp only [bitTokens, encodeForm, programEncTokens, List.map_append, bitStrForm_tokens, List.append_nil]
  rfl

theorem byteTokens_eq (bytes : List Byte) :
    byteTokens bytes = bytes.map (fun v => BitVec.ofNat 9 v.toNat) ++ [0x100#9] := by
  simp only [byteTokens, decodeForm, programDecTokens, List.map_append, bytesForm_tokens, List.append_nil]
  rfl

/-- Settles O46: each form's tokens are those of its items, and at reset both queues are empty, so that the loaded
program is all there is to come. -/
theorem loadedProgramStartsBothStreams : Obligations.LoadedProgramStartsBothStreams := by
  refine ⟨fun b n => List.map_replicate, bitStrForm_tokens, bytesForm_tokens, bitTokens_eq, byteTokens_eq,
    fun p bits bytes => ⟨?_, ?_⟩⟩
  · exact ⟨rfl, rfl, rfl, rfl, rfl, encTokensToCome_idle rfl, rfl⟩
  · exact ⟨rfl, rfl, rfl, decTokensToCome_idle rfl, rfl⟩

end Sys2Proof.Machine

/-! ## The encoder operations of 41_encoder.md: results and waiting -/

namespace Sys2Proof.Machine

/-! ### `encInReady` by cases, and an operation's result as one equation (R60 to R65) -/

theorem encInReady_of_waiting {s : State}
    (h : s.rst = true ∨ s.enc.phase = .done ∨ s.enc.zpend = true ∨ s.enc.ovalid = true) : encInReady s = false := by
  rcases h with h | h | h | h <;> simp [encInReady, h]

theorem exec_encBit {s : State} (b : Bit) (hp : s.enc.phase ≠ .illegal) (hm : s.encMark = none) :
    exec (.encBit b) s = .next (if encInReady s then withEnc (takeBit s.ovfPolicy b s.enc) s else s) :=
  encoderOp_of_legal hp hm

theorem exec_encEnd {s : State} (hp : s.enc.phase ≠ .illegal) (hm : s.encMark = none) :
    exec .encEnd s = .next (if encInReady s then withEnc (takeEnd s.enc) s else s) :=
  encoderOp_of_legal hp hm

theorem exec_encZdrain {s : State} (hp : s.enc.phase ≠ .illegal) (hm : s.encMark = none) :
    exec .encZdrain s = .next (if zdrainSelected s then withEnc (drainZero s.enc) s else s) :=
  encoderOp_of_legal hp hm

theorem exec_encOut {s : State} (hp : s.enc.phase ≠ .illegal) (hm : s.encMark = none) :
    exec .encOut s = .next (if encOutTransfer s then withEnc (releaseByte s.enc) (receiveByte s) else s) :=
  encoderOp_of_legal hp hm

/-! ### `ENC_BIT` and `ENC_END` on the registers, one equation per case of R60, R61 and R63 -/

theorem takeBit_of_empty {p : Policy} {b : Bit} {e : Enc} (hp : e.phase = .empty) :
    takeBit p b e = takeFirstBit b e := by
  rw [takeBit, hp]

theorem takeBit_of_same {p : Policy} {b : Bit} {e : Enc} (hp : e.phase = .run) (hb : b = e.cur)
    (hrun : e.run ≠ 255#8) : takeBit p b e = { e with run := e.run + 1#8 } := by
  rw [takeBit, hp]
  simp only [hb, if_true, extendRun, if_neg hrun, hp]

theorem takeBit_of_overflow {p : Policy} {b : Bit} {e : Enc} (hp : e.phase = .run) (hb : b = e.cur)
    (hrun : e.run = 255#8) : takeBit p b e = overflowRestart p e := by
  rw [takeBit, hp]
  simp only [hb, if_true, extendRun, if_pos hrun]

theorem takeBit_of_other {p : Policy} {b : Bit} {e : Enc} (hp : e.phase = .run) (hb : b ≠ e.cur) :
    takeBit p b e = endRun b e := by
  rw [takeBit, hp]
  simp only [if_neg hb]

theorem takeEnd_of_empty {e : Enc} (hp : e.phase = .empty) : takeEnd e = { e with phase := .done } := by
  rw [takeEnd, hp]

theorem takeEnd_of_run {e : Enc} (hp : e.phase = .run) :
    takeEnd e = { e with obuf := e.run, ovalid := true, phase := .done } := by
  rw [takeEnd, hp]
  rfl

/-- The overflow's registers, the policy read as R61 reads it. -/
theorem overflowRestart_eq (p : Policy) (e : Enc) :
    overflowRestart p e =
      { e with obuf := 255#8, ovalid := true, run := 1#8, zpend := if p = .synthZero then true else e.zpend } := by
  cases p <;> rfl

@[simp] theorem drainZero_phase (e : Enc) : (drainZero e).phase = e.phase := rfl
@[simp] theorem drainZero_zpend (e : Enc) : (drainZero e).zpend = false := rfl
@[simp] theorem drainZero_ovalid (e : Enc) : (drainZero e).ovalid = true := rfl
@[simp] theorem releaseByte_zpend (e : Enc) : (releaseByte e).zpend = e.zpend := rfl
@[simp] theorem releaseByte_ovalid (e : Enc) : (releaseByte e).ovalid = false := rfl

/-- Where the encoder is ready, `ENC_BIT` writes `takeBit`. -/
theorem exec_encBit_of_ready {s : State} (b : Bit) (hm : s.encMark = none) (hr : encInReady s = true) :
    exec (.encBit b) s = .next (withEnc (takeBit s.ovfPolicy b s.enc) s) := by
  obtain ⟨-, hphase, -⟩ := (encInReady_iff s).mp hr
  rw [exec_encBit b (by rcases hphase with h | h <;> simp [h]) hm, if_pos hr]

theorem exec_encEnd_of_ready {s : State} (hm : s.encMark = none) (hr : encInReady s = true) :
    exec .encEnd s = .next (withEnc (takeEnd s.enc) s) := by
  obtain ⟨-, hphase, -⟩ := (encInReady_iff s).mp hr
  rw [exec_encEnd (by rcases hphase with h | h <;> simp [h]) hm, if_pos hr]

/-- A token's operation waits where the encoder is not ready (R65). -/
theorem exec_waits_of_not_ready {s : State} {i : Instr} (hi : i.takesEncToken = true) (hp : s.enc.phase ≠ .illegal)
    (hm : s.encMark = none) (hr : encInReady s = false) : exec i s = .next s := by
  cases i with
  | encBit b => rw [exec_encBit b hp hm, if_neg (by simp [hr])]
  | encEnd => rw [exec_encEnd hp hm, if_neg (by simp [hr])]
  | encReserved => rw [exec_encReserved hp hm, if_neg (by simp [hr])]
  | decByte _ | decEnd | encZdrain | encOut | decExpand | decOut | reset | decReserved _ => cases hi

/-! ### The obligations on single operations -/

/-- Settles O6: `exec_encBit_of_ready` with the case's `takeBit_of_…`; a count other than 255 does not wrap. -/
theorem encBitTakesOneBit : Obligations.EncBitTakesOneBit := by
  intro s b hp hm
  refine ⟨decodeEnc_encBit.mpr rfl, fun hr hz hv => ?_, fun hwait =>
    exec_waits_of_not_ready rfl hp hm (encInReady_of_waiting hwait)⟩
  have hexec : s.enc.phase = .empty ∨ s.enc.phase = .run →
      exec (.encBit b) s = .next (withEnc (takeBit s.ovfPolicy b s.enc) s) :=
    fun hphase => exec_encBit_of_ready b hm ((encInReady_iff s).mpr ⟨hr, hphase, hz, hv⟩)
  refine ⟨fun hphase hb => ?_, fun hphase hb => ?_, fun hphase hb hrun => ⟨?_, by bv_omega⟩,
    fun hphase hb hrun => ?_, fun hphase hb => ?_⟩
  · rw [hexec (.inl hphase), takeBit_of_empty hphase, hb]
    rfl
  · rw [hexec (.inl hphase), takeBit_of_empty hphase, hb]
    rfl
  · rw [hexec (.inr hphase), takeBit_of_same hphase hb hrun]
    rfl
  · rw [hexec (.inr hphase), takeBit_of_overflow hphase hb hrun, overflowRestart_eq]
    rfl
  · rw [hexec (.inr hphase), takeBit_of_other hphase hb]
    rfl

/-- Settles O7: `takeBit_of_overflow` for each policy. -/
theorem overflowRestartEmits255 : Obligations.OverflowRestartEmits255 := by
  intro s hm hr hphase hz hv hrun
  have hexec : ∀ p, s.ovfPolicy = p →
      exec (.encBit s.enc.cur) s = .next (withEnc (overflowRestart p s.enc) s) := by
    rintro p rfl
    rw [exec_encBit_of_ready _ hm ((encInReady_iff s).mpr ⟨hr, .inr hphase, hz, hv⟩),
      takeBit_of_overflow hphase rfl hrun]
  exact ⟨hexec .literal, hexec .synthZero⟩

/-- Settles O8; the last clause is clause 4 of R25. -/
theorem encZdrainEmitsTheOwedZero : Obligations.EncZdrainEmitsTheOwedZero := by
  intro s hp hm
  refine ⟨fun hr hz hv => ?_, fun hwait => ?_, fun hz => encInReady_of_waiting (.inr (.inr (.inl hz))),
    fun hinv hpol => ?_⟩
  · rw [exec_encZdrain hp hm, if_pos ((zdrainSelected_iff s).mpr ⟨hr, hz, hv⟩)]
    rfl
  · have hno : zdrainSelected s = false := by rcases hwait with h | h | h <;> simp [zdrainSelected, h]
    rw [exec_encZdrain hp hm, if_neg (by simp [hno])]
  · obtain ⟨⟨-, -, -, howed, -⟩, -⟩ := hinv
    refine eq_false_of_ne_true fun hz => ?_
    obtain ⟨hsynth, -⟩ := howed hz
    cases hpol.symm.trans hsynth

/-- Settles O9: `takeEnd` in each phase that takes END. -/
theorem encEndEmitsThePendingRun : Obligations.EncEndEmitsThePendingRun := by
  refine ⟨decodeEnc_encEnd.mpr rfl, fun s hp hm => ⟨fun hr hz hv => ⟨fun hphase => ?_, fun hphase => ?_⟩,
    fun hwait => exec_waits_of_not_ready rfl hp hm (encInReady_of_waiting hwait)⟩⟩
  · rw [exec_encEnd_of_ready hm ((encInReady_iff s).mpr ⟨hr, .inl hphase, hz, hv⟩), takeEnd_of_empty hphase]
    rfl
  · rw [exec_encEnd_of_ready hm ((encInReady_iff s).mpr ⟨hr, .inr hphase, hz, hv⟩), takeEnd_of_run hphase]
    rfl

theorem exec_encOut_of_transfer {s : State} (hp : s.enc.phase ≠ .illegal) (hm : s.encMark = none)
    (hr : s.rst = false) (hv : s.enc.ovalid = true) (hy : s.encOutReady = true) :
    exec .encOut s = .next (withEnc (releaseByte s.enc) (receiveByte s)) := by
  rw [exec_encOut hp hm, if_pos ((encOutTransfer_iff s).mpr ⟨hr, hv, hy⟩)]

/-- Settles O10, with the handshake and with either side of it missing. -/
theorem encOutHandsOverTheByte : Obligations.EncOutHandsOverTheByte := by
  intro s hp hm
  refine ⟨exec_encOut_of_transfer hp hm, fun hwait => ?_⟩
  have hno : encOutTransfer s = false := by rcases hwait with h | h | h <;> simp [encOutTransfer, encOutValid, h]
  rw [exec_encOut hp hm, if_neg (by simp [hno])]

/-! ### Phase DONE is left only by a reset (R63, R65) -/

theorem hostAction_enc (a : HostAction) (s : State) : (hostAction a s).enc = s.enc := by
  cases a with
  | strap p => rw [hostAction, driveStrap_frame]
  | offerEnc _ | offerDec _ | encReady _ | decReady _ | rst _ => rfl

/-- In phase DONE no token passes, and no other turn writes `ENC_PHASE`. -/
theorem turnEffect_keepsDone {u : Turn} {s t : State} (e : TurnEffect u s t) (hdone : s.enc.phase = .done) :
    t.enc.phase = .done := by
  have hbusy : encInReady s = false := encInReady_of_waiting (.inr (.inl hdone))
  cases e with
  | takesBit _ _ _ hr | takesEncEnd _ _ hr | refusesEnc _ _ hr => simp [hbusy] at hr
  | nothing h | drains _ _ _ h | handsOverByte _ _ _ h | takesByte _ _ _ _ _ _ _ h | takesDecEnd _ _ _ _ h
  | refusesDec _ _ _ _ _ _ _ h | expands _ _ _ h | handsOverBit _ _ _ h => exact h ▸ hdone

theorem step_keepsDone {s t : State} (hrst : s.rst = false) (hdone : s.enc.phase = .done) (h : step s = .next t) :
    t.enc.phase = .done := by
  obtain ⟨-, ⟨a, ms, -, rfl⟩ | ⟨ms, -, ⟨hr, -⟩ | ⟨-, u, e⟩⟩⟩ := step_next h
  · rw [hostAction_enc]
    exact hdone
  · simp [hrst] at hr
  · exact turnEffect_keepsDone e hdone

/-- Settles O19: the waiting token runs its operation, which waits too; the byte held and the zero owed go by `ENC_OUT`
and `ENC_ZDRAIN`; phase DONE stays (`step_keepsDone`). -/
theorem encoderTokenWaitsUntilReady : Obligations.EncoderTokenWaitsUntilReady := by
  refine ⟨fun s ms tok toks hp hm hr hs hi hbusy => ?_, fun s hm hr hphase hv hy hz => ?_,
    fun s hm hr hphase hv hy hz => ?_, fun s t hr hdone h => ?_⟩
  · obtain ⟨-, hstep⟩ := step_encIn hp hr hs hi
    rw [hstep hbusy]
    exact exec_waits_of_not_ready (decodeEnc_takes tok) hp hm hbusy
  · exact ⟨_, exec_encOut_of_transfer (by simp [hphase]) hm hr hv hy,
      (encInReady_iff _).mpr ⟨hr, .inr hphase, hz, rfl⟩⟩
  · have hdrain : exec .encZdrain s = .next (withEnc (drainZero s.enc) s) := by
      rw [exec_encZdrain (by simp [hphase]) hm, if_pos ((zdrainSelected_iff s).mpr ⟨hr, hz, hv⟩)]
    exact ⟨_, _, hdrain,
      exec_encOut_of_transfer (s := withEnc (drainZero s.enc) s) (by simp [hphase]) hm hr rfl hy,
      (encInReady_iff _).mpr ⟨hr, .inr hphase, rfl, rfl⟩⟩
  · have ht := step_keepsDone hr hdone h
    exact ⟨ht, encInReady_of_waiting (.inr (.inl ht))⟩

end Sys2Proof.Machine

/-! ## A whole encoder stream (R66)

`EncHolds` is the part of `EncStreamAt` that speaks of the registers and the bytes received; each register function is
shown to keep it, then each turn to keep `EncStreamAt`, and the default host to go on until `enc_done = 1`. -/

namespace Sys2Proof.Machine

/-! ### The runs of a sequence one bit longer (R80)

`runs` is defined from the first bit; the encoder takes the bits in order, so what one more bit
does at the end is needed. -/

/-- The runs `rs` followed by the bit `b`. -/
def runsSnoc (b : Bit) : List (Bit × Nat) → List (Bit × Nat)
  | [] => [(b, 1)]
  | [(c, n)] => if c = b then [(c, n + 1)] else [(c, n), (b, 1)]
  | r :: r' :: rs => r :: runsSnoc b (r' :: rs)

theorem runs_append_singleton (bits : List Bit) (b : Bit) : runs (bits ++ [b]) = runsSnoc b (runs bits) := by
  induction bits with
  | nil => rfl
  | cons a bits ih =>
    rw [List.cons_append, runs, ih, runs]
    rcases runs bits with _ | ⟨⟨c, n⟩, _ | ⟨r, rs⟩⟩
    · by_cases hab : a = b <;> simp [runsSnoc, hab]
    · rcases eq_or_ne c b with rfl | hcb
      · by_cases hac : a = c <;> simp [runsSnoc, hac]
      · by_cases hac : a = c <;> simp [runsSnoc, hac, hcb]
    · by_cases hac : a = c <;> simp [runsSnoc, hac]

theorem runsSnoc_append (b : Bit) (last : Bit × Nat) :
    ∀ before, runsSnoc b (before ++ [last]) = before ++ runsSnoc b [last]
  | [] => rfl
  | [_] => rfl
  | r :: r' :: rs => congrArg (r :: ·) (runsSnoc_append b last (r' :: rs))

/-- A bit equal to the last lengthens the last run. -/
theorem runs_append_same {bits : List Bit} {before : List (Bit × Nat)} {b : Bit} {len : Nat}
    (h : runs bits = before ++ [(b, len)]) : runs (bits ++ [b]) = before ++ [(b, len + 1)] := by
  rw [runs_append_singleton, h, runsSnoc_append]
  simp [runsSnoc]

/-- A bit that differs from the last starts a run. -/
theorem runs_append_other {bits : List Bit} {before : List (Bit × Nat)} {b c : Bit} {len : Nat}
    (h : runs bits = before ++ [(c, len)]) (hbc : b ≠ c) :
    runs (bits ++ [b]) = before ++ [(c, len)] ++ [(b, 1)] := by
  rw [runs_append_singleton, h, runsSnoc_append]
  simp [runsSnoc, hbc.symm]

/-! ### The segments of a run one bit longer (R80) -/

/-- What the overflows of a run of `len` bits have emitted, before its last segment. -/
def overflowed (p : Policy) (len : Nat) : List Byte := (List.replicate (overflows len) (overflowBytes p)).flatten

theorem segment_eq (p : Policy) (len : Nat) : segment p len = overflowed p len ++ [BitVec.ofNat 8 (lastSegment len)] :=
  rfl

theorem segment_one (p : Policy) : segment p 1 = [1#8] := by
  cases p <;> rfl

/-- Below 255 the last segment grows by one. -/
theorem lastSegment_succ {len : Nat} (h : lastSegment len ≠ 255) :
    overflows (len + 1) = overflows len ∧ lastSegment (len + 1) = lastSegment len + 1 := by
  unfold lastSegment overflows at *
  omega

/-- At 255 the run overflows once more and a segment of one bit begins. -/
theorem lastSegment_overflow {len : Nat} (h : lastSegment len = 255) :
    overflows (len + 1) = overflows len + 1 ∧ lastSegment (len + 1) = 1 := by
  unfold lastSegment overflows at *
  omega

theorem segment_succ {p : Policy} {len : Nat} (h : lastSegment len ≠ 255) :
    segment p (len + 1) = overflowed p len ++ [BitVec.ofNat 8 (lastSegment len) + 1#8] := by
  obtain ⟨hq, hr⟩ := lastSegment_succ h
  rw [segment_eq, overflowed, hq, hr, BitVec.ofNat_add]
  rfl

theorem segment_overflow {p : Policy} {len : Nat} (h : lastSegment len = 255) :
    segment p (len + 1) = overflowed p len ++ overflowBytes p ++ [1#8] := by
  obtain ⟨hq, hr⟩ := lastSegment_overflow h
  rw [segment_eq, overflowed, hq, hr, List.replicate_succ', List.flatten_concat]
  rfl

/-! ### The encoding of a sequence one bit longer (R80)

`bits` is not empty, so it has a last run; `out` is what its encoding holds before the last byte. -/

theorem leadingZero_append {bits : List Bit} (h : bits ≠ []) (b : Bit) :
    leadingZero (bits ++ [b]) = leadingZero bits := by
  cases bits with
  | nil => exact absurd rfl h
  | cons a bits => cases a <;> rfl

theorem ne_nil_of_runs {bits : List Bit} {before : List (Bit × Nat)} {last : Bit × Nat}
    (h : runs bits = before ++ [last]) : bits ≠ [] := by
  rintro rfl
  simp at h

theorem encodeStream_singleton (p : Policy) (b : Bit) :
    encodeStream p [b] = (if b then [0#8] else []) ++ [1#8] := by
  cases p <;> cases b <;> rfl

/-- The encoding, with the last run apart. -/
theorem encodeStream_of_runs (p : Policy) {bits : List Bit} {before : List (Bit × Nat)} {last : Bit × Nat}
    (h : runs bits = before ++ [last]) :
    encodeStream p bits = leadingZero bits ++ before.flatMap (fun r => segment p r.2) ++ segment p last.2 := by
  simp [encodeStream, h]

section LastRun

variable {p : Policy} {bits : List Bit} {before : List (Bit × Nat)} {b : Bit} {len : Nat} {out : List Byte} {v : Byte}

/-- What stands before the last byte of an encoding, and the last byte. -/
theorem encodeStream_split (hruns : runs bits = before ++ [(b, len)]) (henc : out ++ [v] = encodeStream p bits) :
    leadingZero bits ++ before.flatMap (fun r => segment p r.2) ++ overflowed p len = out ∧
      BitVec.ofNat 8 (lastSegment len) = v := by
  rw [encodeStream_of_runs p hruns, segment_eq, ← List.append_assoc] at henc
  obtain ⟨hout, hv⟩ := List.append_inj' henc rfl
  exact ⟨hout.symm, (List.cons.inj hv).1.symm⟩

/-- One more equal bit below 255 counts up the last byte (R60). -/
theorem encodeStream_append_same (hruns : runs bits = before ++ [(b, len)]) (hv : v.toNat = lastSegment len)
    (henc : out ++ [v] = encodeStream p bits) (hne : v ≠ 255#8) :
    encodeStream p (bits ++ [b]) = out ++ [v + 1#8] := by
  obtain ⟨hout, hlast⟩ := encodeStream_split hruns henc
  have hlt : lastSegment len ≠ 255 := hv ▸ fun h => hne (BitVec.eq_of_toNat_eq h)
  rw [encodeStream_of_runs p (runs_append_same hruns), leadingZero_append (ne_nil_of_runs hruns), segment_succ hlt,
    ← List.append_assoc, hout, hlast]

/-- One more equal bit at 255 overflows (R61). -/
theorem encodeStream_append_overflow (hruns : runs bits = before ++ [(b, len)]) (hv : lastSegment len = 255)
    (henc : out ++ [v] = encodeStream p bits) :
    encodeStream p (bits ++ [b]) = out ++ overflowBytes p ++ [1#8] := by
  obtain ⟨hout, -⟩ := encodeStream_split hruns henc
  rw [encodeStream_of_runs p (runs_append_same hruns), leadingZero_append (ne_nil_of_runs hruns), segment_overflow hv,
    ← hout]
  simp

/-- The other bit ends the run and begins one of one bit (R60). -/
theorem encodeStream_append_other {c : Bit} (hruns : runs bits = before ++ [(c, len)]) (hbc : b ≠ c) :
    encodeStream p (bits ++ [b]) = encodeStream p bits ++ [1#8] := by
  rw [encodeStream_of_runs p (runs_append_other hruns hbc), leadingZero_append (ne_nil_of_runs hruns),
    encodeStream_of_runs p hruns, segment_one]
  simp

end LastRun

/-! ### The registers in a stream: the bytes received and those the registers stand for (R90) -/

/-- The bytes `out` received, the byte held, the zero owed and the run being counted are together the encoding of the
bits `taken`, and that run is the last segment of their last run. -/
def EncHolds (p : Policy) (taken : List Bit) (out : List Byte) (e : Enc) : Prop :=
  (e.phase = .empty → taken = [] ∧ e.zpend = false) ∧
  (e.phase = .run → ∃ before len, runs taken = before ++ [(e.cur, len)] ∧ e.run.toNat = lastSegment len) ∧
  out ++ (if e.ovalid then [e.obuf] else []) ++ (if e.zpend then [0#8] else []) ++
    (if e.phase = .run then [e.run] else []) = encodeStream p taken

theorem encStreamAt_iff {p : Policy} {bits : List Bit} {s : State} :
    EncStreamAt p bits s ↔
      s.rst = false ∧ s.encMark = none ∧ s.ovfPolicy = p ∧ (∀ m ∈ s.sched, aroundEncStream m = true) ∧
      s.enc.phase ≠ .illegal ∧
      ∃ taken rest, bits = taken ++ rest ∧ EncHolds p taken s.encOut s.enc ∧
        (s.enc.phase ≠ .done → encTokensToCome s = bitTokens rest) ∧
        (s.enc.phase = .done → rest = [] ∧ encTokensToCome s = [] ∧ s.enc.zpend = false) := by
  unfold EncStreamAt EncHolds
  constructor
  · rintro ⟨hr, hm, hpol, hsched, hp, taken, rest, hbits, hempty, hrun, htoks, hdone, henc⟩
    exact ⟨hr, hm, hpol, hsched, hp, taken, rest, hbits, ⟨hempty, hrun, henc⟩, htoks, hdone⟩
  · rintro ⟨hr, hm, hpol, hsched, hp, taken, rest, hbits, ⟨hempty, hrun, henc⟩, htoks, hdone⟩
    exact ⟨hr, hm, hpol, hsched, hp, taken, rest, hbits, hempty, hrun, htoks, hdone, henc⟩

section EncHolds

variable {p : Policy} {taken : List Bit} {out : List Byte} {e : Enc}

/-- The first bit (R60). -/
theorem encHolds_takeFirstBit (b : Bit) (h : EncHolds p taken out e) (hp : e.phase = .empty) (hv : e.ovalid = false) :
    EncHolds p (taken ++ [b]) out (takeFirstBit b e) := by
  obtain ⟨hempty, -, henc⟩ := h
  obtain ⟨rfl, hz⟩ := hempty hp
  have hout : out = [] := by simpa [hp, hv, hz] using henc
  refine ⟨by simp, fun _ => ⟨[], 1, rfl, rfl⟩, ?_⟩
  rw [hout, List.nil_append [b], encodeStream_singleton]
  cases b <;> simp [takeFirstBit, hv, hz]

/-- A bit in phase RUN: the same below 255, the same at 255, or the other (R60, R61). -/
theorem encHolds_takeBit_of_run (b : Bit) (h : EncHolds p taken out e) (hp : e.phase = .run) (hz : e.zpend = false)
    (hv : e.ovalid = false) : EncHolds p (taken ++ [b]) out (takeBit p b e) := by
  obtain ⟨-, hrun, henc⟩ := h
  obtain ⟨before, len, hruns, hlast⟩ := hrun hp
  have henc' : out ++ [e.run] = encodeStream p taken := by simpa [hp, hz, hv] using henc
  by_cases hb : b = e.cur
  · by_cases hmax : e.run = 255#8
    · have hlen : lastSegment len = 255 := by rw [← hlast, hmax]; rfl
      rw [takeBit_of_overflow hp hb hmax, hb]
      refine ⟨by simp [hp], fun _ => ⟨before, len + 1, ?_, ?_⟩, ?_⟩
      · rw [overflowRestart_cur]
        exact runs_append_same hruns
      · rw [overflowRestart_run, (lastSegment_overflow hlen).2]
        rfl
      · rw [encodeStream_append_overflow hruns hlen henc']
        cases p <;> simp [hp, hz, Policy.code, overflowBytes]
    · have hne : lastSegment len ≠ 255 := hlast ▸ fun heq => hmax (BitVec.eq_of_toNat_eq heq)
      rw [takeBit_of_same hp hb hmax, hb]
      refine ⟨by simp [hp], fun _ => ⟨before, len + 1, runs_append_same hruns, ?_⟩, ?_⟩
      · rw [(lastSegment_succ hne).2, ← hlast]
        bv_omega
      · rw [encodeStream_append_same hruns hlast henc' hmax]
        simp [hp, hz, hv]
  · rw [takeBit_of_other hp hb]
    refine ⟨by simp [hp], fun _ => ⟨before ++ [(e.cur, len)], 1, runs_append_other hruns hb, rfl⟩, ?_⟩
    rw [encodeStream_append_other hruns hb, ← henc']
    simp [hp, hz]

theorem encHolds_takeBit (b : Bit) (h : EncHolds p taken out e) (hp : e.phase = .empty ∨ e.phase = .run)
    (hz : e.zpend = false) (hv : e.ovalid = false) : EncHolds p (taken ++ [b]) out (takeBit p b e) := by
  rcases hp with hp | hp
  · rw [takeBit_of_empty hp]
    exact encHolds_takeFirstBit b h hp hv
  · exact encHolds_takeBit_of_run b h hp hz hv

/-- END moves the count into the holding register (R63). -/
theorem encHolds_takeEnd (h : EncHolds p taken out e) (hp : e.phase = .empty ∨ e.phase = .run)
    (hz : e.zpend = false) (hv : e.ovalid = false) : EncHolds p taken out (takeEnd e) := by
  obtain ⟨-, -, henc⟩ := h
  rcases hp with hp | hp
  · rw [takeEnd_of_empty hp]
    exact ⟨by simp, by simp, by simpa [hp, hz, hv] using henc⟩
  · rw [takeEnd_of_run hp]
    exact ⟨by simp, by simp, by simpa [hp, hz, hv] using henc⟩

/-- The zero owed is held (R62). -/
theorem encHolds_drainZero (h : EncHolds p taken out e) (hz : e.zpend = true) (hv : e.ovalid = false) :
    EncHolds p taken out (drainZero e) := by
  obtain ⟨hempty, hrun, henc⟩ := h
  refine ⟨fun hp => ?_, hrun, ?_⟩
  · obtain ⟨-, hno⟩ := hempty hp
    simp [hz] at hno
  · change out ++ [0#8] ++ [] ++ (if e.phase = .run then [e.run] else []) = encodeStream p taken
    simpa [hz, hv] using henc

/-- The byte held is received (R64). -/
theorem encHolds_releaseByte (h : EncHolds p taken out e) (hv : e.ovalid = true) :
    EncHolds p taken (out ++ [e.obuf]) (releaseByte e) := by
  obtain ⟨hempty, hrun, henc⟩ := h
  refine ⟨hempty, hrun, ?_⟩
  change out ++ [e.obuf] ++ [] ++ (if e.zpend then [0#8] else []) ++ (if e.phase = .run then [e.run] else []) =
    encodeStream p taken
  simpa [hv] using henc

end EncHolds

/-! ### The tokens of a stream (R66) -/

theorem bitTokens_nil : bitTokens [] = [0b10#2] := rfl

theorem bitTokens_cons (b : Bit) (bits : List Bit) :
    bitTokens (b :: bits) = (if b then 0b01#2 else 0b00#2) :: bitTokens bits := rfl

/-- The token that passes is the first of those to come. -/
theorem encTokensToCome_popEncIn {s : State} {tok : EncToken} (h : s.encIn.head? = some tok) :
    encTokensToCome s = tok :: encTokensToCome (popEncIn s) := by
  obtain ⟨toks, hi⟩ := List.head?_eq_some_iff.mp h
  simp [encTokensToCome, popEncIn, hi]

/-- A data bit at the head of a stream's tokens is the stream's next bit. -/
theorem bitTokens_eq_bit_cons {rest : List Bit} {b : Bit} {toks : List EncToken}
    (h : bitTokens rest = (if b then 0b01#2 else 0b00#2) :: toks) :
    ∃ bits, rest = b :: bits ∧ toks = bitTokens bits := by
  cases rest with
  | nil => cases b <;> simp [bitTokens_nil] at h
  | cons c bits =>
    rw [bitTokens_cons, List.cons.injEq] at h
    obtain ⟨htok, htoks⟩ := h
    have hbc : c = b := by cases b <;> cases c <;> simp_all
    exact ⟨bits, by rw [hbc], htoks.symm⟩

/-- END is at the head of a stream's tokens only when no bit is left, and it is the last. -/
theorem bitTokens_eq_end_cons {rest : List Bit} {toks : List EncToken} (h : bitTokens rest = 0b10#2 :: toks) :
    rest = [] ∧ toks = [] := by
  cases rest with
  | nil => exact ⟨rfl, (List.cons.inj h).2.symm⟩
  | cons c bits => cases c <;> simp [bitTokens_cons] at h

/-- A stream has no reserved token. -/
theorem bitTokens_ne_reserved_cons {rest : List Bit} {toks : List EncToken} : bitTokens rest ≠ 0b11#2 :: toks := by
  cases rest with
  | nil => simp [bitTokens_nil]
  | cons c bits => cases c <;> simp [bitTokens_cons]

/-! ### Every turn stays in the stream (R90) -/

theorem phase_ne_done_of_encInReady {s : State} (h : encInReady s = true) : s.enc.phase ≠ .done := by
  obtain ⟨-, hp, -⟩ := (encInReady_iff s).mp h
  rcases hp with hp | hp <;> simp [hp]

section Turns

variable {p : Policy} {bits : List Bit} {s : State}

theorem encStreamAt_takesBit {b : Bit} (h : EncStreamAt p bits s) (hready : encInReady s = true)
    (hd : s.encIn.head? = some (if b then 0b01#2 else 0b00#2)) :
    EncStreamAt p bits (withEnc (takeBit s.ovfPolicy b s.enc) (popEncIn s)) := by
  obtain ⟨hr, hm, rfl, hsched, hp, taken, rest, hbits, hholds, htoks, -⟩ := encStreamAt_iff.mp h
  obtain ⟨-, hphase, hz, hv⟩ := (encInReady_iff s).mp hready
  have hcome := htoks (phase_ne_done_of_encInReady hready)
  rw [encTokensToCome_popEncIn hd] at hcome
  obtain ⟨rest', rfl, htoks'⟩ := bitTokens_eq_bit_cons hcome.symm
  have hrun : (takeBit s.ovfPolicy b s.enc).phase = .run := by
    rw [takeBit_phase]
    rcases hphase with hphase | hphase <;> simp [hphase]
  exact encStreamAt_iff.mpr ⟨hr, hm, rfl, hsched, by simp [hrun], taken ++ [b], rest', by simp [hbits],
    encHolds_takeBit b hholds hphase hz hv, fun _ => htoks', by simp [hrun]⟩

theorem encStreamAt_takesEncEnd (h : EncStreamAt p bits s) (hready : encInReady s = true)
    (hd : s.encIn.head? = some 0b10#2) : EncStreamAt p bits (withEnc (takeEnd s.enc) (popEncIn s)) := by
  obtain ⟨hr, hm, hpol, hsched, hp, taken, rest, hbits, hholds, htoks, -⟩ := encStreamAt_iff.mp h
  obtain ⟨-, hphase, hz, hv⟩ := (encInReady_iff s).mp hready
  have hcome := htoks (phase_ne_done_of_encInReady hready)
  rw [encTokensToCome_popEncIn hd] at hcome
  obtain ⟨hrest, hnone⟩ := bitTokens_eq_end_cons hcome.symm
  have hdone : (takeEnd s.enc).phase = .done ∧ (takeEnd s.enc).zpend = false := by
    rcases hphase with hphase | hphase
    · simp [takeEnd_of_empty hphase, hz]
    · simp [takeEnd_of_run hphase, hz]
  exact encStreamAt_iff.mpr ⟨hr, hm, hpol, hsched, by simp [hdone], taken, rest, hbits,
    encHolds_takeEnd hholds hphase hz hv, fun hne => absurd hdone.1 hne, fun _ => ⟨hrest, hnone, hdone.2⟩⟩

theorem encStreamAt_drains (h : EncStreamAt p bits s) (hsel : zdrainSelected s = true) :
    EncStreamAt p bits (withEnc (drainZero s.enc) s) := by
  obtain ⟨hr, hm, hpol, hsched, hp, taken, rest, hbits, hholds, htoks, hdone⟩ := encStreamAt_iff.mp h
  obtain ⟨-, hz, hv⟩ := (zdrainSelected_iff s).mp hsel
  refine encStreamAt_iff.mpr ⟨hr, hm, hpol, hsched, hp, taken, rest, hbits, encHolds_drainZero hholds hz hv, htoks,
    fun hphase => ?_⟩
  obtain ⟨hrest, hnone, -⟩ := hdone hphase
  exact ⟨hrest, hnone, rfl⟩

theorem encStreamAt_handsOverByte (h : EncStreamAt p bits s) (hout : encOutTransfer s = true) :
    EncStreamAt p bits (withEnc (releaseByte s.enc) (receiveByte s)) := by
  obtain ⟨hr, hm, hpol, hsched, hp, taken, rest, hbits, hholds, htoks, hdone⟩ := encStreamAt_iff.mp h
  obtain ⟨-, hv, -⟩ := (encOutTransfer_iff s).mp hout
  exact encStreamAt_iff.mpr ⟨hr, hm, hpol, hsched, hp, taken, rest, hbits, encHolds_releaseByte hholds hv, htoks,
    hdone⟩

/-- No reserved token is offered in a stream. -/
theorem encStreamAt_not_reserved (h : EncStreamAt p bits s) (hready : encInReady s = true) :
    s.encIn.head? ≠ some 0b11#2 := by
  intro hd
  obtain ⟨-, -, -, -, -, taken, rest, -, -, htoks, -⟩ := encStreamAt_iff.mp h
  have hcome := htoks (phase_ne_done_of_encInReady hready)
  rw [encTokensToCome_popEncIn hd] at hcome
  exact bitTokens_ne_reserved_cons hcome.symm

/-- The decoder's turns write nothing the relation reads. -/
theorem encStreamAt_turn {u : Turn} {t : State} (h : EncStreamAt p bits s) (e : TurnEffect u s t) :
    EncStreamAt p bits t := by
  cases e with
  | takesBit b _ _ hr hd ht => exact ht ▸ encStreamAt_takesBit h hr hd
  | takesEncEnd _ _ hr hd ht => exact ht ▸ encStreamAt_takesEncEnd h hr hd
  | refusesEnc _ _ hr hd => exact absurd hd (encStreamAt_not_reserved h hr)
  | drains _ _ hr ht => exact ht ▸ encStreamAt_drains h hr
  | handsOverByte _ _ hr ht => exact ht ▸ encStreamAt_handsOverByte h hr
  | nothing ht | takesByte _ _ _ _ _ _ _ ht | takesDecEnd _ _ _ _ ht | refusesDec _ _ _ _ _ _ _ ht | expands _ _ _ ht
  | handsOverBit _ _ _ ht => exact ht ▸ h

/-! ### The start and the end of a stream -/

theorem encStreamAt_of_start (h : EncStreamStart p bits s) (hsched : ∀ m ∈ s.sched, aroundEncStream m = true) :
    EncStreamAt p bits s := by
  obtain ⟨he, hm, hr, hpol, -, htoks, hout⟩ := h
  refine encStreamAt_iff.mpr ⟨hr, hm, hpol, hsched, by simp [he, Enc.atReset], [], bits, rfl, ?_, fun _ => htoks,
    by simp [he, Enc.atReset]⟩
  rw [he, hout]
  exact ⟨fun _ => ⟨rfl, rfl⟩, by simp [Enc.atReset], rfl⟩

/-- When the encoder is done everything has been taken and handed over (R66). -/
theorem encStreamAt_done (h : EncStreamAt p bits s) (hd : encDone s = true) :
    s.encOut = encodeStream p bits ∧ s.enc.zpend = false ∧ encTokensToCome s = [] := by
  obtain ⟨-, -, -, -, -, taken, rest, hbits, ⟨-, -, henc⟩, -, hdone⟩ := encStreamAt_iff.mp h
  obtain ⟨hphase, hv⟩ := (encDone_iff s).mp hd
  obtain ⟨rfl, hnone, hz⟩ := hdone hphase
  rw [hbits, List.append_nil]
  exact ⟨by simpa [hphase, hv, hz] using henc, hz, hnone⟩

/-- Where no encoder turn fires although every token is offered and every byte taken, the encoder is done. -/
theorem encDone_of_quiet (h : EncStreamAt p bits s) (hsched : s.sched = []) (hy : s.encOutReady = true)
    (hquiet : ∀ u, isEncTurn u = true → turnFires u s = false) : encDone s = true := by
  obtain ⟨hr, hm, -, -, hp, taken, rest, -, -, htoks, -⟩ := encStreamAt_iff.mp h
  have hv : s.enc.ovalid = false := by
    simpa [turnFires, hm, encOutTransfer, encOutValid, hr, hy] using hquiet .encOut rfl
  have hz : s.enc.zpend = false := by
    simpa [turnFires, hm, zdrainSelected, hr, hv] using hquiet .encInternal rfl
  refine (encDone_iff s).mpr ⟨by_contra fun hne => ?_, hv⟩
  have hphase : s.enc.phase = .empty ∨ s.enc.phase = .run := by cases hs : s.enc.phase <;> simp_all
  have htok : ∃ tok toks, s.encIn = tok :: toks := by
    rw [← encTokensToCome_idle hsched, htoks hne]
    cases rest <;> exact ⟨_, _, rfl⟩
  have hfires := turnFires_encIn_iff.mpr ⟨hm, htok, (encInReady_iff s).mpr ⟨hr, hphase, hz, hv⟩⟩
  simp [hquiet .encIn rfl] at hfires

end Turns

/-! ### The default host's encoder turns: each answers, and leaves less work (R132) -/

theorem encWork_drainZero {s : State} (h : zdrainSelected s = true) :
    encWork (withEnc (drainZero s.enc) s) < encWork s := by
  obtain ⟨-, hz, hv⟩ := (zdrainSelected_iff s).mp h
  simp [encWork, hz, hv]

theorem encWork_releaseByte {s : State} (h : encOutTransfer s = true) :
    encWork (withEnc (releaseByte s.enc) (receiveByte s)) < encWork s := by
  obtain ⟨-, hv, -⟩ := (encOutTransfer_iff s).mp h
  simp [encWork, hv]

/-- A token is worth more than the zero and the byte it can leave behind. -/
theorem encWork_passEncToken {s : State} {tok : EncToken} {toks : List EncToken} (hi : s.encIn = tok :: toks) :
    encWork (passEncToken tok s) < encWork s := by
  have hin : (passEncToken tok s).encIn = toks := by
    unfold passEncToken
    split
    · split <;> simp [hi]
    · simp [hi]
  have hz := Bool.toNat_le (passEncToken tok s).enc.zpend
  have hv := Bool.toNat_le (passEncToken tok s).enc.ovalid
  simp only [encWork, hin, hi, List.length_cons]
  omega

/-- An encoder turn that fires answers a next state and leaves the encoder less work. -/
theorem runTurn_enc_fires {u : Turn} {s : State} (hp : s.enc.phase ≠ .illegal) (hu : isEncTurn u = true)
    (h : turnFires u s = true) : ∃ t, runTurn u s = .next t ∧ encWork t < encWork s := by
  cases u with
  | encIn =>
    obtain ⟨-, ⟨tok, toks, hi⟩, -⟩ := turnFires_encIn_iff.mp h
    exact ⟨_, runTurn_encIn_passes hp h hi, encWork_passEncToken hi⟩
  | encInternal => exact ⟨_, runTurn_encInternal_fires hp h, encWork_drainZero (turnFires_encInternal_iff.mp h).2⟩
  | encOut => exact ⟨_, runTurn_encOut_fires hp h, encWork_releaseByte (turnFires_encOut_iff.mp h).2⟩
  | decIn | decInternal | decOut => cases hu

/-- The default host tries the encoder's turns first, and they exclude one another. -/
theorem defaultTurn_of_enc_fires {u : Turn} {s : State} (hu : isEncTurn u = true) (h : turnFires u s = true) :
    defaultTurn s = some u := by
  cases u with
  | encOut => simp [defaultTurn, turnOrder, h]
  | encInternal =>
    obtain ⟨-, hout⟩ := zdrainSelected_excludes (turnFires_encInternal_iff.mp h).2
    have hno : turnFires .encOut s = false := by simp [turnFires, hout]
    simp [defaultTurn, turnOrder, h, hno]
  | encIn =>
    obtain ⟨-, -, hready⟩ := turnFires_encIn_iff.mp h
    obtain ⟨hdrain, hout⟩ := encInReady_excludes hready
    have hno : turnFires .encOut s = false := by simp [turnFires, hout]
    have hno' : turnFires .encInternal s = false := by simp [turnFires, hdrain]
    simp [defaultTurn, turnOrder, h, hno, hno']
  | decIn | decInternal | decOut => cases hu

/-- In a stream with nothing scheduled and every byte taken: the relation the default host's run keeps. -/
def EncStreamOfDefaultHost (p : Policy) (bits : List Bit) (s : State) : Prop :=
  EncStreamAt p bits s ∧ s.sched = [] ∧ s.encOutReady = true

/-- Until the encoder is done, the default host's step is an encoder turn. -/
theorem encStreamOfDefaultHost_step {p : Policy} {bits : List Bit} (s : State)
    (h : EncStreamOfDefaultHost p bits s) :
    encDone s = true ∨ ∃ t, step s = .next t ∧ EncStreamOfDefaultHost p bits t ∧ encWork t < encWork s := by
  obtain ⟨hstream, hsched, hy⟩ := h
  by_cases hfires : ∃ u, isEncTurn u = true ∧ turnFires u s = true
  · obtain ⟨u, hu, hf⟩ := hfires
    obtain ⟨hr, -, -, -, hp, -⟩ := encStreamAt_iff.mp hstream
    obtain ⟨t, ht, hwork⟩ := runTurn_enc_fires hp hu hf
    have hframe := runTurn_enc_frame hu hr ht
    exact .inr ⟨t, (step_of_defaultTurn hp hr hsched (defaultTurn_of_enc_fires hu hf)).trans ht,
      ⟨encStreamAt_turn hstream (runTurn_next hr ht), by rw [hframe]; exact hsched, by rw [hframe]; exact hy⟩,
      hwork⟩
  · exact .inl (encDone_of_quiet hstream hsched hy fun u hu => by simpa [hu] using not_exists.mp hfires u)

/-- Settles O47: the default host goes on until the encoder is done (`runFor_reaches`), and then all of the encoding has
been received (`encStreamAt_done`). -/
theorem encoderEmitsTheEncodingOfItsStream : Obligations.EncoderEmitsTheEncodingOfItsStream := by
  intro p bits s hstart hsched hy
  have hstream : EncStreamOfDefaultHost p bits s := ⟨encStreamAt_of_start hstart (by simp [hsched]), hsched, hy⟩
  obtain ⟨n, t, hrun, ⟨ht, -⟩, hdone⟩ := runFor_reaches encWork encStreamOfDefaultHost_step s hstream
  obtain ⟨hout, hz, -⟩ := encStreamAt_done ht hdone
  exact ⟨n, t, hrun, hout, hdone, ((encDone_iff t).mp hdone).1, hz⟩

end Sys2Proof.Machine

/-! ## The decoder operations of 42_decoder.md: results and waiting -/

namespace Sys2Proof.Machine

/-! ### `decInReady` by cases, and an operation's result as one equation (R70 to R74) -/

theorem decInReady_of_waiting {s : State} (h : s.rst = true ∨ s.dec.phase = .done ∨ s.dec.rem ≠ 0#8) :
    decInReady s = false := by
  rcases h with h | h | h <;> simp [decInReady, h]

theorem exec_decByte {s : State} (v : Byte) (hm : s.decMark = none) :
    exec (.decByte v) s = .next (if decInReady s then withDec (takeByte v s.dec) s else s) :=
  decoderOp_of_unmarked hm

theorem exec_decEnd {s : State} (hm : s.decMark = none) :
    exec .decEnd s = .next (if decInReady s then withDec (takeDecEnd s.dec) s else s) :=
  decoderOp_of_unmarked hm

theorem exec_decExpand {s : State} (hm : s.decMark = none) :
    exec .decExpand s = .next (if expandSelected s then withDec (expandBit s.dec) s else s) :=
  decoderOp_of_unmarked hm

theorem exec_decOut {s : State} (hm : s.decMark = none) :
    exec .decOut s = .next (if decOutTransfer s then withDec (releaseBit s.dec) (receiveBit s) else s) := by
  rw [exec, execDecOut, decoderOp_of_unmarked hm]

/-- A token's operation waits where the decoder is not ready (R74). -/
theorem exec_waits_of_dec_not_ready {s : State} {i : Instr} (hi : i.takesDecToken = true) (hm : s.decMark = none)
    (hr : decInReady s = false) : exec i s = .next s := by
  cases i with
  | decByte v => rw [exec_decByte v hm, if_neg (by simp [hr])]
  | decEnd => rw [exec_decEnd hm, if_neg (by simp [hr])]
  | decReserved x => rw [exec_decReserved x hm, if_neg (by simp [hr])]
  | encBit _ | encEnd | encReserved | encZdrain | encOut | decExpand | decOut | reset => cases hi

/-! ### `DEC_BYTE` and `DEC_EXPAND` on the registers, one equation per case of R70 and R71 -/

theorem takeByte_zero (d : Dec) : takeByte 0#8 d = { d with bit := !d.bit } := if_pos rfl

theorem takeByte_of_ne_zero {v : Byte} (hv : v ≠ 0#8) (d : Dec) : takeByte v d = { d with rem := v } := if_neg hv

/-- The last repetition of a run (R71). -/
theorem expandBit_of_last {d : Dec} (h : d.rem = 1#8) :
    expandBit d = { d with obit := d.bit, ovalid := true, rem := 0#8, bit := !d.bit } := by
  simp [expandBit, emitD, h]

/-- A repetition of a run that goes on (R71). -/
theorem expandBit_of_more {d : Dec} (h : d.rem ≠ 1#8) :
    expandBit d = { d with obit := d.bit, ovalid := true, rem := d.rem - 1#8 } := by
  simp [expandBit, emitD, h]

@[simp] theorem expandBit_phase (d : Dec) : (expandBit d).phase = d.phase := rfl
@[simp] theorem expandBit_rem (d : Dec) : (expandBit d).rem = d.rem - 1#8 := rfl
@[simp] theorem expandBit_ovalid (d : Dec) : (expandBit d).ovalid = true := rfl

/-- `DEC_REM` counts down without wrapping (R71). -/
theorem toNat_sub_one_add_one {r : Byte} (h : r ≠ 0#8) : (r - 1#8).toNat + 1 = r.toNat := by
  bv_omega

theorem exec_decExpand_of_selected {s : State} (hm : s.decMark = none) (hr : s.rst = false) (hrem : s.dec.rem ≠ 0#8)
    (hv : s.dec.ovalid = false) : exec .decExpand s = .next (withDec (expandBit s.dec) s) := by
  rw [exec_decExpand hm, if_pos ((expandSelected_iff s).mpr ⟨hr, hrem, hv⟩)]

/-! ### The obligations on single operations -/

/-- Settles O11, with the two cases of `takeByte`. -/
theorem decByteLoadsOrFlips : Obligations.DecByteLoadsOrFlips := by
  intro s v hm
  refine ⟨decodeDec_decByte.mpr rfl, fun hr hphase hrem => ?_, fun hwait =>
    exec_waits_of_dec_not_ready rfl hm (decInReady_of_waiting hwait)⟩
  rw [exec_decByte v hm, if_pos ((decInReady_iff s).mpr ⟨hr, hphase, hrem⟩)]
  refine ⟨fun hv => ?_, fun hv => ?_⟩
  · rw [hv, takeByte_zero]
    rfl
  · rw [takeByte_of_ne_zero hv]
    rfl

/-- Settles O12, with the two cases of `expandBit`. -/
theorem decExpandWritesOneBit : Obligations.DecExpandWritesOneBit := by
  intro s hm
  refine ⟨fun hr hv => ⟨fun hlast => ?_, fun hrem hmore => ?_⟩, fun hwait => ?_⟩
  · rw [exec_decExpand_of_selected hm hr (by simp [hlast]) hv, expandBit_of_last hlast]
    rfl
  · rw [exec_decExpand_of_selected hm hr hrem hv, expandBit_of_more hmore]
    rfl
  · have hno : expandSelected s = false := by rcases hwait with h | h | h <;> simp [expandSelected, h]
    rw [exec_decExpand hm, if_neg (by simp [hno])]

/-- Settles O13, with the port ready and not ready. -/
theorem decEndEndsTheStream : Obligations.DecEndEndsTheStream := by
  refine ⟨decodeDec_decEnd.mpr rfl, fun s hm => ⟨fun hr hphase hrem => ?_, fun hwait =>
    exec_waits_of_dec_not_ready rfl hm (decInReady_of_waiting hwait)⟩⟩
  rw [exec_decEnd hm, if_pos ((decInReady_iff s).mpr ⟨hr, hphase, hrem⟩)]
  rfl

/-- Settles O14, with the handshake and with either side of it missing. -/
theorem decOutHandsOverTheBit : Obligations.DecOutHandsOverTheBit := by
  intro s hm
  refine ⟨fun hr hv hy => ?_, fun hwait => ?_⟩
  · rw [exec_decOut hm, if_pos ((decOutTransfer_iff s).mpr ⟨hr, hv, hy⟩)]
    rfl
  · have hno : decOutTransfer s = false := by rcases hwait with h | h | h <;> simp [decOutTransfer, decOutValid, h]
    rw [exec_decOut hm, if_neg (by simp [hno])]

/-! ### Phase DONE is left only by a reset (R72, R74) -/

theorem hostAction_dec (a : HostAction) (s : State) : (hostAction a s).dec = s.dec := by
  cases a with
  | strap p => rw [hostAction, driveStrap_frame]
  | offerEnc _ | offerDec _ | encReady _ | decReady _ | rst _ => rfl

/-- In phase DONE no token passes, and no other turn writes `DEC_PHASE`. -/
theorem turnEffect_keepsDecDone {u : Turn} {s t : State} (e : TurnEffect u s t) (hdone : s.dec.phase = .done) :
    t.dec.phase = .done := by
  have hbusy : decInReady s = false := decInReady_of_waiting (.inr (.inl hdone))
  cases e with
  | takesByte _ _ _ _ hr | takesDecEnd _ _ hr | refusesDec _ _ _ _ hr => simp [hbusy] at hr
  | nothing h | drains _ _ _ h | handsOverByte _ _ _ h | takesBit _ _ _ _ _ h | takesEncEnd _ _ _ _ h
  | refusesEnc _ _ _ _ h | expands _ _ _ h | handsOverBit _ _ _ h => exact h ▸ hdone

theorem step_keepsDecDone {s t : State} (hrst : s.rst = false) (hdone : s.dec.phase = .done) (h : step s = .next t) :
    t.dec.phase = .done := by
  obtain ⟨-, ⟨a, ms, -, rfl⟩ | ⟨ms, -, ⟨hr, -⟩ | ⟨-, u, e⟩⟩⟩ := step_next h
  · rw [hostAction_dec]
    exact hdone
  · simp [hrst] at hr
  · exact turnEffect_keepsDecDone e hdone

/-- Settles O20: the waiting token runs its operation, which waits too; `DEC_REM` is counted down to 0 from 1 only; phase
DONE stays (`step_keepsDecDone`). -/
theorem decoderTokenWaitsUntilReady : Obligations.DecoderTokenWaitsUntilReady := by
  refine ⟨fun s ms tok toks hp hm hr hs hi hbusy => ?_, fun s hm hr hphase hrem hv => ?_, fun s t hr hdone h => ?_⟩
  · obtain ⟨-, hstep⟩ := step_decIn hp hr hs hi
    rw [hstep hbusy]
    exact exec_waits_of_dec_not_ready (decodeDec_takes tok) hm hbusy
  · refine ⟨_, exec_decExpand_of_selected hm hr hrem hv, toNat_sub_one_add_one hrem, ?_⟩
    simpa [decInReady_iff, hr, hphase] using sub_eq_zero (a := s.dec.rem) (b := 1#8)
  · have ht := step_keepsDecDone hr hdone h
    exact ⟨ht, decInReady_of_waiting (.inr (.inl ht))⟩

end Sys2Proof.Machine

/-! ## A whole decoder stream (R75)

`DecHolds` is the part of `DecStreamAt` that speaks of the registers and the bits received; each register function is
shown to keep it, then each turn to keep `DecStreamAt`. The default host tries the encoder's turns first, so its run to
`dec_done = 1` falls in the work of both machines. -/

namespace Sys2Proof.Machine

/-! ### The registers in a stream: the bits received and those the registers stand for (R90) -/

/-- The bits `out` received, the bit held and the repetitions still to be written are together the decoding of the bytes
`taken`, and `DEC_BIT` is the polarity of the byte being written, or of the next. -/
def DecHolds (taken : List Byte) (out : List Bit) (d : Dec) : Prop :=
  d.bit = (if d.rem = 0#8 then polarity taken.length else !polarity taken.length) ∧
  out ++ (if d.ovalid then [d.obit] else []) ++ List.replicate d.rem.toNat d.bit = decodeStream taken

theorem decStreamAt_iff {bytes : List Byte} {s : State} :
    DecStreamAt bytes s ↔
      s.rst = false ∧ s.decMark = none ∧ (∀ m ∈ s.sched, aroundDecStream m = true) ∧
      ∃ taken rest, bytes = taken ++ rest ∧ DecHolds taken s.decOut s.dec ∧
        (s.dec.phase = .active → decTokensToCome s = byteTokens rest) ∧
        (s.dec.phase = .done → rest = [] ∧ decTokensToCome s = [] ∧ s.dec.rem = 0#8) := by
  unfold DecStreamAt DecHolds
  constructor
  · rintro ⟨hr, hm, hsched, taken, rest, hbytes, hbit, htoks, hdone, hdec⟩
    exact ⟨hr, hm, hsched, taken, rest, hbytes, ⟨hbit, hdec⟩, htoks, hdone⟩
  · rintro ⟨hr, hm, hsched, taken, rest, hbytes, ⟨hbit, hdec⟩, htoks, hdone⟩
    exact ⟨hr, hm, hsched, taken, rest, hbytes, hbit, htoks, hdone, hdec⟩

/-- One more byte stands for its value's copies of the polarity at its index (R81). -/
theorem decodeStream_append_singleton (bytes : List Byte) (v : Byte) :
    decodeStream (bytes ++ [v]) = decodeStream bytes ++ List.replicate v.toNat (polarity bytes.length) := by
  simp [decodeStream, decodeFrom_append]

section DecHolds

variable {taken : List Byte} {out : List Bit} {d : Dec}

/-- A byte is taken with no repetition left: 0 stands for none, any other value is counted in `DEC_REM` (R70). -/
theorem decHolds_takeByte (v : Byte) (h : DecHolds taken out d) (hrem : d.rem = 0#8) :
    DecHolds (taken ++ [v]) out (takeByte v d) := by
  obtain ⟨hbit, hdec⟩ := h
  have hpol : polarity (taken ++ [v]).length = !d.bit := by
    rw [List.length_append, List.length_singleton, polarity_succ, hbit, if_pos hrem]
  have hall : decodeStream (taken ++ [v]) =
      out ++ (if d.ovalid then [d.obit] else []) ++ List.replicate v.toNat d.bit := by
    rw [decodeStream_append_singleton, ← hdec, hrem, hbit, if_pos hrem]
    simp
  unfold DecHolds
  rw [hpol, hall]
  by_cases hv : v = 0#8
  · rw [hv, takeByte_zero]
    simp [hrem]
  · rw [takeByte_of_ne_zero hv]
    simp [hv]

/-- The first of the repetitions left is held (R71). -/
theorem decHolds_expandBit (h : DecHolds taken out d) (hrem : d.rem ≠ 0#8) (hv : d.ovalid = false) :
    DecHolds taken out (expandBit d) := by
  obtain ⟨hbit, hdec⟩ := h
  rw [if_neg hrem] at hbit
  rw [← toNat_sub_one_add_one hrem, List.replicate_succ, hv] at hdec
  by_cases hlast : d.rem = 1#8
  · rw [expandBit_of_last hlast]
    exact ⟨by simp [hbit], by simpa [hlast] using hdec⟩
  · have hmore : d.rem - 1#8 ≠ 0#8 := fun hzero => hlast (sub_eq_zero.mp hzero)
    rw [expandBit_of_more hlast]
    exact ⟨by simp [hmore, hbit], by simpa using hdec⟩

/-- The bit held is received (R73). -/
theorem decHolds_releaseBit (h : DecHolds taken out d) (hv : d.ovalid = true) :
    DecHolds taken (out ++ [d.obit]) (releaseBit d) := by
  obtain ⟨hbit, hdec⟩ := h
  exact ⟨hbit, by simpa [releaseBit, hv] using hdec⟩

end DecHolds

/-! ### The tokens of a stream (R75) -/

theorem byteTokens_nil : byteTokens [] = [0x100#9] := rfl

theorem byteTokens_cons (v : Byte) (bytes : List Byte) : byteTokens (v :: bytes) = v.setWidth 9 :: byteTokens bytes :=
  rfl

/-- The token that passes is the first of those to come. -/
theorem decTokensToCome_popDecIn {s : State} {tok : DecToken} (h : s.decIn.head? = some tok) :
    decTokensToCome s = tok :: decTokensToCome (popDecIn s) := by
  obtain ⟨toks, hi⟩ := List.head?_eq_some_iff.mp h
  simp [decTokensToCome, popDecIn, hi]

/-- The first of a stream's tokens is the END that ends it, or the stream's next byte. -/
theorem byteTokens_eq_cons {rest : List Byte} {tok : DecToken} {toks : List DecToken}
    (h : byteTokens rest = tok :: toks) :
    (decodeDec tok = .decEnd ∧ rest = [] ∧ toks = []) ∨
      ∃ v bytes, decodeDec tok = .decByte v ∧ rest = v :: bytes ∧ toks = byteTokens bytes := by
  cases rest with
  | nil =>
    obtain ⟨rfl, rfl⟩ := List.cons.inj h
    exact .inl ⟨decodeDec_decEnd.mpr rfl, rfl, rfl⟩
  | cons v bytes =>
    obtain ⟨rfl, rfl⟩ := List.cons.inj h
    exact .inr ⟨v, bytes, decodeDec_decByte.mpr rfl, rfl, rfl⟩

/-! ### Every turn stays in the stream (R90) -/

section Turns

variable {bytes : List Byte} {s : State}

/-- In a stream a ready decoder is offered the END that ends it, or the stream's next byte. -/
theorem decStreamAt_offered {tok : DecToken} (h : DecStreamAt bytes s) (hready : decInReady s = true)
    (hd : s.decIn.head? = some tok) :
    ∃ taken rest, bytes = taken ++ rest ∧ DecHolds taken s.decOut s.dec ∧
      ((decodeDec tok = .decEnd ∧ rest = [] ∧ decTokensToCome (popDecIn s) = []) ∨
        ∃ v rest', decodeDec tok = .decByte v ∧ rest = v :: rest' ∧
          decTokensToCome (popDecIn s) = byteTokens rest') := by
  obtain ⟨-, -, -, taken, rest, hbytes, hholds, htoks, -⟩ := decStreamAt_iff.mp h
  obtain ⟨-, hphase, -⟩ := (decInReady_iff s).mp hready
  have hcome := htoks hphase
  rw [decTokensToCome_popDecIn hd] at hcome
  exact ⟨taken, rest, hbytes, hholds, byteTokens_eq_cons hcome.symm⟩

theorem decStreamAt_takesByte {v : Byte} {tok : DecToken} (h : DecStreamAt bytes s) (hready : decInReady s = true)
    (hd : s.decIn.head? = some tok) (hv : decodeDec tok = .decByte v) :
    DecStreamAt bytes (withDec (takeByte v s.dec) (popDecIn s)) := by
  obtain ⟨hr, hm, hsched, -⟩ := decStreamAt_iff.mp h
  obtain ⟨-, hphase, hrem⟩ := (decInReady_iff s).mp hready
  obtain ⟨taken, rest, hbytes, hholds, ⟨hend, -⟩ | ⟨w, rest', hw, rfl, htoks⟩⟩ := decStreamAt_offered h hready hd
  · cases hv.symm.trans hend
  · cases hv.symm.trans hw
    exact decStreamAt_iff.mpr ⟨hr, hm, hsched, taken ++ [v], rest', by simp [hbytes],
      decHolds_takeByte v hholds hrem, fun _ => htoks, by simp [hphase]⟩

theorem decStreamAt_takesDecEnd (h : DecStreamAt bytes s) (hready : decInReady s = true)
    (hd : s.decIn.head? = some 0x100#9) : DecStreamAt bytes (withDec (takeDecEnd s.dec) (popDecIn s)) := by
  obtain ⟨hr, hm, hsched, -⟩ := decStreamAt_iff.mp h
  obtain ⟨-, -, hrem⟩ := (decInReady_iff s).mp hready
  obtain ⟨taken, rest, hbytes, hholds, ⟨-, hrest, hnone⟩ | ⟨w, rest', hw, -⟩⟩ := decStreamAt_offered h hready hd
  · exact decStreamAt_iff.mpr ⟨hr, hm, hsched, taken, rest, hbytes, hholds, by simp [takeDecEnd],
      fun _ => ⟨hrest, hnone, hrem⟩⟩
  · cases (decodeDec_decEnd.mpr rfl).symm.trans hw

/-- No reserved token is offered in a stream. -/
theorem decStreamAt_not_reserved {tok : DecToken} {x : Byte} (h : DecStreamAt bytes s) (hready : decInReady s = true)
    (hd : s.decIn.head? = some tok) : decodeDec tok ≠ .decReserved x := by
  intro hx
  obtain ⟨-, -, -, -, ⟨hend, -⟩ | ⟨w, rest', hw, -⟩⟩ := decStreamAt_offered h hready hd
  · cases hx.symm.trans hend
  · cases hx.symm.trans hw

theorem decStreamAt_expands (h : DecStreamAt bytes s) (hsel : expandSelected s = true) :
    DecStreamAt bytes (withDec (expandBit s.dec) s) := by
  obtain ⟨hr, hm, hsched, taken, rest, hbytes, hholds, htoks, hdone⟩ := decStreamAt_iff.mp h
  obtain ⟨-, hrem, hv⟩ := (expandSelected_iff s).mp hsel
  refine decStreamAt_iff.mpr ⟨hr, hm, hsched, taken, rest, hbytes, decHolds_expandBit hholds hrem hv, htoks,
    fun hphase => ?_⟩
  obtain ⟨-, -, hzero⟩ := hdone hphase
  exact absurd hzero hrem

theorem decStreamAt_handsOverBit (h : DecStreamAt bytes s) (hout : decOutTransfer s = true) :
    DecStreamAt bytes (withDec (releaseBit s.dec) (receiveBit s)) := by
  obtain ⟨hr, hm, hsched, taken, rest, hbytes, hholds, htoks, hdone⟩ := decStreamAt_iff.mp h
  obtain ⟨-, hv, -⟩ := (decOutTransfer_iff s).mp hout
  exact decStreamAt_iff.mpr ⟨hr, hm, hsched, taken, rest, hbytes, decHolds_releaseBit hholds hv, htoks, hdone⟩

/-- The encoder's turns write nothing the relation reads. -/
theorem decStreamAt_turn {u : Turn} {t : State} (h : DecStreamAt bytes s) (e : TurnEffect u s t) :
    DecStreamAt bytes t := by
  cases e with
  | takesByte _ _ _ _ hr hd hv ht => exact ht ▸ decStreamAt_takesByte h hr hd hv
  | takesDecEnd _ _ hr hd ht => exact ht ▸ decStreamAt_takesDecEnd h hr hd
  | refusesDec _ _ _ _ hr hd hx => exact absurd hx (decStreamAt_not_reserved h hr hd)
  | expands _ _ hr ht => exact ht ▸ decStreamAt_expands h hr
  | handsOverBit _ _ hr ht => exact ht ▸ decStreamAt_handsOverBit h hr
  | nothing ht | takesBit _ _ _ _ _ ht | takesEncEnd _ _ _ _ ht | refusesEnc _ _ _ _ ht | drains _ _ _ ht
  | handsOverByte _ _ _ ht => exact ht ▸ h

/-! ### The start and the end of a stream -/

theorem decStreamAt_of_start (h : DecStreamStart bytes s) (hsched : ∀ m ∈ s.sched, aroundDecStream m = true) :
    DecStreamAt bytes s := by
  obtain ⟨hd, hm, hr, htoks, hout⟩ := h
  refine decStreamAt_iff.mpr ⟨hr, hm, hsched, [], bytes, rfl, ?_, fun _ => htoks, by simp [hd, Dec.atReset]⟩
  rw [hd, hout]
  exact ⟨rfl, rfl⟩

/-- When the decoder is done everything has been taken and handed over (R75). -/
theorem decStreamAt_done (h : DecStreamAt bytes s) (hd : decDone s = true) :
    s.decOut = decodeStream bytes ∧ decTokensToCome s = [] := by
  obtain ⟨-, -, -, taken, rest, hbytes, ⟨-, hdec⟩, -, hdone⟩ := decStreamAt_iff.mp h
  obtain ⟨hphase, hv⟩ := (decDone_iff s).mp hd
  obtain ⟨rfl, hnone, hrem⟩ := hdone hphase
  rw [hbytes, List.append_nil]
  exact ⟨by simpa [hv, hrem] using hdec, hnone⟩

/-- Where no decoder turn fires although every token is offered and every bit taken, the decoder is done. -/
theorem decDone_of_quiet (h : DecStreamAt bytes s) (hsched : s.sched = []) (hy : s.decOutReady = true)
    (hquiet : ∀ u, turnFires u s = false) : decDone s = true := by
  obtain ⟨hr, hm, -, taken, rest, -, -, htoks, -⟩ := decStreamAt_iff.mp h
  have hv : s.dec.ovalid = false := by
    simpa [turnFires, hm, decOutTransfer, decOutValid, hr, hy] using hquiet .decOut
  have hrem : s.dec.rem = 0#8 := by
    simpa [turnFires, hm, expandSelected, hr, hv] using hquiet .decInternal
  cases hphase : s.dec.phase with
  | done => exact (decDone_iff s).mpr ⟨hphase, hv⟩
  | active =>
    have htok : ∃ tok toks, s.decIn = tok :: toks := by
      rw [← decTokensToCome_idle hsched, htoks hphase]
      cases rest <;> exact ⟨_, _, rfl⟩
    have hfires := turnFires_decIn_iff.mpr ⟨hm, htok, (decInReady_iff s).mpr ⟨hr, hphase, hrem⟩⟩
    simp [hquiet .decIn] at hfires

end Turns

/-! ### The turns of both machines: each that fires answers, leaves less work (R132) and no illegal phase (R104) -/

theorem decWork_expandBit {s : State} (h : expandSelected s = true) :
    decWork (withDec (expandBit s.dec) s) < decWork s := by
  obtain ⟨-, hrem, hv⟩ := (expandSelected_iff s).mp h
  have hcount := toNat_sub_one_add_one hrem
  simp only [decWork, withDec_dec, withDec_decIn, expandBit_rem, expandBit_ovalid, hv, Bool.toNat_true,
    Bool.toNat_false]
  omega

theorem decWork_releaseBit {s : State} (h : decOutTransfer s = true) :
    decWork (withDec (releaseBit s.dec) (receiveBit s)) < decWork s := by
  obtain ⟨-, hv, -⟩ := (decOutTransfer_iff s).mp h
  simp [decWork, releaseBit, hv]

/-- A token is worth more than the repetitions and the bit that can be left after it. -/
theorem decWork_passDecToken {s : State} {tok : DecToken} {toks : List DecToken} (hi : s.decIn = tok :: toks) :
    decWork (passDecToken tok s) < decWork s := by
  have hin : (passDecToken tok s).decIn = toks := by
    unfold passDecToken
    split
    · split <;> simp [hi]
    · simp [hi]
  have hrem := (passDecToken tok s).dec.rem.isLt
  have hv := Bool.toNat_le (passDecToken tok s).dec.ovalid
  simp only [decWork, hin, hi, List.length_cons]
  omega

/-- A decoder turn that fires answers a next state and leaves the decoder less work. -/
theorem runTurn_dec_fires {u : Turn} {s : State} (hu : isEncTurn u = false) (h : turnFires u s = true) :
    ∃ t, runTurn u s = .next t ∧ decWork t < decWork s := by
  cases u with
  | decIn =>
    obtain ⟨-, ⟨tok, toks, hi⟩, -⟩ := turnFires_decIn_iff.mp h
    exact ⟨_, runTurn_decIn_passes h hi, decWork_passDecToken hi⟩
  | decInternal => exact ⟨_, runTurn_decInternal_fires h, decWork_expandBit (turnFires_decInternal_iff.mp h).2⟩
  | decOut => exact ⟨_, runTurn_decOut_fires h, decWork_releaseBit (turnFires_decOut_iff.mp h).2⟩
  | encIn | encInternal | encOut => cases hu

/-- A turn that fires answers a next state and leaves less work to the two machines together. -/
theorem runTurn_fires {u : Turn} {s : State} (hp : s.enc.phase ≠ .illegal) (hr : s.rst = false)
    (h : turnFires u s = true) : ∃ t, runTurn u s = .next t ∧ work t < work s := by
  cases hu : isEncTurn u with
  | true =>
    obtain ⟨t, ht, hwork⟩ := runTurn_enc_fires hp hu h
    have hdec : decWork t = decWork s := by rw [runTurn_enc_frame hu hr ht]; rfl
    exact ⟨t, ht, by unfold work; omega⟩
  | false =>
    obtain ⟨t, ht, hwork⟩ := runTurn_dec_fires hu h
    have henc : encWork t = encWork s := by rw [runTurn_dec_frame hu hr ht]; rfl
    exact ⟨t, ht, by unfold work; omega⟩

theorem takeEnd_phase_ne_illegal {e : Enc} (h : e.phase ≠ .illegal) : (takeEnd e).phase ≠ .illegal := by
  unfold takeEnd
  cases hp : e.phase <;> simp_all

/-- No turn makes the encoder's phase illegal (R104). -/
theorem turnEffect_keepsLegalPhase {u : Turn} {s t : State} (e : TurnEffect u s t) (hp : s.enc.phase ≠ .illegal) :
    t.enc.phase ≠ .illegal := by
  cases e with
  | takesBit b _ _ _ _ h =>
    rw [h, withEnc_enc, takeBit_phase]
    split
    · simp
    · exact hp
  | takesEncEnd _ _ _ _ h =>
    rw [h, withEnc_enc]
    exact takeEnd_phase_ne_illegal hp
  | nothing h | refusesEnc _ _ _ _ h | drains _ _ _ h | handsOverByte _ _ _ h | takesByte _ _ _ _ _ _ _ h
  | takesDecEnd _ _ _ _ h | refusesDec _ _ _ _ _ _ _ h | expands _ _ _ h | handsOverBit _ _ _ h => exact h ▸ hp

/-- A turn leaves the schedule and the host's pins. -/
theorem turnEffect_sched_pins {u : Turn} {s t : State} (e : TurnEffect u s t) :
    t.sched = s.sched ∧ t.rst = s.rst ∧ t.encOutReady = s.encOutReady ∧ t.decOutReady = s.decOutReady := by
  cases e with
  | nothing h | takesBit _ _ _ _ _ h | takesEncEnd _ _ _ _ h | refusesEnc _ _ _ _ h | drains _ _ _ h
  | handsOverByte _ _ _ h | takesByte _ _ _ _ _ _ _ h | takesDecEnd _ _ _ _ h | refusesDec _ _ _ _ _ _ _ h
  | expands _ _ _ h | handsOverBit _ _ _ h => exact h ▸ ⟨rfl, rfl, rfl, rfl⟩

/-- In a stream beside an encoder that has not faulted, with nothing scheduled and every bit taken: the relation the
default host's run keeps. -/
def DecStreamOfDefaultHost (bytes : List Byte) (s : State) : Prop :=
  DecStreamAt bytes s ∧ s.enc.phase ≠ .illegal ∧ s.sched = [] ∧ s.decOutReady = true

/-- Until the decoder is done, some turn fires, and the default host's step is such a turn, of either machine. -/
theorem decStreamOfDefaultHost_step {bytes : List Byte} (s : State) (h : DecStreamOfDefaultHost bytes s) :
    decDone s = true ∨ ∃ t, step s = .next t ∧ DecStreamOfDefaultHost bytes t ∧ work t < work s := by
  obtain ⟨hstream, hp, hsched, hy⟩ := h
  cases hdef : defaultTurn s with
  | none => exact .inl (decDone_of_quiet hstream hsched hy (defaultTurn_none hdef))
  | some u =>
    obtain ⟨hr, -⟩ := decStreamAt_iff.mp hstream
    obtain ⟨t, ht, hwork⟩ := runTurn_fires hp hr (defaultTurn_fires hdef)
    have heff := runTurn_next hr ht
    obtain ⟨hsched', -, -, hy'⟩ := turnEffect_sched_pins heff
    exact .inr ⟨t, (step_of_defaultTurn hp hr hsched hdef).trans ht,
      ⟨decStreamAt_turn hstream heff, turnEffect_keepsLegalPhase heff hp, hsched'.trans hsched, hy'.trans hy⟩, hwork⟩

/-- Settles O48: the default host goes on until the decoder is done (`runFor_reaches`), and then all of the decoding has
been received (`decStreamAt_done`). -/
theorem decoderEmitsTheDecodingOfItsStream : Obligations.DecoderEmitsTheDecodingOfItsStream := by
  intro bytes s hstart hp hsched hy
  have hstream : DecStreamOfDefaultHost bytes s := ⟨decStreamAt_of_start hstart (by simp [hsched]), hp, hsched, hy⟩
  obtain ⟨n, t, hrun, ⟨ht, -⟩, hdone⟩ := runFor_reaches work decStreamOfDefaultHost_step s hstream
  exact ⟨n, t, hrun, (decStreamAt_done ht hdone).1, hdone⟩

end Sys2Proof.Machine

/-! ## The machines in a stream, under every schedule (43_stream_functions.md R88, R90)

Each turn keeps `EncStreamAt` and `DecStreamAt` (`encStreamAt_turn`, `decStreamAt_turn`). Here the moves of the schedule
are shown to write nothing these relations read, so that every step and every run keeps them. -/

namespace Sys2Proof.Machine

/-! ### The host's moves around a stream -/

theorem hostAction_aroundEncStream {a : HostAction} (h : aroundEncStream (.host a) = true) (s : State) :
    (hostAction a s).rst = s.rst ∧ (hostAction a s).encMark = s.encMark ∧
      (hostAction a s).ovfPolicy = s.ovfPolicy := by
  cases a with
  | strap _ | rst _ => cases h
  | offerEnc _ | offerDec _ | encReady _ | decReady _ => exact ⟨rfl, rfl, rfl⟩

theorem hostAction_aroundDecStream {a : HostAction} (h : aroundDecStream (.host a) = true) (s : State) :
    (hostAction a s).rst = s.rst ∧ (hostAction a s).decMark = s.decMark := by
  cases a with
  | rst _ => cases h
  | strap p => rw [hostAction, driveStrap_frame]; exact ⟨rfl, rfl⟩
  | offerEnc _ | offerDec _ | encReady _ | decReady _ => exact ⟨rfl, rfl⟩

/-- The schedule `ms` after a turn was taken from `sched`, or after the default host moved. -/
abbrev TurnTaken (sched ms : List Move) : Prop :=
  sched = [] ∧ ms = [] ∨ ∃ u, sched = .turn u :: ms

theorem TurnTaken.mem {sched ms : List Move} (h : TurnTaken sched ms) : ∀ m ∈ ms, m ∈ sched := by
  rcases h with ⟨rfl, rfl⟩ | ⟨u, rfl⟩
  · exact fun _ => id
  · exact fun _ => List.mem_cons_of_mem _

theorem encTokensToCome_turnTaken {s : State} {ms : List Move} (h : TurnTaken s.sched ms) :
    encTokensToCome (withSched ms s) = encTokensToCome s := by
  rcases h with ⟨hs, rfl⟩ | ⟨u, hs⟩
  · rw [encTokensToCome_idle hs, encTokensToCome_idle (withSched_sched s []), withSched_encIn]
  · exact encTokensToCome_turn hs

theorem decTokensToCome_turnTaken {s : State} {ms : List Move} (h : TurnTaken s.sched ms) :
    decTokensToCome (withSched ms s) = decTokensToCome s := by
  rcases h with ⟨hs, rfl⟩ | ⟨u, hs⟩
  · rw [decTokensToCome_idle hs, decTokensToCome_idle (withSched_sched s []), withSched_decIn]
  · exact decTokensToCome_turn hs

/-! ### Every step stays in the stream -/

section Encoder

variable {p : Policy} {bits : List Bit} {s t : State}

/-- What the relation reads of a state. -/
theorem encStreamAt_congr (h : EncStreamAt p bits s) (henc : t.enc = s.enc) (hout : t.encOut = s.encOut)
    (hpins : t.rst = s.rst ∧ t.encMark = s.encMark ∧ t.ovfPolicy = s.ovfPolicy)
    (hsched : ∀ m ∈ t.sched, m ∈ s.sched) (htoks : encTokensToCome t = encTokensToCome s) :
    EncStreamAt p bits t := by
  obtain ⟨hrst, hmark, hpol⟩ := hpins
  obtain ⟨hr, hm, hp, haround, hrest⟩ := h
  unfold EncStreamAt
  rw [henc, hout, hrst, hmark, hpol, htoks]
  exact ⟨hr, hm, hp, fun m hmem => haround m (hsched m hmem), hrest⟩

theorem encStreamAt_host {a : HostAction} {ms : List Move} (h : EncStreamAt p bits s)
    (hs : s.sched = .host a :: ms) : EncStreamAt p bits (hostAction a (withSched ms s)) := by
  obtain ⟨-, -, -, haround, -⟩ := encStreamAt_iff.mp h
  obtain ⟨hout, -, hsched⟩ := hostAction_outputs_sched a (withSched ms s)
  refine encStreamAt_congr h (hostAction_enc a _) hout
    (hostAction_aroundEncStream (haround _ (by simp [hs])) (withSched ms s)) (fun m hm => ?_)
    (encTokensToCome_host hs)
  rw [hs]
  exact List.mem_cons_of_mem _ (by simpa [hsched] using hm)

theorem encStreamAt_withSched {ms : List Move} (h : EncStreamAt p bits s) (hms : TurnTaken s.sched ms) :
    EncStreamAt p bits (withSched ms s) :=
  encStreamAt_congr h rfl rfl ⟨rfl, rfl, rfl⟩ hms.mem (encTokensToCome_turnTaken hms)

theorem encStreamAt_step (h : EncStreamAt p bits s) (hstep : step s = .next t) : EncStreamAt p bits t := by
  obtain ⟨-, ⟨a, ms, hs, rfl⟩ | ⟨ms, hms, ⟨hrst, -⟩ | ⟨-, u, e⟩⟩⟩ := step_next hstep
  · exact encStreamAt_host h hs
  · obtain ⟨hr, -⟩ := h
    simp [hr] at hrst
  · exact encStreamAt_turn (encStreamAt_withSched h hms) e

end Encoder

section Decoder

variable {bytes : List Byte} {s t : State}

/-- What the relation reads of a state. -/
theorem decStreamAt_congr (h : DecStreamAt bytes s) (hdec : t.dec = s.dec) (hout : t.decOut = s.decOut)
    (hpins : t.rst = s.rst ∧ t.decMark = s.decMark) (hsched : ∀ m ∈ t.sched, m ∈ s.sched)
    (htoks : decTokensToCome t = decTokensToCome s) : DecStreamAt bytes t := by
  obtain ⟨hrst, hmark⟩ := hpins
  obtain ⟨hr, hm, haround, hrest⟩ := h
  unfold DecStreamAt
  rw [hdec, hout, hrst, hmark, htoks]
  exact ⟨hr, hm, fun m hmem => haround m (hsched m hmem), hrest⟩

theorem decStreamAt_host {a : HostAction} {ms : List Move} (h : DecStreamAt bytes s)
    (hs : s.sched = .host a :: ms) : DecStreamAt bytes (hostAction a (withSched ms s)) := by
  obtain ⟨-, -, haround, -⟩ := decStreamAt_iff.mp h
  obtain ⟨-, hout, hsched⟩ := hostAction_outputs_sched a (withSched ms s)
  refine decStreamAt_congr h (hostAction_dec a _) hout
    (hostAction_aroundDecStream (haround _ (by simp [hs])) (withSched ms s)) (fun m hm => ?_)
    (decTokensToCome_host hs)
  rw [hs]
  exact List.mem_cons_of_mem _ (by simpa [hsched] using hm)

theorem decStreamAt_withSched {ms : List Move} (h : DecStreamAt bytes s) (hms : TurnTaken s.sched ms) :
    DecStreamAt bytes (withSched ms s) :=
  decStreamAt_congr h rfl rfl ⟨rfl, rfl⟩ hms.mem (decTokensToCome_turnTaken hms)

theorem decStreamAt_step (h : DecStreamAt bytes s) (hstep : step s = .next t) : DecStreamAt bytes t := by
  obtain ⟨-, ⟨a, ms, hs, rfl⟩ | ⟨ms, hms, ⟨hrst, -⟩ | ⟨-, u, e⟩⟩⟩ := step_next hstep
  · exact decStreamAt_host h hs
  · obtain ⟨hr, -⟩ := h
    simp [hr] at hrst
  · exact decStreamAt_turn (decStreamAt_withSched h hms) e

end Decoder

/-- Settles O51: a step is a host action, which writes nothing the relation reads (`encStreamAt_host`), or a turn
(`encStreamAt_turn`); in a stream `rst = 0`, so it is no reset. -/
theorem encoderHoldsTheEncodingOfTheBitsTaken : Obligations.EncoderHoldsTheEncodingOfTheBitsTaken :=
  fun _ _ _ _ => encStreamAt_step

/-- Settles O52, in the same way; a strap change is one of the host actions (`decStreamAt_host`). -/
theorem decoderHoldsTheDecodingOfTheBytesTaken : Obligations.DecoderHoldsTheDecodingOfTheBytesTaken :=
  fun _ _ _ => decStreamAt_step

end Sys2Proof.Machine

/-! ## The stream functions and their laws (43_stream_functions.md R80 to R90) -/

namespace Sys2Proof.Machine

/-! ### The runs of a sequence (R80) -/

/-- The bits that runs stand for. -/
abbrev runBits (rs : List (Bit × Nat)) : List Bit := rs.flatMap (fun r => List.replicate r.2 r.1)

/-- The bytes of runs under a policy, without a leading zero. -/
abbrev segments (p : Policy) (rs : List (Bit × Nat)) : List Byte := rs.flatMap (fun r => segment p r.2)

/-- No run is empty, the first has the bit `b`, and each next one the opposite bit. -/
def AlternateFrom (b : Bit) : List (Bit × Nat) → Prop
  | [] => True
  | r :: rs => r.1 = b ∧ 1 ≤ r.2 ∧ AlternateFrom (!b) rs

theorem runs_cons_alternateFrom (b : Bit) (bits : List Bit) : AlternateFrom b (runs (b :: bits)) := by
  induction bits generalizing b with
  | nil => exact ⟨rfl, le_rfl, trivial⟩
  | cons c bits ih =>
    have hc := ih c
    rcases hruns : runs (c :: bits) with _ | ⟨⟨d, n⟩, rs⟩ <;> rw [hruns] at hc
    · rw [runs, hruns]
      exact ⟨rfl, le_rfl, trivial⟩
    · obtain ⟨rfl, hn, hrs⟩ := hc
      by_cases hb : b = d
      · subst hb
        rw [runs_cons_same _ n _ rs hruns]
        exact ⟨rfl, Nat.le_add_left 1 n, hrs⟩
      · rw [runs_cons_differs b d n _ rs hruns hb]
        obtain rfl : d = !b := by cases b <;> cases d <;> simp_all
        exact ⟨rfl, le_rfl, rfl, hn, hrs⟩

theorem AlternateFrom.of_append {b : Bit} {xs ys : List (Bit × Nat)} (h : AlternateFrom b (xs ++ ys)) :
    AlternateFrom b xs := by
  induction xs generalizing b with
  | nil => trivial
  | cons x xs ih =>
    obtain ⟨hx, hpos, hrest⟩ := h
    exact ⟨hx, hpos, ih hrest⟩

theorem AlternateFrom.one_le {b : Bit} {rs : List (Bit × Nat)} (h : AlternateFrom b rs) : ∀ r ∈ rs, 1 ≤ r.2 := by
  induction rs generalizing b with
  | nil => simp
  | cons r rs ih =>
    obtain ⟨-, hpos, hrest⟩ := h
    exact List.forall_mem_cons.mpr ⟨hpos, ih hrest⟩

theorem AlternateFrom.next {b : Bit} {rs : List (Bit × Nat)} (h : AlternateFrom b rs) {i : Nat} {r u : Bit × Nat}
    (hr : rs[i]? = some r) (hu : rs[i + 1]? = some u) : u.1 = !r.1 := by
  induction rs generalizing b i with
  | nil => simp at hr
  | cons x rs ih =>
    obtain ⟨hx, -, hrest⟩ := h
    rw [List.getElem?_cons_succ] at hu
    cases i with
    | succ i => exact ih hrest hr hu
    | zero =>
      obtain rfl : x = r := by simpa using hr
      cases rs with
      | nil => simp at hu
      | cons y rs =>
        obtain rfl : y = u := by simpa using hu
        obtain ⟨hy, -⟩ := hrest
        rw [hy, hx]

theorem runs_one_le (bits : List Bit) : ∀ r ∈ runs bits, 1 ≤ r.2 := by
  cases bits with
  | nil => simp
  | cons b bits => exact (runs_cons_alternateFrom b bits).one_le

/-- The runs stand for the sequence they were made of. -/
theorem runBits_runs (bits : List Bit) : runBits (runs bits) = bits := by
  induction bits with
  | nil => rfl
  | cons b bits ih =>
    rcases hruns : runs bits with _ | ⟨⟨c, n⟩, rs⟩ <;> rw [hruns] at ih
    · rw [runs, hruns, ← ih]
      rfl
    · by_cases hb : b = c
      · rw [hb, runs_cons_same c n bits rs hruns, ← ih]
        rfl
      · rw [runs_cons_differs b c n bits rs hruns hb, ← ih]
        rfl

/-- Settles O53, from `runBits_runs` and the alternation of the runs. -/
theorem runsAreTheMaximalRuns : Obligations.RunsAreTheMaximalRuns := by
  intro bits
  refine ⟨runBits_runs bits, runs_one_le bits, fun i r u hr hu => ?_⟩
  cases bits with
  | nil => simp at hr
  | cons b bits => exact (runs_cons_alternateFrom b bits).next hr hu

/-! ### What has been received is the beginning of the whole output (R88) -/

theorem exists_runs_eq_concat {bits : List Bit} (h : bits ≠ []) :
    ∃ before b len, runs bits = before ++ [(b, len)] := by
  rcases List.eq_nil_or_concat (runs bits) with hnil | ⟨before, last, hlast⟩
  · exact absurd (by rw [← runBits_runs bits, hnil]; rfl) h
  · exact ⟨before, last.1, last.2, by rw [hlast, List.concat_eq_append]⟩

theorem lastSegment_le (len : Nat) : lastSegment len ≤ 255 := by
  unfold lastSegment overflows
  omega

/-- The byte of the last segment does not wrap. -/
theorem toNat_lastSegment (len : Nat) : (BitVec.ofNat 8 (lastSegment len)).toNat = lastSegment len :=
  Nat.mod_eq_of_lt (Nat.lt_succ_of_le (lastSegment_le len))

/-- One more bit changes no byte before the last: that one alone counts a run that may go on (R90). -/
theorem dropLast_encodeStream_append_singleton (p : Policy) (bits : List Bit) (b : Bit) :
    (encodeStream p bits).dropLast <+: (encodeStream p (bits ++ [b])).dropLast := by
  rcases eq_or_ne bits [] with rfl | hne
  · exact List.nil_prefix
  obtain ⟨before, c, len, hruns⟩ := exists_runs_eq_concat hne
  obtain ⟨out, v, henc, hv⟩ : ∃ out v, out ++ [v] = encodeStream p bits ∧ v.toNat = lastSegment len :=
    ⟨_, _, by rw [encodeStream_of_runs p hruns, segment_eq, ← List.append_assoc], toNat_lastSegment len⟩
  rw [← henc, List.dropLast_concat]
  by_cases hb : b = c
  · by_cases hmax : v = 255#8
    · rw [hb, encodeStream_append_overflow hruns (by rw [← hv, hmax]; rfl) henc, List.dropLast_concat]
      exact List.prefix_append _ _
    · rw [hb, encodeStream_append_same hruns hv henc hmax, List.dropLast_concat]
  · rw [encodeStream_append_other hruns hb, List.dropLast_concat, ← henc]
    exact List.prefix_append _ _

theorem dropLast_encodeStream_prefix (p : Policy) (taken rest : List Bit) :
    (encodeStream p taken).dropLast <+: (encodeStream p (taken ++ rest)).dropLast := by
  induction rest using List.reverseRecOn with
  | nil => rw [List.append_nil]
  | append_singleton rest b ih =>
    rw [← List.append_assoc]
    exact ih.trans (dropLast_encodeStream_append_singleton p _ b)

/-- In phase RUN the byte of the run being counted is still in the machine; before it nothing has been taken, and after
it everything. -/
theorem encStreamAt_encOut_prefix {p : Policy} {bits : List Bit} {s : State} (h : EncStreamAt p bits s) :
    s.encOut <+: encodeStream p bits := by
  obtain ⟨-, -, -, -, hlegal, taken, rest, hbits, ⟨hempty, -, henc⟩, -, hdone⟩ := encStreamAt_iff.mp h
  rw [List.append_assoc s.encOut] at henc
  have hout : s.encOut <+: encodeStream p taken := by
    rw [← henc, List.append_assoc]
    exact List.prefix_append _ _
  cases hphase : s.enc.phase with
  | empty =>
    obtain ⟨rfl, -⟩ := hempty hphase
    exact hout.trans List.nil_prefix
  | run =>
    have hbefore : s.encOut <+: (encodeStream p taken).dropLast := by
      rw [← henc, if_pos hphase, List.dropLast_concat]
      exact List.prefix_append _ _
    rw [hbits]
    exact hbefore.trans ((dropLast_encodeStream_prefix p taken rest).trans (List.dropLast_prefix _))
  | done =>
    obtain ⟨rfl, -⟩ := hdone hphase
    rwa [hbits, List.append_nil]
  | illegal => exact absurd hphase hlegal

theorem decStreamAt_decOut_prefix {bytes : List Byte} {s : State} (h : DecStreamAt bytes s) :
    s.decOut <+: decodeStream bytes := by
  obtain ⟨-, -, -, taken, rest, hbytes, ⟨-, hdec⟩, -⟩ := decStreamAt_iff.mp h
  rw [hbytes, decodeStream, decodeFrom_append, ← decodeStream, ← hdec, List.append_assoc, List.append_assoc]
  exact List.prefix_append _ _

/-- Settles O49: every run from the start stays in the stream (`encStreamAt_step`), and in a stream what has been
received is the beginning of the encoding, and all of it at the end. -/
theorem encoderOutputIsTheSameUnderEverySchedule : Obligations.EncoderOutputIsTheSameUnderEverySchedule := by
  intro p bits s t n hstart hsched hrun
  have ht : EncStreamAt p bits t :=
    runFor_keeps (fun _ _ => encStreamAt_step) n s t (encStreamAt_of_start hstart hsched) hrun
  refine ⟨ht, encStreamAt_encOut_prefix ht, fun hd => ?_⟩
  obtain ⟨hout, -, hnone⟩ := encStreamAt_done ht hd
  exact ⟨hout, hnone⟩

/-- Settles O50, in the same way with `decStreamAt_step`. -/
theorem decoderOutputIsTheSameUnderEverySchedule : Obligations.DecoderOutputIsTheSameUnderEverySchedule := by
  intro bytes s t n hstart hsched hrun
  have ht : DecStreamAt bytes t :=
    runFor_keeps (fun _ _ => decStreamAt_step) n s t (decStreamAt_of_start hstart hsched) hrun
  exact ⟨ht, decStreamAt_decOut_prefix ht, decStreamAt_done ht⟩

/-! ### A segment's arithmetic (R80) -/

theorem one_le_lastSegment {len : Nat} (h : 1 ≤ len) : 1 ≤ lastSegment len := by
  unfold lastSegment overflows
  omega

theorem overflows_add_lastSegment (len : Nat) : 255 * overflows len + lastSegment len = len := by
  unfold lastSegment overflows
  omega

/-- A run of at most 255 bits does not overflow. -/
theorem overflows_of_short {len : Nat} (h : len ≤ 255) : overflows len = 0 := by
  unfold overflows
  omega

theorem overflows_of_long {len : Nat} (h : 256 ≤ len) : ∃ q, overflows len = q + 1 :=
  Nat.exists_eq_add_one.mpr (by unfold overflows; omega)

theorem segment_length (p : Policy) (len : Nat) :
    (segment p len).length = overflows len * (overflowBytes p).length + 1 := by
  simp [segment]

/-- Without an overflow the policy plays no part. -/
theorem segment_of_short {len : Nat} (p : Policy) (h : len ≤ 255) : segment p len = segment .literal len := by
  simp [segment, overflows_of_short h]

theorem segments_of_short {rs : List (Bit × Nat)} (p : Policy) (h : ∀ r ∈ rs, r.2 ≤ 255) :
    segments p rs = segments .literal rs :=
  List.flatMap_congr fun r hr => segment_of_short p (h r hr)

theorem segments_append (p : Policy) (xs ys : List (Bit × Nat)) :
    segments p (xs ++ ys) = segments p xs ++ segments p ys :=
  List.flatMap_append

theorem segments_cons (p : Policy) (r : Bit × Nat) (rs : List (Bit × Nat)) :
    segments p (r :: rs) = segment p r.2 ++ segments p rs :=
  List.flatMap_cons

theorem runBits_cons (r : Bit × Nat) (rs : List (Bit × Nat)) :
    runBits (r :: rs) = List.replicate r.2 r.1 ++ runBits rs :=
  List.flatMap_cons

theorem runBits_length (rs : List (Bit × Nat)) : (runBits rs).length = (rs.map Prod.snd).sum := by
  simp [runBits, List.length_flatMap]

/-! ### The leading zero puts the first run at an index of its own polarity (R83) -/

@[simp] theorem leadingZero_length (bits : List Bit) : (leadingZero bits).length = lead bits := by
  rcases bits with _ | ⟨_ | _, bits⟩ <;> rfl

theorem lead_le_one (bits : List Bit) : lead bits ≤ 1 := by
  rcases bits with _ | ⟨_ | _, bits⟩ <;> simp [lead]

theorem runs_alternateFrom (bits : List Bit) : AlternateFrom (polarity (lead bits)) (runs bits) := by
  cases bits with
  | nil => trivial
  | cons b bits =>
    have hlead : polarity (lead (b :: bits)) = b := by cases b <;> rfl
    rw [hlead]
    exact runs_cons_alternateFrom b bits

/-- The leading zero stands for no bit. -/
theorem decodeStream_encodeStream (p : Policy) (bits : List Bit) :
    decodeStream (encodeStream p bits) = decodeFrom (lead bits) (segments p (runs bits)) := by
  rw [encodeStream, decodeStream, decodeFrom_append, leadingZero_length, Nat.zero_add]
  rcases bits with _ | ⟨_ | _, bits⟩ <;> rfl

/-! ### Lengths and sums (R85 to R87) -/

theorem decodeFrom_length (i : Nat) (bytes : List Byte) : (decodeFrom i bytes).length = byteSum bytes := by
  induction bytes generalizing i with
  | nil => rfl
  | cons v bytes ih => rw [decodeFrom_cons, List.length_append, List.length_replicate, ih, byteSum_cons]

theorem byteSum_le (bytes : List Byte) : byteSum bytes ≤ 255 * bytes.length := by
  induction bytes with
  | nil => simp
  | cons v bytes ih =>
    have hv := v.isLt
    rw [byteSum_cons, List.length_cons]
    omega

theorem byteSum_overflowBytes (p : Policy) : byteSum (overflowBytes p) = 255 := by
  cases p <;> rfl

theorem byteSum_flatten_replicate (n : Nat) (bytes : List Byte) :
    byteSum (List.replicate n bytes).flatten = n * byteSum bytes := by
  induction n with
  | zero => simp
  | succ n ih => rw [List.replicate_succ, List.flatten_cons, byteSum_append, ih, Nat.succ_mul, Nat.add_comm]

theorem byteSum_segment (p : Policy) (len : Nat) : byteSum (segment p len) = len := by
  rw [segment, byteSum_append, byteSum_flatten_replicate, byteSum_overflowBytes, byteSum_cons, toNat_lastSegment,
    byteSum_nil, Nat.add_zero, Nat.mul_comm, overflows_add_lastSegment]

theorem byteSum_segments (p : Policy) (rs : List (Bit × Nat)) : byteSum (segments p rs) = (runBits rs).length := by
  induction rs with
  | nil => rfl
  | cons r rs ih =>
    rw [segments_cons, runBits_cons, byteSum_append, byteSum_segment, ih, List.length_append, List.length_replicate]

theorem byteSum_leadingZero (bits : List Bit) : byteSum (leadingZero bits) = 0 := by
  rcases bits with _ | ⟨_ | _, bits⟩ <;> rfl

theorem byteSum_encodeStream (p : Policy) (bits : List Bit) : byteSum (encodeStream p bits) = bits.length := by
  rw [encodeStream, byteSum_append, byteSum_leadingZero, Nat.zero_add, byteSum_segments, runBits_runs]

/-- Settles O56: each segment sums to its run's length, and a byte decodes to as many bits as its value. -/
theorem encodingSumsToTheInputLength : Obligations.EncodingSumsToTheInputLength :=
  fun p bits => ⟨byteSum_encodeStream p bits, by rw [decodeStream, decodeFrom_length, byteSum_encodeStream]⟩

/-- The length of an encoding, run by run. -/
theorem encodeStream_length (p : Policy) (bits : List Bit) :
    (encodeStream p bits).length =
      lead bits + ((runs bits).map (fun r => overflows r.2 * (overflowBytes p).length + 1)).sum := by
  simp [encodeStream, List.length_flatMap, segment_length]

/-- A segment has at most one byte for each bit of its run. -/
theorem segment_length_le {len : Nat} (p : Policy) (h : 1 ≤ len) : (segment p len).length ≤ len := by
  have hq := overflows_add_lastSegment len
  have hr := one_le_lastSegment h
  rw [segment_length]
  cases p <;> simp only [overflowBytes, List.length_cons, List.length_nil] <;> omega

theorem segments_length_le {rs : List (Bit × Nat)} (p : Policy) (h : ∀ r ∈ rs, 1 ≤ r.2) :
    (segments p rs).length ≤ (runBits rs).length := by
  rw [runBits_length, segments, List.length_flatMap]
  exact List.sum_le_sum fun r hr => segment_length_le p (h r hr)

/-- Runs of one bit have one byte each. -/
theorem segments_length_of_ones {rs : List (Bit × Nat)} (p : Policy) (h : ∀ r ∈ rs, r.2 = 1) :
    (segments p rs).length = (runBits rs).length := by
  have hone : ∀ r ∈ rs, (segment p r.2).length = r.2 := fun r hr => by rw [h r hr, segment_one]; rfl
  rw [runBits_length, segments, List.length_flatMap, List.map_congr_left hone]

/-- Settles O57, with the bounds of one segment summed over the runs. -/
theorem encodingLengthAndItsBound : Obligations.EncodingLengthAndItsBound := by
  intro bits
  have hsplit : ∀ p, (encodeStream p bits).length = lead bits + (segments p (runs bits)).length := fun p => by
    rw [encodeStream, List.length_append, leadingZero_length]
  refine ⟨?_, ?_, fun p => ⟨?_, Nat.add_le_add_left (lead_le_one bits) _, encodeStream_singleton p true,
    fun hhead hones => ?_⟩⟩
  · simp [encodeStream_length, overflowBytes]
  · simp [encodeStream_length, overflowBytes, Nat.mul_comm]
  · have hle := segments_length_le p (runs_one_le bits)
    rw [runBits_runs] at hle
    rw [hsplit]
    omega
  · obtain ⟨rest, rfl⟩ := List.head?_eq_some_iff.mp hhead
    rw [hsplit, segments_length_of_ones p hones, runBits_runs, Nat.add_comm]
    rfl

/-- Every byte changes a register of a ready decoder: 0 flips `DEC_BIT`, another value loads `DEC_REM` (R70). -/
theorem takeByte_ne {d : Dec} (v : Byte) (hrem : d.rem = 0#8) : takeByte v d ≠ d := by
  intro h
  by_cases hv : v = 0#8
  · rw [hv, takeByte_zero] at h
    simpa using congrArg Dec.bit h
  · rw [takeByte_of_ne_zero hv] at h
    exact hv ((congrArg Dec.rem h).trans hrem)

/-- Settles O58, with `exec_decByte` for the byte a ready decoder takes. -/
theorem decodingLengthAndItsBound : Obligations.DecodingLengthAndItsBound := by
  refine ⟨fun bytes => ⟨decodeFrom_length 0 bytes, byteSum_le bytes⟩, fun s v hm hready => ?_, by decide, by decide⟩
  obtain ⟨-, -, hrem⟩ := (decInReady_iff s).mp hready
  exact ⟨_, by rw [exec_decByte v hm, if_pos hready], takeByte_ne v hrem⟩

/-! ### The round trip under `SYNTH_ZERO` (R83) -/

theorem polarity_add_two_mul (i n : Nat) : polarity (i + 2 * n) = polarity i := by
  simp [polarity]

theorem decodeFrom_synthZero_overflow (i : Nat) : decodeFrom i [255#8, 0#8] = List.replicate 255 (polarity i) :=
  List.append_nil _

/-- The synthetic zeros keep every overflow at an index of the run's polarity. -/
theorem decodeFrom_synthZero_overflows (i n : Nat) :
    decodeFrom i (List.replicate n [255#8, 0#8]).flatten = List.replicate (255 * n) (polarity i) := by
  induction n generalizing i with
  | zero => rfl
  | succ n ih =>
    have hnext : polarity (i + [255#8, 0#8].length) = polarity i := polarity_add_two_mul i 1
    rw [List.replicate_succ, List.flatten_cons, decodeFrom_append, decodeFrom_synthZero_overflow, ih, hnext,
      ← List.replicate_add, Nat.mul_succ, Nat.add_comm]

theorem synthZero_segment_length (len : Nat) : (segment .synthZero len).length = 2 * overflows len + 1 := by
  rw [segment_length, Nat.mul_comm]
  rfl

theorem decodeFrom_synthZero_segment (i len : Nat) :
    decodeFrom i (segment .synthZero len) = List.replicate len (polarity i) := by
  have hlen : (List.replicate (overflows len) [255#8, 0#8]).flatten.length = 2 * overflows len := by
    simp [Nat.mul_comm]
  rw [segment, overflowBytes, decodeFrom_append, decodeFrom_synthZero_overflows, hlen, decodeFrom_cons,
    polarity_add_two_mul, toNat_lastSegment, decodeFrom_nil, List.append_nil, ← List.replicate_add,
    overflows_add_lastSegment]

/-- A segment has an odd number of bytes, so the next one begins at the other polarity. -/
theorem polarity_add_synthZero_segment (i len : Nat) :
    polarity (i + (segment .synthZero len).length) = !polarity i := by
  rw [synthZero_segment_length, ← Nat.add_assoc, polarity_succ, polarity_add_two_mul]

theorem decodeFrom_synthZero_segments {i : Nat} {rs : List (Bit × Nat)} (h : AlternateFrom (polarity i) rs) :
    decodeFrom i (segments .synthZero rs) = runBits rs := by
  induction rs generalizing i with
  | nil => rfl
  | cons r rs ih =>
    obtain ⟨hr, -, hrest⟩ := h
    rw [← polarity_add_synthZero_segment i r.2] at hrest
    rw [segments_cons, runBits_cons, decodeFrom_append, decodeFrom_synthZero_segment, ih hrest, hr]

/-- Each run begins at an index of its own polarity. -/
theorem polarity_add_synthZero_segments {i : Nat} {before after : List (Bit × Nat)} {r : Bit × Nat}
    (h : AlternateFrom (polarity i) (before ++ r :: after)) :
    polarity (i + (segments .synthZero before).length) = r.1 := by
  induction before generalizing i with
  | nil =>
    obtain ⟨hr, -⟩ := h
    exact hr.symm
  | cons x before ih =>
    obtain ⟨-, -, hrest⟩ := h
    rw [← polarity_add_synthZero_segment i x.2] at hrest
    rw [segments_cons, List.length_append, ← Nat.add_assoc]
    exact ih hrest

theorem mod_two_eq_toNat_polarity (i : Nat) : i % 2 = (polarity i).toNat := by
  rcases Nat.mod_two_eq_zero_or_one i with h | h <;> simp [polarity, h]

theorem synthZero_roundTrip (bits : List Bit) : decodeStream (encodeStream .synthZero bits) = bits := by
  rw [decodeStream_encodeStream, decodeFrom_synthZero_segments (runs_alternateFrom bits), runBits_runs]

theorem synthZero_overflows_odd {i n : Nat} (h : i < n) :
    (List.replicate n [255#8, 0#8]).flatten[2 * i + 1]? = some 0#8 := by
  induction n generalizing i with
  | zero => omega
  | succ n ih =>
    rw [List.replicate_succ, List.flatten_cons]
    cases i with
    | zero => rfl
    | succ i => exact ih (Nat.lt_of_succ_lt_succ h)

theorem synthZero_segment_odd {i len : Nat} (h : i < overflows len) :
    (segment .synthZero len)[2 * i + 1]? = some 0#8 := by
  have hlt : 2 * i + 1 < (List.replicate (overflows len) (overflowBytes .synthZero)).flatten.length := by
    simp [overflowBytes]
    omega
  rw [segment, List.getElem?_append_left hlt]
  exact synthZero_overflows_odd h

/-- Settles O54: the zeros of a segment keep its counts at the run's polarity, and its odd length begins the next run at
the other one. -/
theorem synthZeroIsLossless : Obligations.SynthZeroIsLossless := by
  refine ⟨synthZero_roundTrip,
    fun len _ => ⟨synthZero_segment_length len, byteSum_segment .synthZero len, fun i => synthZero_segment_odd⟩,
    fun bits before after b len hruns => ?_⟩
  have halt := runs_alternateFrom bits
  rw [hruns] at halt
  rw [List.length_append, leadingZero_length, mod_two_eq_toNat_polarity, polarity_add_synthZero_segments halt]

/-! ### Where a byte 0 can stand (R89) -/

theorem ofNat_lastSegment_ne_zero {len : Nat} (h : 1 ≤ len) : BitVec.ofNat 8 (lastSegment len) ≠ 0#8 := fun hzero => by
  have hr := one_le_lastSegment h
  rw [← toNat_lastSegment, hzero] at hr
  simp at hr

theorem literal_segment_ne_zero {len : Nat} (h : 1 ≤ len) : ∀ v ∈ segment .literal len, v ≠ 0#8 := by
  intro v hv
  rcases List.mem_append.mp hv with hover | hlast
  · simp only [overflowBytes, List.mem_flatten, List.mem_replicate] at hover
    obtain ⟨bytes, ⟨-, rfl⟩, hmem⟩ := hover
    rw [List.mem_singleton.mp hmem]
    decide
  · rw [List.mem_singleton.mp hlast]
    exact ofNat_lastSegment_ne_zero h

/-- Every byte 0 of the list stands right after a 255. -/
def ZerosFollow255 (bytes : List Byte) : Prop :=
  ∀ i, bytes[i]? = some 0#8 → 1 ≤ i ∧ bytes[i - 1]? = some 255#8

theorem zerosFollow255_of_nonzero {bytes : List Byte} (h : ∀ v ∈ bytes, v ≠ 0#8) : ZerosFollow255 bytes :=
  fun _ hi => absurd rfl (h _ (List.mem_of_getElem? hi))

theorem ZerosFollow255.append {xs ys : List Byte} (hx : ZerosFollow255 xs) (hy : ZerosFollow255 ys) :
    ZerosFollow255 (xs ++ ys) := by
  intro i hi
  rcases Nat.lt_or_ge i xs.length with hlt | hge
  · rw [List.getElem?_append_left hlt] at hi
    rw [List.getElem?_append_left (by omega)]
    exact hx i hi
  · rw [List.getElem?_append_right hge] at hi
    obtain ⟨hpos, hprev⟩ := hy _ hi
    rw [List.getElem?_append_right (by omega), Nat.sub_right_comm]
    exact ⟨by omega, hprev⟩

theorem ZerosFollow255.flatten {yss : List (List Byte)} (h : ∀ ys ∈ yss, ZerosFollow255 ys) :
    ZerosFollow255 yss.flatten := by
  induction yss with
  | nil => exact zerosFollow255_of_nonzero (by simp)
  | cons ys yss ih =>
    obtain ⟨hys, hrest⟩ := List.forall_mem_cons.mp h
    exact hys.append (ih hrest)

theorem zerosFollow255_overflowBytes (p : Policy) : ZerosFollow255 (overflowBytes p) := by
  cases p with
  | literal => exact zerosFollow255_of_nonzero (by decide)
  | synthZero =>
    intro i hi
    match i with
    | 0 => simp [overflowBytes] at hi
    | 1 => exact ⟨le_rfl, rfl⟩
    | i + 2 => simp [overflowBytes] at hi

theorem zerosFollow255_segment {len : Nat} (p : Policy) (h : 1 ≤ len) : ZerosFollow255 (segment p len) := by
  refine (ZerosFollow255.flatten fun ys hys => ?_).append (zerosFollow255_of_nonzero ?_)
  · rw [List.eq_of_mem_replicate hys]
    exact zerosFollow255_overflowBytes p
  · simpa using ofNat_lastSegment_ne_zero h

theorem zerosFollow255_segments {rs : List (Bit × Nat)} (p : Policy) (h : ∀ r ∈ rs, 1 ≤ r.2) :
    ZerosFollow255 (segments p rs) := by
  refine ZerosFollow255.flatten fun ys hys => ?_
  obtain ⟨r, hr, rfl⟩ := List.mem_map.mp hys
  exact zerosFollow255_segment p (h r hr)

/-- A byte 0 is the leading one, or a byte 0 of the segments. -/
theorem encodeStream_getElem?_zero {p : Policy} {bits : List Bit} {i : Nat}
    (h : (encodeStream p bits)[i]? = some 0#8) :
    (i = 0 ∧ lead bits = 1) ∨
      (lead bits ≤ i ∧ (segments p (runs bits))[i - lead bits]? = some 0#8) := by
  have hlead := lead_le_one bits
  rcases Nat.lt_or_ge i (lead bits) with hlt | hge
  · exact .inl (by omega)
  · rw [encodeStream, List.getElem?_append_right (by rwa [leadingZero_length]), leadingZero_length] at h
    exact .inr ⟨hge, h⟩

theorem literal_zero_byte {bits : List Bit} {i : Nat} (h : (encodeStream .literal bits)[i]? = some 0#8) :
    i = 0 ∧ lead bits = 1 := by
  rcases encodeStream_getElem?_zero h with hlead | ⟨-, hseg⟩
  · exact hlead
  · obtain ⟨r, hr, hmem⟩ := List.mem_flatMap.mp (List.mem_of_getElem? hseg)
    exact absurd rfl (literal_segment_ne_zero (runs_one_le bits r hr) _ hmem)

theorem zero_byte {p : Policy} {bits : List Bit} {i : Nat} (h : (encodeStream p bits)[i]? = some 0#8) :
    (i = 0 ∧ lead bits = 1) ∨ (1 ≤ i ∧ (encodeStream p bits)[i - 1]? = some 255#8) := by
  refine (encodeStream_getElem?_zero h).imp_right fun ⟨hge, hseg⟩ => ?_
  obtain ⟨hpos, hprev⟩ := zerosFollow255_segments p (runs_one_le bits) _ hseg
  rw [encodeStream, List.getElem?_append_right (by rw [leadingZero_length]; omega), leadingZero_length,
    Nat.sub_right_comm]
  exact ⟨by omega, hprev⟩

/-- Settles O59: under `LITERAL` no byte of a segment is 0, under either policy a 0 of a segment follows a 255
(`zero_byte`), and the 0 of [3, 0, 2] is neither first nor after a 255. -/
theorem zeroBytesOfAnEncoding : Obligations.ZeroBytesOfAnEncoding := by
  refine ⟨fun bits i => literal_zero_byte, fun bits i => zero_byte, fun p bits henc => ?_⟩
  have hzero : (encodeStream p bits)[1]? = some 0#8 := by rw [henc]; rfl
  rcases zero_byte hzero with ⟨h, -⟩ | ⟨-, h⟩
  · cases h
  · rw [henc] at h
    revert h
    decide

/-! ### The round trip under `LITERAL` (R84) -/

/-- A run that overflows begins with a 255 and a count of at least 1. -/
theorem literal_segment_of_long {len : Nat} (h : 256 ≤ len) :
    ∃ v rest, segment .literal len = 255#8 :: v :: rest ∧ v ≠ 0#8 := by
  have hnonzero := literal_segment_ne_zero (Nat.le_trans (by decide) h)
  obtain ⟨q, hq⟩ := overflows_of_long h
  have hseg : segment .literal len =
      255#8 :: ((List.replicate q [255#8]).flatten ++ [BitVec.ofNat 8 (lastSegment len)]) := by
    rw [segment, hq, List.replicate_succ]
    rfl
  rcases htail : (List.replicate q [255#8]).flatten ++ [BitVec.ofNat 8 (lastSegment len)] with _ | ⟨v, rest⟩
  · simp at htail
  · rw [htail] at hseg
    exact ⟨v, rest, hseg, hnonzero v (by simp [hseg])⟩

section LongRun

variable {bits : List Bit} {before after : List (Bit × Nat)} {b : Bit} {len : Nat}

/-- After a 255 with no synthetic zero the next count stands at an index of the other polarity. -/
theorem decodeFrom_literal_segment_of_long (i : Nat) (h : 256 ≤ len) :
    ∃ rest, decodeFrom i (segment .literal len) = List.replicate 255 (polarity i) ++ (!polarity i) :: rest := by
  obtain ⟨v, rest, hseg, hv⟩ := literal_segment_of_long h
  obtain ⟨n, hn⟩ : ∃ n, v.toNat = n + 1 :=
    Nat.exists_eq_succ_of_ne_zero fun hzero => hv (BitVec.eq_of_toNat_eq hzero)
  rw [hseg, decodeFrom_cons, decodeFrom_cons, hn, List.replicate_succ, polarity_succ]
  exact ⟨_, rfl⟩

/-- The decoding up to and just past the first 255 bits of the first longer run. -/
theorem literal_roundTrip_of_long (hruns : runs bits = before ++ (b, len) :: after)
    (hshort : ∀ r ∈ before, r.2 ≤ 255) (hlong : 256 ≤ len) :
    ∃ rest, decodeStream (encodeStream .literal bits) =
      runBits before ++ List.replicate 255 b ++ (!b) :: rest := by
  have halt := runs_alternateFrom bits
  rw [hruns] at halt
  obtain ⟨rest, hrest⟩ := decodeFrom_literal_segment_of_long
    (lead bits + (segments .synthZero before).length) hlong
  rw [polarity_add_synthZero_segments halt] at hrest
  rw [decodeStream_encodeStream, hruns, segments_append, segments_cons, ← segments_of_short .synthZero hshort,
    decodeFrom_append, decodeFrom_append, decodeFrom_synthZero_segments halt.of_append, hrest]
  simp only [List.append_assoc, List.cons_append]
  exact ⟨_, rfl⟩

/-- The sequence itself up to there: the run goes on. -/
theorem eq_of_runs_of_long (hruns : runs bits = before ++ (b, len) :: after) (hlong : 256 ≤ len) :
    ∃ rest, bits = runBits before ++ List.replicate 255 b ++ b :: rest := by
  obtain ⟨n, rfl⟩ := Nat.exists_eq_add_of_le hlong
  have hrun : List.replicate (256 + n) b = List.replicate 255 b ++ b :: List.replicate n b := by
    rw [← List.replicate_succ, ← List.replicate_add]
    congr 1
    omega
  refine ⟨List.replicate n b ++ runBits after, ?_⟩
  rw [← runBits_runs bits, hruns, runBits, List.flatMap_append, List.flatMap_cons, hrun]
  simp only [List.append_assoc, List.cons_append]

/-- Where the first run longer than 255 begins, the two agree for 255 bits more and then differ. -/
theorem literal_roundTrip_differs (hruns : runs bits = before ++ (b, len) :: after)
    (hshort : ∀ r ∈ before, r.2 ≤ 255) (hlong : 256 ≤ len) :
    (∀ i, i < (before.map Prod.snd).sum + 255 → (decodeStream (encodeStream .literal bits))[i]? = bits[i]?) ∧
      (decodeStream (encodeStream .literal bits))[(before.map Prod.snd).sum + 255]? = some (!b) ∧
      bits[(before.map Prod.snd).sum + 255]? = some b := by
  obtain ⟨rest, hdec⟩ := literal_roundTrip_of_long hruns hshort hlong
  obtain ⟨rest', hbits⟩ := eq_of_runs_of_long hruns hlong
  have hlen : (runBits before ++ List.replicate 255 b).length = (before.map Prod.snd).sum + 255 := by
    rw [List.length_append, runBits_length, List.length_replicate]
  rw [hdec, ← hlen]
  refine ⟨fun i hi => ?_, ?_, ?_⟩
  · rw [hbits, List.getElem?_append_left hi, List.getElem?_append_left hi]
  · rw [List.getElem?_append_right le_rfl, Nat.sub_self, List.getElem?_cons_zero]
  · rw [hbits, List.getElem?_append_right le_rfl, Nat.sub_self, List.getElem?_cons_zero]

end LongRun

theorem literal_roundTrip_of_short {bits : List Bit} (h : ∀ r ∈ runs bits, r.2 ≤ 255) :
    decodeStream (encodeStream .literal bits) = bits := by
  rw [encodeStream, ← segments, ← segments_of_short .synthZero h]
  exact synthZero_roundTrip bits

/-- The first run of more than 255 bits, if there is one. -/
theorem exists_first_long_run {rs : List (Bit × Nat)} (h : ¬∀ r ∈ rs, r.2 ≤ 255) :
    ∃ before b len after, rs = before ++ (b, len) :: after ∧ (∀ r ∈ before, r.2 ≤ 255) ∧ 256 ≤ len := by
  cases hfind : rs.find? (fun r => 255 < r.2) with
  | none => exact absurd (fun r hr => by simpa using List.find?_eq_none.mp hfind r hr) h
  | some r =>
    obtain ⟨hlong, before, after, hrs, hshort⟩ := List.find?_eq_some_iff_append.mp hfind
    exact ⟨before, r.1, r.2, after, hrs, fun x hx => by simpa using hshort x hx,
      Nat.succ_le_of_lt (by simpa using hlong)⟩

/-- Settles O55: without a longer run the encoding is that of `SYNTH_ZERO`, and at the first longer run the round trip
differs (`literal_roundTrip_differs`). -/
theorem literalIsLosslessExactlyWithoutLongRuns : Obligations.LiteralIsLosslessExactlyWithoutLongRuns := by
  intro bits
  refine ⟨⟨fun hsame => by_contra fun hlong => ?_, literal_roundTrip_of_short⟩,
    fun before after b len => literal_roundTrip_differs⟩
  obtain ⟨before, b, len, after, hruns, hshort, hlen⟩ := exists_first_long_run hlong
  obtain ⟨-, hdec, hbits⟩ := literal_roundTrip_differs hruns hshort hlen
  rw [hsame, hbits] at hdec
  simp at hdec

end Sys2Proof.Machine

/-! ## Faults, refusals and host actions of 60_exceptions.md

Every operation but `RESET` is one machine's `encoderOp` or `decoderOp` (`exec_encoder_eq`, `exec_decoder_eq`); which
outcome it has, a next state, a refusal or the fault, follows from that form alone. -/

namespace Sys2Proof.Machine

/-! ### The outcome of an operation (R100, R103, R104) -/

theorem exec_encoder_eq {i : Instr} (s : State) (hi : i.isEncoder = true) :
    ∃ en f, exec i s = encoderOp en f s := by
  cases i with
  | encBit _ | encEnd | encZdrain | encOut | encReserved => exact ⟨_, _, rfl⟩
  | decByte _ | decEnd | decExpand | decOut | reset | decReserved _ => cases hi

theorem exec_decoder_eq {i : Instr} (s : State) (hi : i.isDecoder = true) :
    ∃ en f, exec i s = decoderOp en f s := by
  cases i with
  | decByte _ | decEnd | decExpand | decReserved _ => exact ⟨_, _, rfl⟩
  | decOut => exact ⟨decOutTransfer s, fun s => withDec (releaseBit s.dec) (receiveBit s), rfl⟩
  | encBit _ | encEnd | encZdrain | encOut | reset | encReserved => cases hi

theorem exec_encoder_of_marked {i : Instr} {s : State} {r : RefuseReason} (hp : s.enc.phase ≠ .illegal)
    (hm : s.encMark = some r) (hi : i.isEncoder = true) : exec i s = .refused (refusalOf r) := by
  obtain ⟨en, f, h⟩ := exec_encoder_eq s hi
  rw [h, encoderOp_of_marked hp hm]

theorem exec_decoder_of_marked {i : Instr} {s : State} {r : RefuseReason} (hm : s.decMark = some r)
    (hi : i.isDecoder = true) : exec i s = .refused (refusalOf r) := by
  obtain ⟨en, f, h⟩ := exec_decoder_eq s hi
  rw [h, decoderOp_of_marked hm]

theorem exec_reset_of_legal {s : State} (hp : s.enc.phase ≠ .illegal) :
    exec .reset s = .next (if s.rst then resetRegisters s else s) :=
  faultIfIllegal_of_legal hp _

theorem exec_of_illegal {i : Instr} {s : State} (hp : s.enc.phase = .illegal)
    (hi : i.isEncoder = true ∨ i = .reset) : exec i s = .fault .illegalEncoderPhase := by
  rcases hi with hi | rfl
  · obtain ⟨en, f, h⟩ := exec_encoder_eq s hi
    rw [h]
    exact faultIfIllegal_of_illegal hp _
  · exact faultIfIllegal_of_illegal hp _

/-- With no mark and no fault every operation answers a next state. -/
theorem exec_of_legal (i : Instr) {s : State} (h : Legal s) : ∃ t, exec i s = .next t := by
  obtain ⟨hp, he, hd⟩ := h
  rcases instr_cases i with hi | hi | rfl
  · obtain ⟨en, f, h⟩ := exec_encoder_eq s hi
    exact ⟨_, h.trans (encoderOp_of_legal hp he)⟩
  · obtain ⟨en, f, h⟩ := exec_decoder_eq s hi
    exact ⟨_, h.trans (decoderOp_of_unmarked hd)⟩
  · exact ⟨_, exec_reset_of_legal hp⟩

/-! ### No fault from a legal phase (R104) -/

theorem machineOp_ne_fault (m : Option RefuseReason) (en : Bool) (g : State → State) (s : State) (f : Fault) :
    machineOp m en g s ≠ .fault f := by
  cases m <;> exact nofun

theorem exec_ne_fault {s : State} (hp : s.enc.phase ≠ .illegal) (i : Instr) (f : Fault) : exec i s ≠ .fault f := by
  rcases instr_cases i with hi | hi | rfl
  · obtain ⟨en, g, h⟩ := exec_encoder_eq s hi
    rw [h, encoderOp, faultIfIllegal_of_legal hp]
    exact machineOp_ne_fault _ en g s f
  · obtain ⟨en, g, h⟩ := exec_decoder_eq s hi
    rw [h]
    exact machineOp_ne_fault _ en g s f
  · rw [exec_reset_of_legal hp]
    exact nofun

theorem consume_enc (u : Turn) (s : State) : (consume u s).enc = s.enc := by
  cases u with
  | encIn | decIn => unfold consume; dsimp only; split <;> rfl
  | encInternal | encOut | decInternal | decOut => rfl

theorem runTurn_ne_fault {s : State} (hp : s.enc.phase ≠ .illegal) (u : Turn) (f : Fault) :
    runTurn u s ≠ .fault f := by
  cases hsel : select u s with
  | none =>
    rw [runTurn_none hsel]
    exact nofun
  | some i =>
    rw [runTurn_some hsel]
    exact exec_ne_fault (by rwa [consume_enc]) i f

theorem idleStep_ne_fault (s : State) (f : Fault) : idleStep s ≠ .fault f := by
  unfold idleStep
  split <;> exact nofun

theorem defaultStep_ne_fault {s : State} (hp : s.enc.phase ≠ .illegal) (f : Fault) : defaultStep s ≠ .fault f := by
  unfold defaultStep
  split
  · exact exec_ne_fault hp .reset f
  · split
    · exact runTurn_ne_fault hp _ f
    · exact idleStep_ne_fault s f

theorem moveStep_ne_fault {s : State} (hp : s.enc.phase ≠ .illegal) (f : Fault) : moveStep s ≠ .fault f := by
  unfold moveStep
  split
  · exact nofun
  · rename_i u ms _
    exact runTurn_ne_fault (s := withSched ms s) hp u f
  · exact defaultStep_ne_fault hp f

theorem step_fault_iff {s : State} {f : Fault} :
    step s = .fault f ↔ s.enc.phase = .illegal ∧ f = .illegalEncoderPhase := by
  by_cases hp : s.enc.phase = .illegal
  · rw [step, faultIfIllegal_of_illegal hp, Host.Outcome.fault.injEq, eq_comm, and_iff_right hp]
  · rw [step_of_legal hp]
    exact iff_of_false (moveStep_ne_fault hp f) fun h => hp h.1

/-- Settles O26: a step faults only by `faultIfIllegal` (`step_fault_iff`), and the invariant of a reachable state shuts
the illegal phase out. -/
theorem faultIsExactlyTheIllegalPhase : Obligations.FaultIsExactlyTheIllegalPhase := by
  refine ⟨fun s f => step_fault_iff, fun s i hp hi => exec_of_illegal hp hi, fun s hs => ?_⟩
  obtain ⟨⟨hphase, -⟩, -⟩ := machineInv_of_reachable hs
  exact hphase

/-! ### What an operation does to the phase and to the marks (R100) -/

theorem encEffect_keepsLegalPhase {i : Instr} {s t : State} (e : EncEffect i s t) (hp : s.enc.phase ≠ .illegal) :
    t.enc.phase ≠ .illegal := by
  cases e with
  | takesBit b _ _ h =>
    rw [h, withEnc_enc, takeBit_phase]
    split
    · simp
    · exact hp
  | takesEnd _ _ h =>
    rw [h, withEnc_enc]
    exact takeEnd_phase_ne_illegal hp
  | waits h | drains _ _ h | handsOver _ _ h | refuses _ _ h => exact h ▸ hp

theorem exec_keepsLegalPhase {i : Instr} {s t : State} (h : exec i s = .next t) (hp : s.enc.phase ≠ .illegal) :
    t.enc.phase ≠ .illegal := by
  rcases instr_cases i with hi | hi | rfl
  · obtain ⟨-, -, e⟩ := exec_encoder_next hi h
    exact encEffect_keepsLegalPhase e hp
  · obtain ⟨-, e⟩ := exec_decoder_next hi h
    rw [decEffect_frame e]
    exact hp
  · obtain ⟨-, rfl⟩ := execReset_next.mp h
    split
    · simp [Enc.atReset]
    · exact hp

/-- Only a reserved token writes a mark. -/
theorem exec_marks {i : Instr} {s t : State} (h : exec i s = .next t) (hres : i.isReserved = false) :
    t.encMark = s.encMark ∧ t.decMark = s.decMark := by
  rcases instr_cases i with hi | hi | rfl
  · obtain ⟨-, -, e⟩ := exec_encoder_next hi h
    cases e with
    | refuses hi => simp [hi, Instr.isReserved] at hres
    | waits h | takesBit _ _ _ h | takesEnd _ _ h | drains _ _ h | handsOver _ _ h => exact h ▸ ⟨rfl, rfl⟩
  · obtain ⟨-, e⟩ := exec_decoder_next hi h
    cases e with
    | refuses x hi => simp [hi, Instr.isReserved] at hres
    | waits h | takesByte _ _ _ h | takesEnd _ _ h | expands _ _ h | handsOver _ _ h => exact h ▸ ⟨rfl, rfl⟩
  · obtain ⟨-, rfl⟩ := execReset_next.mp h
    split <;> exact ⟨rfl, rfl⟩

/-- Settles O27: a legal state's operation answers (`exec_of_legal`), keeps the phase legal and, unless it is reserved,
writes no mark (`exec_marks`). -/
theorem noOperationHasAnErrorOutcome : Obligations.NoOperationHasAnErrorOutcome := by
  intro s i hlegal
  obtain ⟨t, ht⟩ := exec_of_legal i hlegal
  obtain ⟨hp, he, hd⟩ := hlegal
  refine ⟨t, ht, exec_keepsLegalPhase ht hp, fun hres => ?_⟩
  obtain ⟨hencMark, hdecMark⟩ := exec_marks ht hres
  exact ⟨hencMark.trans he, hdecMark.trans hd⟩

/-! ### The marks over a step (R103) -/

theorem hostAction_decMark (a : HostAction) (s : State) : (hostAction a s).decMark = s.decMark := by
  cases a with
  | strap p => rw [hostAction, driveStrap_frame]
  | offerEnc _ | offerDec _ | encReady _ | decReady _ | rst _ => rfl

theorem driveStrap_keepsEncMark {s : State} {r : RefuseReason} (p : Policy) (h : s.encMark = some r) :
    (driveStrap p s).encMark = some r := by
  unfold driveStrap
  split
  · rw [markEnc_encMark, h, Option.some_or]
  · exact h

theorem hostAction_keepsEncMark {s : State} {r : RefuseReason} (a : HostAction) (h : s.encMark = some r) :
    (hostAction a s).encMark = some r := by
  cases a with
  | strap p => exact driveStrap_keepsEncMark p h
  | offerEnc _ | offerDec _ | encReady _ | decReady _ | rst _ => exact h

/-- A turn leaves a marked encoder's mark and registers: each that writes them needs it unmarked. -/
theorem turnEffect_of_encMark {u : Turn} {s t : State} {r : RefuseReason} (e : TurnEffect u s t)
    (h : s.encMark = some r) : t.encMark = some r ∧ t.enc = s.enc := by
  cases e with
  | takesBit _ _ hm | takesEncEnd _ hm | refusesEnc _ hm | drains _ hm | handsOverByte _ hm => simp [h] at hm
  | nothing ht | takesByte _ _ _ _ _ _ _ ht | takesDecEnd _ _ _ _ ht | refusesDec _ _ _ _ _ _ _ ht | expands _ _ _ ht
  | handsOverBit _ _ _ ht =>
    subst ht
    exact ⟨h, rfl⟩

/-- The same for a marked decoder. -/
theorem turnEffect_of_decMark {u : Turn} {s t : State} {r : RefuseReason} (e : TurnEffect u s t)
    (h : s.decMark = some r) : t.decMark = some r ∧ t.dec = s.dec := by
  cases e with
  | takesByte _ _ _ hm | takesDecEnd _ hm | refusesDec _ _ _ hm | expands _ hm | handsOverBit _ hm => simp [h] at hm
  | nothing ht | takesBit _ _ _ _ _ ht | takesEncEnd _ _ _ _ ht | refusesEnc _ _ _ _ ht | drains _ _ _ ht
  | handsOverByte _ _ _ ht =>
    subst ht
    exact ⟨h, rfl⟩

/-- A step leaves a marked encoder's mark, and with `rst = 0` its registers. -/
theorem step_of_encMark {s t : State} {r : RefuseReason} (hstep : step s = .next t) (h : s.encMark = some r) :
    t.encMark = some r ∧ (s.rst = false → t.enc = s.enc) := by
  obtain ⟨-, ⟨a, ms, -, rfl⟩ | ⟨ms, -, ⟨hr, rfl⟩ | ⟨-, u, e⟩⟩⟩ := step_next hstep
  · exact ⟨hostAction_keepsEncMark (s := withSched ms s) a h, fun _ => hostAction_enc a _⟩
  · exact ⟨h, fun hr' => by simp [hr] at hr'⟩
  · obtain ⟨hmark, henc⟩ := turnEffect_of_encMark e h
    exact ⟨hmark, fun _ => henc⟩

/-- The same for a marked decoder. -/
theorem step_of_decMark {s t : State} {r : RefuseReason} (hstep : step s = .next t) (h : s.decMark = some r) :
    t.decMark = some r ∧ (s.rst = false → t.dec = s.dec) := by
  obtain ⟨-, ⟨a, ms, -, rfl⟩ | ⟨ms, -, ⟨hr, rfl⟩ | ⟨-, u, e⟩⟩⟩ := step_next hstep
  · exact ⟨(hostAction_decMark a (withSched ms s)).trans h, fun _ => hostAction_dec a _⟩
  · exact ⟨h, fun hr' => by simp [hr] at hr'⟩
  · obtain ⟨hmark, hdec⟩ := turnEffect_of_decMark e h
    exact ⟨hmark, fun _ => hdec⟩

/-- Settles O22: neither a host action nor a turn nor a reset writes a mark that is already there. -/
theorem refusedMarksAreNeverCleared : Obligations.RefusedMarksAreNeverCleared :=
  fun _ _ _ hstep => ⟨fun h => (step_of_encMark hstep h).1, fun h => (step_of_decMark hstep h).1⟩

/-! ### The other machine beside a mark (R10, R103) -/

/-- A decoder operation is the same beside any encoder mark, since that mark is on the encoder's side. -/
theorem exec_decoder_withEncMark {i : Instr} {s t : State} (m : Option RefuseReason) (hi : i.isDecoder = true)
    (h : exec i s = .next t) : exec i { s with encMark := m } = .next { t with encMark := m } := by
  obtain ⟨-, e⟩ := exec_decoder_next hi h
  have hside := exec_decoder_withEncSide { s with encMark := m } hi h
  rw [decEffect_withDecSide e] at hside ⊢
  exact hside

/-- An encoder operation is the same beside any decoder mark. -/
theorem exec_encoder_withDecMark {i : Instr} {s t : State} (m : Option RefuseReason) (hi : i.isEncoder = true)
    (h : exec i s = .next t) : exec i { s with decMark := m } = .next { t with decMark := m } := by
  obtain ⟨-, -, e⟩ := exec_encoder_next hi h
  have hside := exec_encoder_withDecSide { s with decMark := m } hi h
  rw [encEffect_withEncSide e] at hside ⊢
  exact hside

/-- Settles O23: the mark alone decides a marked machine's outcome, the other machine does not read it, and a step
writes a marked machine's registers only by a reset. -/
theorem refusedMachineStopsAlone : Obligations.RefusedMachineStopsAlone :=
  ⟨fun _ _ _ hp hm hi => exec_encoder_of_marked hp hm hi,
    fun _ _ _ hm hi => exec_decoder_of_marked hm hi,
    fun _ _ _ m hi h => exec_decoder_withEncMark m hi h,
    fun _ _ _ m hi h => exec_encoder_withDecMark m hi h,
    fun _ _ _ hm hr hstep => (step_of_encMark hstep hm).2 hr,
    fun _ _ _ hm hr hstep => (step_of_decMark hstep hm).2 hr⟩

/-! ### The host's actions (R110) -/

theorem hostAction_policyAtReset (a : HostAction) (s : State) : (hostAction a s).policyAtReset = s.policyAtReset := by
  cases a with
  | strap p => rw [hostAction, driveStrap_frame]
  | offerEnc _ | offerDec _ | encReady _ | decReady _ | rst _ => rfl

/-- Settles O41: the step is the host action on the state with the schedule moved on, and no action writes a register,
an output stream or the decoder's mark. -/
theorem hostActionsWriteNoRegister : Obligations.HostActionsWriteNoRegister := by
  intro s a ms hp hs
  obtain ⟨hencOut, hdecOut, hsched⟩ := hostAction_outputs_sched a (withSched ms s)
  refine ⟨hostAction a (withSched ms s), step_host hp hs, hostAction_enc a _, hostAction_dec a _, hencOut, hdecOut,
    hostAction_policyAtReset a _, hostAction_decMark a _, hsched, ?_, ?_, ?_, ?_, ?_⟩ <;> rintro _ rfl <;> rfl

end Sys2Proof.Machine

/-! ## Reset and the hazards of 70_reset_and_hazards.md

A turn that changes anything fires (`turnEffect_fires`): its operation is selected, its `require` holds and its machine
is not marked. From that one fact come the hangs of R126, where no turn of a machine fires, and the falling work of
R132. -/

namespace Sys2Proof.Machine

/-! ### Every turn that changes anything fires (R126, R132) -/

theorem turnEffect_fires {u : Turn} {s t : State} (e : TurnEffect u s t) : t = s ∨ turnFires u s = true := by
  cases e with
  | nothing h => exact .inl h
  | takesBit _ hu hm hr hd | takesEncEnd hu hm hr hd | refusesEnc hu hm hr hd =>
    obtain ⟨toks, hin⟩ := List.head?_eq_some_iff.mp hd
    exact .inr (hu ▸ turnFires_encIn_iff.mpr ⟨hm, ⟨_, toks, hin⟩, hr⟩)
  | drains hu hm hr => exact .inr (hu ▸ turnFires_encInternal_iff.mpr ⟨hm, hr⟩)
  | handsOverByte hu hm hr => exact .inr (hu ▸ turnFires_encOut_iff.mpr ⟨hm, hr⟩)
  | takesByte _ _ hu hm hr hd | takesDecEnd hu hm hr hd | refusesDec _ _ hu hm hr hd =>
    obtain ⟨toks, hin⟩ := List.head?_eq_some_iff.mp hd
    exact .inr (hu ▸ turnFires_decIn_iff.mpr ⟨hm, ⟨_, toks, hin⟩, hr⟩)
  | expands hu hm hr => exact .inr (hu ▸ turnFires_decInternal_iff.mpr ⟨hm, hr⟩)
  | handsOverBit hu hm hr => exact .inr (hu ▸ turnFires_decOut_iff.mpr ⟨hm, hr⟩)

/-- A turn fires or not whatever is scheduled after it. -/
theorem turnFires_withSched (u : Turn) (ms : List Move) (s : State) :
    turnFires u (withSched ms s) = turnFires u s := by
  cases u <;> rfl

/-- In the illegal phase an encoder turn changes nothing or faults (R104). -/
theorem legalPhase_of_enc_turn {u : Turn} {s t : State} (hu : isEncTurn u = true) (hr : s.rst = false)
    (h : runTurn u s = .next t) (hne : t ≠ s) : s.enc.phase ≠ .illegal := by
  intro hp
  cases hsel : select u s with
  | none =>
    rw [runTurn_none hsel] at h
    exact hne (Host.Outcome.next.inj h).symm
  | some i =>
    rw [runTurn_some hsel, exec_of_illegal (by rwa [consume_enc]) (.inl (select_isEncoder hu hr hsel))] at h
    cases h

/-- Settles O44: a turn that changes anything fires, and a turn that fires leaves its machine less work and the other
machine's as it was. -/
theorem everyOperationReducesTheWork : Obligations.EveryOperationReducesTheWork := by
  intro u s t hr h hne
  have hfires : turnFires u s = true := (turnEffect_fires (runTurn_next hr h)).resolve_left hne
  cases hu : isEncTurn u with
  | true =>
    obtain ⟨v, hv, hwork⟩ := runTurn_fires (legalPhase_of_enc_turn hu hr h hne) hr hfires
    obtain rfl : t = v := Host.Outcome.next.inj (h.symm.trans hv)
    exact hwork
  | false =>
    obtain ⟨v, hv, hwork⟩ := runTurn_dec_fires hu hfires
    obtain rfl : t = v := Host.Outcome.next.inj (h.symm.trans hv)
    have henc : encWork t = encWork s := by rw [runTurn_dec_frame hu hr h]; rfl
    unfold work
    omega

/-! ### The default host comes to rest (R126, R132) -/

/-- With nothing scheduled, `rst = 0` and a legal phase: what the default host's run keeps. -/
def DefaultHostRuns (s : State) : Prop :=
  s.enc.phase ≠ .illegal ∧ s.rst = false ∧ s.sched = []

/-- Until no turn fires, the default host's step is a turn that fires. -/
theorem defaultHostRuns_step (s : State) (h : DefaultHostRuns s) :
    (∀ u, turnFires u s = false) ∨ ∃ t, step s = .next t ∧ DefaultHostRuns t ∧ work t < work s := by
  obtain ⟨hp, hr, hs⟩ := h
  cases hdef : defaultTurn s with
  | none => exact .inl (defaultTurn_none hdef)
  | some u =>
    obtain ⟨t, ht, hwork⟩ := runTurn_fires hp hr (defaultTurn_fires hdef)
    have e : TurnEffect u s t := runTurn_next hr ht
    obtain ⟨hsched, hrst, -, -⟩ := turnEffect_sched_pins e
    exact .inr ⟨t, (step_of_defaultTurn hp hr hs hdef).trans ht,
      ⟨turnEffect_keepsLegalPhase e hp, hrst.trans hr, hsched.trans hs⟩, hwork⟩

/-- Settles O45: the work falls with every step of the default host until no turn fires (`runFor_reaches`). -/
theorem defaultHostComesToRest : Obligations.DefaultHostComesToRest := by
  intro s hp hr hs
  obtain ⟨n, t, hrun, -, hquiet⟩ := runFor_reaches work defaultHostRuns_step s ⟨hp, hr, hs⟩
  exact ⟨n, t, hrun, hquiet⟩

/-! ### A legal state always answers, and where it waits it stays (R126) -/

theorem legal_consume {s : State} (u : Turn) (h : Legal s) : Legal (consume u s) := by
  cases u with
  | encIn | decIn => unfold consume; dsimp only; split <;> exact h
  | encInternal | encOut | decInternal | decOut => exact h

theorem runTurn_of_legal (u : Turn) {s : State} (h : Legal s) : ∃ t, runTurn u s = .next t := by
  cases hsel : select u s with
  | none => exact ⟨s, runTurn_none hsel⟩
  | some i =>
    rw [runTurn_some hsel]
    exact exec_of_legal i (legal_consume u h)

theorem step_of_quiet {s : State} (h : Legal s) (hr : s.rst = false) (hs : s.sched = [])
    (hquiet : ∀ u, turnFires u s = false) : step s = .next s := by
  obtain ⟨hp, he, hd⟩ := h
  obtain ⟨-, -, hidle⟩ := defaultHostRunsWhatCanHappen s hp hs
  exact hidle hr hquiet he hd

theorem exists_step_of_legal {s : State} (h : Legal s) (hr : s.rst = false) : ∃ t, step s = .next t := by
  have hp : s.enc.phase ≠ .illegal := h.1
  cases hs : s.sched with
  | nil =>
    cases hdef : defaultTurn s with
    | none => exact ⟨s, step_of_quiet h hr hs (defaultTurn_none hdef)⟩
    | some u =>
      rw [step_of_defaultTurn hp hr hs hdef]
      exact runTurn_of_legal u h
  | cons m ms =>
    cases m with
    | host a => exact ⟨_, step_host hp hs⟩
    | turn u =>
      rw [step_turn hp hs]
      exact runTurn_of_legal u (s := withSched ms s) h

/-- A scheduled turn that does not fire only leaves the schedule. -/
theorem step_of_unfired_turn {s : State} {u : Turn} {ms : List Move} (h : Legal s) (hr : s.rst = false)
    (hs : s.sched = .turn u :: ms) (hno : turnFires u s = false) : step s = .next (withSched ms s) := by
  obtain ⟨t, ht⟩ := runTurn_of_legal u (s := withSched ms s) h
  rw [step_turn h.1 hs, ht]
  rcases turnEffect_fires (runTurn_next (s := withSched ms s) hr ht) with rfl | hfires
  · rfl
  · simp [turnFires_withSched, hno] at hfires

/-! ### Which turns cannot happen at a hang (R126) -/

theorem turnFires_encIn_of_waiting {s : State}
    (h : s.rst = true ∨ s.enc.phase = .done ∨ s.enc.zpend = true ∨ s.enc.ovalid = true) :
    turnFires .encIn s = false := by
  simp [turnFires, encInReady_of_waiting h]

theorem turnFires_decIn_of_waiting {s : State} (h : s.rst = true ∨ s.dec.phase = .done ∨ s.dec.rem ≠ 0#8) :
    turnFires .decIn s = false := by
  simp [turnFires, decInReady_of_waiting h]

theorem turnFires_encInternal_of_held {s : State} (hv : s.enc.ovalid = true) :
    turnFires .encInternal s = false := by
  simp [turnFires, zdrainSelected, hv]

theorem turnFires_decInternal_of_held {s : State} (hv : s.dec.ovalid = true) :
    turnFires .decInternal s = false := by
  simp [turnFires, expandSelected, hv]

theorem turnFires_encOut_of_not_taken {s : State} (hy : s.encOutReady = false) : turnFires .encOut s = false := by
  simp [turnFires, encOutTransfer, hy]

theorem turnFires_decOut_of_not_taken {s : State} (hy : s.decOutReady = false) : turnFires .decOut s = false := by
  simp [turnFires, decOutTransfer, hy]

/-- A held byte the host does not take stops every turn of the encoder. -/
theorem enc_quiet_of_held {s : State} (hv : s.enc.ovalid = true) (hy : s.encOutReady = false) :
    ∀ u, isEncTurn u = true → turnFires u s = false
  | .encIn, _ => turnFires_encIn_of_waiting (.inr (.inr (.inr hv)))
  | .encInternal, _ => turnFires_encInternal_of_held hv
  | .encOut, _ => turnFires_encOut_of_not_taken hy

/-- A held bit the host does not take stops every turn of a decoder with repetitions left. -/
theorem dec_quiet_of_held {s : State} (hv : s.dec.ovalid = true) (hy : s.decOutReady = false)
    (hrem : s.dec.rem ≠ 0#8) : ∀ u, isEncTurn u = false → turnFires u s = false
  | .decIn, _ => turnFires_decIn_of_waiting (.inr (.inr hrem))
  | .decInternal, _ => turnFires_decInternal_of_held hv
  | .decOut, _ => turnFires_decOut_of_not_taken hy

/-! ### A machine none of whose turns fires keeps its registers (R126) -/

theorem turnEffect_enc_of_quiet {u : Turn} {s t : State} (e : TurnEffect u s t)
    (hquiet : ∀ v, isEncTurn v = true → turnFires v s = false) : t.enc = s.enc := by
  rcases turnEffect_fires e with rfl | hfires
  · rfl
  cases e with
  | takesBit _ hu | takesEncEnd hu | refusesEnc hu | drains hu | handsOverByte hu =>
    have hno := hquiet u (hu ▸ rfl)
    simp [hno] at hfires
  | nothing h | takesByte _ _ _ _ _ _ _ h | takesDecEnd _ _ _ _ h | refusesDec _ _ _ _ _ _ _ h | expands _ _ _ h
  | handsOverBit _ _ _ h => exact h ▸ rfl

theorem turnEffect_dec_of_quiet {u : Turn} {s t : State} (e : TurnEffect u s t)
    (hquiet : ∀ v, isEncTurn v = false → turnFires v s = false) : t.dec = s.dec := by
  rcases turnEffect_fires e with rfl | hfires
  · rfl
  cases e with
  | takesByte _ _ hu | takesDecEnd hu | refusesDec _ _ hu | expands hu | handsOverBit hu =>
    have hno := hquiet u (hu ▸ rfl)
    simp [hno] at hfires
  | nothing h | takesBit _ _ _ _ _ h | takesEncEnd _ _ _ _ h | refusesEnc _ _ _ _ h | drains _ _ _ h
  | handsOverByte _ _ _ h => exact h ▸ rfl

theorem step_enc_of_quiet {s t : State} (hr : s.rst = false)
    (hquiet : ∀ u, isEncTurn u = true → turnFires u s = false) (hstep : step s = .next t) : t.enc = s.enc := by
  obtain ⟨-, ⟨a, ms, -, rfl⟩ | ⟨ms, -, ⟨hrst, -⟩ | ⟨-, u, e⟩⟩⟩ := step_next hstep
  · exact hostAction_enc a _
  · simp [hr] at hrst
  · exact turnEffect_enc_of_quiet (s := withSched ms s) e fun v hv => (turnFires_withSched v ms s).trans (hquiet v hv)

theorem step_dec_of_quiet {s t : State} (hr : s.rst = false)
    (hquiet : ∀ u, isEncTurn u = false → turnFires u s = false) (hstep : step s = .next t) : t.dec = s.dec := by
  obtain ⟨-, ⟨a, ms, -, rfl⟩ | ⟨ms, -, ⟨hrst, -⟩ | ⟨-, u, e⟩⟩⟩ := step_next hstep
  · exact hostAction_dec a _
  · simp [hr] at hrst
  · exact turnEffect_dec_of_quiet (s := withSched ms s) e fun v hv => (turnFires_withSched v ms s).trans (hquiet v hv)

/-! ### A machine ends only by its END token (R126) -/

theorem turnEffect_reachesDone {u : Turn} {s t : State} (e : TurnEffect u s t) (hne : s.enc.phase ≠ .done)
    (hdone : t.enc.phase = .done) : s.encIn.head? = some 0b10#2 := by
  cases e with
  | takesEncEnd _ _ _ hd => exact hd
  | takesBit b _ _ _ _ h =>
    rw [h, withEnc_enc, takeBit_phase] at hdone
    split at hdone
    · cases hdone
    · exact absurd hdone hne
  | nothing h | refusesEnc _ _ _ _ h | drains _ _ _ h | handsOverByte _ _ _ h | takesByte _ _ _ _ _ _ _ h
  | takesDecEnd _ _ _ _ h | refusesDec _ _ _ _ _ _ _ h | expands _ _ _ h | handsOverBit _ _ _ h =>
    subst h
    exact absurd hdone hne

theorem turnEffect_reachesDecDone {u : Turn} {s t : State} (e : TurnEffect u s t) (hne : s.dec.phase ≠ .done)
    (hdone : t.dec.phase = .done) : s.decIn.head? = some 0x100#9 := by
  cases e with
  | takesDecEnd _ _ _ hd => exact hd
  | takesByte v _ _ _ _ _ _ h =>
    rw [h, withDec_dec, takeByte_phase] at hdone
    exact absurd hdone hne
  | nothing h | takesBit _ _ _ _ _ h | takesEncEnd _ _ _ _ h | refusesEnc _ _ _ _ h | drains _ _ _ h
  | handsOverByte _ _ _ h | refusesDec _ _ _ _ _ _ _ h | expands _ _ _ h | handsOverBit _ _ _ h =>
    subst h
    exact absurd hdone hne

theorem step_reachesDone {s t : State} (hstep : step s = .next t) (hne : s.enc.phase ≠ .done)
    (hdone : t.enc.phase = .done) : s.encIn.head? = some 0b10#2 := by
  obtain ⟨-, ⟨a, ms, -, rfl⟩ | ⟨ms, -, ⟨-, rfl⟩ | ⟨-, u, e⟩⟩⟩ := step_next hstep
  · rw [hostAction_enc] at hdone
    exact absurd hdone hne
  · cases hdone
  · exact turnEffect_reachesDone (s := withSched ms s) e hne hdone

theorem step_reachesDecDone {s t : State} (hstep : step s = .next t) (hne : s.dec.phase ≠ .done)
    (hdone : t.dec.phase = .done) : s.decIn.head? = some 0x100#9 := by
  obtain ⟨-, ⟨a, ms, -, rfl⟩ | ⟨ms, -, ⟨-, rfl⟩ | ⟨-, u, e⟩⟩⟩ := step_next hstep
  · rw [hostAction_dec] at hdone
    exact absurd hdone hne
  · cases hdone
  · exact turnEffect_reachesDecDone (s := withSched ms s) e hne hdone

/-- An input stream over a step at a port that is not ready (`streamsAreFirstInFirstOut`): no token passes. -/
theorem stream_of_not_ready {α : Type} {old new : List α} {ready : Bool} {gains : α → Prop} (hbusy : ready = false)
    (h : new = old ∨ (ready = true ∧ old ≠ [] ∧ new = old.tail) ∨ ∃ x, gains x ∧ new = old ++ [x]) :
    new = old ∨ ∃ x, new = old ++ [x] := by
  rcases h with h | ⟨hready, -⟩ | ⟨x, -, h⟩
  · exact .inl h
  · simp [hbusy] at hready
  · exact .inr ⟨x, h⟩

/-- Settles O38: a legal state answers, and waits in place where no turn fires (`turnEffect_fires`); after END the port
is not ready; a held output not taken stops its machine's turns; only END leads to phase DONE. -/
theorem hangsAreKept : Obligations.HangsAreKept := by
  refine ⟨fun s h hr => ⟨exists_step_of_legal h hr, step_of_quiet h hr, fun u ms => step_of_unfired_turn h hr,
      fun hdone => turnFires_encIn_of_waiting (.inr (.inl hdone)),
      fun hdone => turnFires_decIn_of_waiting (.inr (.inl hdone)),
      fun hv => ⟨turnFires_encIn_of_waiting (.inr (.inr (.inr hv))), turnFires_encInternal_of_held hv⟩,
      turnFires_decInternal_of_held, fun hrem => turnFires_decIn_of_waiting (.inr (.inr hrem)),
      turnFires_encOut_of_not_taken, turnFires_decOut_of_not_taken,
      fun hnone => by simp [turnFires, encInValid, hnone], fun hnone => by simp [turnFires, decInValid, hnone]⟩,
    fun s t hr hdone hstep => ⟨step_keepsDone hr hdone hstep, ?_⟩,
    fun s t hr hdone hstep => ⟨step_keepsDecDone hr hdone hstep, ?_⟩,
    fun s t hr hv hy => step_enc_of_quiet hr (enc_quiet_of_held hv hy),
    fun s t hr hv hy hrem => step_dec_of_quiet hr (dec_quiet_of_held hv hy hrem),
    fun s t => step_reachesDone, fun s t => step_reachesDecDone⟩
  · obtain ⟨hin, -⟩ := streamsAreFirstInFirstOut s t hstep
    exact stream_of_not_ready (encInReady_of_waiting (.inr (.inl hdone))) hin
  · obtain ⟨-, hin, -⟩ := streamsAreFirstInFirstOut s t hstep
    exact stream_of_not_ready (decInReady_of_waiting (.inr (.inl hdone))) hin

/-! ### The reset (R120, R122, R131) -/

theorem exec_reset_of_rst {s : State} (hp : s.enc.phase ≠ .illegal) (hr : s.rst = true) :
    exec .reset s = .next (resetRegisters s) := by
  rw [exec_reset_of_legal hp, if_pos hr]

theorem eq_resetRegisters {s t : State} (hr : s.rst = true) (h : exec .reset s = .next t) : t = resetRegisters s := by
  obtain ⟨-, ht⟩ := execReset_next.mp h
  rwa [if_pos hr] at ht

/-- With `rst = 1` every other operation waits: each asks for `rst = 0`. -/
theorem exec_waits_of_rst {i : Instr} {s t : State} (hr : s.rst = true) (hi : i ≠ .reset)
    (h : exec i s = .next t) : t = s := by
  rcases instr_cases i with henc | hdec | hreset
  · obtain ⟨-, -, e⟩ := exec_encoder_next henc h
    cases e with
    | waits ht => exact ht
    | takesBit _ _ hready | takesEnd _ hready | refuses _ hready => simp [encInReady, hr] at hready
    | drains _ hsel => simp [zdrainSelected, hr] at hsel
    | handsOver _ hout => simp [encOutTransfer, encOutValid, hr] at hout
  · obtain ⟨-, e⟩ := exec_decoder_next hdec h
    cases e with
    | waits ht => exact ht
    | takesByte _ _ hready | takesEnd _ hready | refuses _ _ hready => simp [decInReady, hr] at hready
    | expands _ hsel => simp [expandSelected, hr] at hsel
    | handsOver _ hout => simp [decOutTransfer, decOutValid, hr] at hout
  · exact absurd hreset hi

/-- Settles O15: `resetRegisters` writes the registers and the strap's record alone, and with `rst = 1` no signal and no
operation is enabled. -/
theorem resetGivesEveryRegisterItsResetValue : Obligations.ResetGivesEveryRegisterItsResetValue := fun s hp hr =>
  ⟨⟨resetRegisters s, exec_reset_of_rst hp hr, rfl, rfl, rfl⟩,
    encInReady_of_waiting (.inl hr), by simp [outputs, encOutValid, hr],
    decInReady_of_waiting (.inl hr), by simp [outputs, decOutValid, hr],
    fun _ _ => exec_waits_of_rst hr⟩

/-- Settles O16: `resetRegisters` is idempotent and leaves `rst`. -/
theorem anotherResetEdgeChangesNothing : Obligations.AnotherResetEdgeChangesNothing := by
  intro s t hr h
  obtain rfl := eq_resetRegisters hr h
  exact exec_reset_of_rst (s := resetRegisters s) nofun hr

/-- Settles O17: `resetRegisters` leaves the streams, and its register values read nothing of the state. -/
theorem resetAbandonsTheStream : Obligations.ResetAbandonsTheStream := by
  intro s t u v hs hu hst huv
  obtain rfl := eq_resetRegisters hs hst
  obtain rfl := eq_resetRegisters hu huv
  exact ⟨rfl, rfl, rfl, rfl, rfl, rfl, rfl, rfl⟩

/-- Settles O18, value by value. -/
theorem resetStateHoldsTheResetValues : Obligations.ResetStateHoldsTheResetValues :=
  ⟨rfl, rfl, rfl, rfl, rfl, rfl, rfl, rfl, rfl, rfl, rfl, rfl⟩

/-! ### The end of a run (R130) -/

/-- Settles O31: in phase DONE the invariant leaves no zero owed (R25) and no repetition to write (R26). -/
theorem endOfRunLeavesNothingPending : Obligations.EndOfRunLeavesNothingPending := by
  intro s h
  obtain ⟨⟨-, -, -, -, -, hzpend, -⟩, ⟨hrem, -⟩, -⟩ := h
  refine ⟨encDone_iff s, fun hd => ?_, decDone_iff s, fun hd => ?_⟩
  · obtain ⟨hphase, hv⟩ := (encDone_iff s).mp hd
    exact ⟨hzpend hphase, by simp [zdrainSelected, hzpend hphase], by simp [encOutValid, hv]⟩
  · obtain ⟨hphase, hv⟩ := (decDone_iff s).mp hd
    exact ⟨hrem hphase, by simp [expandSelected, hrem hphase], by simp [decOutValid, hv]⟩

/-! ### The strap (R124, R128) -/

/-- No decoder operation reads the policy. -/
theorem exec_decoder_withPolicy {i : Instr} {s t : State} (p : Policy) (hi : i.isDecoder = true)
    (h : exec i s = .next t) : exec i { s with ovfPolicy := p } = .next { t with ovfPolicy := p } :=
  onlyTheOverflowHandlerReadsThePolicy s t i p (by rintro rfl; cases hi) h (by rintro ⟨rfl, -⟩; cases hi)

theorem driveStrap_of_change {s : State} {p : Policy} (hm : s.encMark = none) (hne : p ≠ s.policyAtReset)
    (hd : encDone s = false) : driveStrap p s = { s with ovfPolicy := p, encMark := some .policyChanged } := by
  rw [driveStrap, if_pos ⟨hne, hd⟩, markEnc_of_unmarked (s := { s with ovfPolicy := p }) hm]

theorem driveStrap_of_allowed {s : State} {p : Policy} (h : p = s.policyAtReset ∨ encDone s = true) :
    driveStrap p s = { s with ovfPolicy := p } := by
  refine if_neg fun ⟨hne, hd⟩ => ?_
  rcases h with hp | hdone
  · exact hne hp
  · simp [hd] at hdone

/-- Settles O24: the step drives the strap (`driveStrap_of_change`, `driveStrap_of_allowed`); a decoder operation reads
neither the strap nor the encoder's mark. -/
theorem policyChangeMidStreamIsRefused : Obligations.PolicyChangeMidStreamIsRefused := by
  intro s p ms hp hm hs
  rw [step_host hp hs]
  refine ⟨fun hne hd => ?_, fun hok => ?_, fun i t hi h => ?_, fun t hr h => ?_⟩
  · rw [hostAction, driveStrap_of_change (s := withSched ms s) hm hne hd]
    rfl
  · rw [hostAction, driveStrap_of_allowed (s := withSched ms s) hok]
    rfl
  · exact exec_decoder_withEncMark (some .policyChanged) hi (exec_decoder_withPolicy p hi h)
  · rw [eq_resetRegisters hr h, resetRegisters_policyAtReset]

/-- Settles O60: the decoder's output under every schedule is the decoding of its stream (O50), and decoding undoes
`encode_SYNTH_ZERO` (`synthZero_roundTrip`). -/
theorem decoderRestoresSynthZeroStreams : Obligations.DecoderRestoresSynthZeroStreams := by
  refine ⟨fun i s t p => exec_decoder_withPolicy p, fun bits s t n hstart hsched hrun hdone => ?_⟩
  obtain ⟨-, -, hend⟩ := decoderOutputIsTheSameUnderEverySchedule _ s t n hstart hsched hrun
  obtain ⟨hout, -⟩ := hend hdone
  rw [hout, synthZero_roundTrip]

end Sys2Proof.Machine
